-- ==== Sys2Proof/Word.lean ====
section
/-! DEFINITION. The words and the plain value types of the model: the command packet, the scalar's bit
pattern, complex samples, and the record of scalar operations `NUM` (00_scope.md R13). The operations
themselves stand under Machine/. -/

namespace Sys2Proof

/-- A command packet `cmd[127:0]` (30_encoding.md R80). -/
abbrev Packet := BitVec 128

/-- A 32-bit count, length or index field: `FIELD_W` = 32 (00_scope.md R8, 30_encoding.md R84). -/
abbrev Word := BitVec 32

/-- A scalar of `NUM_F64`, as its IEEE 754 binary64 bit pattern (00_scope.md R15, 42_constellation_tables.md R133). -/
abbrev F64 := BitVec 64

/-- A complex sample `z = (z.re, z.im)` over a scalar type (00_scope.md R13). -/
structure Cx (T : Type) where
  re : T
  im : T
deriving DecidableEq, Repr, Inhabited

/-- A sample as a buffer space holds it (20_memory.md R56). -/
abbrev Sample := Cx F64

/-- The direction `DIR` of a provider request: 0 = forward, 1 = inverse (44_transform_provider.md R160). -/
inductive Dir where
  | forward
  | inverse
deriving DecidableEq, Repr

/-- The scalar operation a free NaN comes from (log entry 7). -/
inductive ArithOp where
  | add
  | sub
  | mul
  | div
deriving DecidableEq, Repr

/-- The parameter `NUM`: a scalar format's operations, each total (00_scope.md R13). `NUM.zero` is
`ofInt 0`. -/
structure Num (T : Type) where
  add : T → T → T
  sub : T → T → T
  mul : T → T → T
  div : T → T → T
  /-- strict less-than -/
  lt : T → T → Bool
  /-- numeric equality -/
  eq : T → T → Bool
  ofInt : Int → T
  /-- `NUM.ofReal`, read by `Num.ofReal`. A program cannot compute on real numbers, so the function is held
  where the compiler does not run it; the tables of `Params` hold its values on the constants the rules use
  (42_constellation_tables.md R131: "the ROM holds the rounded constant, the engine does not compute the
  division at run time"). -/
  ofRealErased : Erased (ℝ → T)

/-- A transform provider: `p dir N x k` is entry `k` of the answer to the request `(dir, N, x)`. That the
answer has N entries and depends on the request alone (`PROV.LENGTH`, `PROV.DETERMINISTIC` of
44_transform_provider.md R162) is built into this form (log entry 8). -/
abbrev Provider (T : Type) := Dir → Nat → List (Cx T) → Nat → Cx T

end Sys2Proof
end

