-- ==== Sys2Proof/Syntax.lean ====
section
/-! DEFINITION. The thirteen commands of FE-1 as syntax, one constructor per row of
spec/opcode_table.json (30_encoding.md R85). Operand fields keep their packet widths (R81, R82). -/

namespace Sys2Proof

/-- A decoded command. `ctx` is the field `CTX`, `order` the field `ORDER` (`bitsPerSymbol`), `lenIn` and
`lenOut` the fields `LEN_IN` and `LEN_OUT` (30_encoding.md R81, R82). -/
inductive Instr where
  /-- CONSTRUCT, format K (46_modulator.md R190) -/
  | construct (ctx : BitVec 1) (xsel : BitVec 1) (order : BitVec 8) (nsc cplen pevery : Word)
  /-- GETSYMLEN, format Q (46_modulator.md R194) -/
  | getsymlen (ctx : BitVec 1)
  /-- GETCAP, format Q (46_modulator.md R195) -/
  | getcap (ctx : BitVec 1)
  /-- MODULATE, format B (46_modulator.md R196) -/
  | modulate (ctx : BitVec 1) (lenIn lenOut : Word)
  /-- DEMODULATE, format B (47_demodulator.md R210) -/
  | demodulate (ctx : BitVec 1) (lenIn : Word)
  /-- MAP, format M (41_constellation_mapper.md R113) -/
  | map (order : BitVec 8) (lenIn : Word)
  /-- DEMAP, format M (41_constellation_mapper.md R115) -/
  | demap (order : BitVec 8)
  /-- B2F, format B (43_frame_layout.md R145) -/
  | b2f (ctx : BitVec 1) (lenIn : Word)
  /-- F2B, format B (43_frame_layout.md R147) -/
  | f2b (ctx : BitVec 1) (lenIn : Word)
  /-- XFWD, format B (44_transform_provider.md R168) -/
  | xfwd (ctx : BitVec 1) (lenIn : Word)
  /-- XINV, format B (44_transform_provider.md R169) -/
  | xinv (ctx : BitVec 1) (lenIn : Word)
  /-- CPADD, format B (45_cyclic_prefix.md R182) -/
  | cpadd (ctx : BitVec 1) (lenIn : Word)
  /-- CPSTRIP, format B (45_cyclic_prefix.md R183) -/
  | cpstrip (ctx : BitVec 1) (lenIn : Word)
deriving DecidableEq, Repr

end Sys2Proof
end

