-- ==== Sys2Proof/Machine/State.lean ====
section
/-! DEFINITION. The state of the machine as plain data: the engine's two contexts, the four buffer spaces
the host owns, the command and response ports, and the host's record and pending moves (10_state.md R20
to R31, 20_memory.md R50, 30_encoding.md R80, R83, R91); the errors a command can answer, the reasons a
step can stop, and the state after reset. -/

namespace Sys2Proof.Machine

/-- The role of a subcarrier (10_state.md R25). The codes 0, 1, 2 are exposed by no command. -/
inductive Role where
  | guard
  | pilot
  | data
deriving DecidableEq, Repr

/-- A context `ctx[c]` (10_state.md R21): the configuration, what is derived from it, and `VALID`. -/
structure Ctx where
  /-- `VALID`: an instance has been constructed in this context -/
  valid : Bool
  /-- `NSC`, `numSubcarriers` -/
  nsc : Word
  /-- `CPLEN`, `cyclicPrefixLength` -/
  cplen : Word
  /-- `PEVERY`, `pilotSubcarrierEvery`; 0 disables pilots -/
  pevery : Word
  /-- `ORDER`, the modulation order as `bitsPerSymbol` -/
  order : BitVec 8
  /-- `XSEL`: 0 = the default provider, 1 = the external one -/
  xsel : BitVec 1
  /-- `BPS`, `bitsPerSymbol` -/
  bps : BitVec 8
  /-- `SYMLEN`, `symbolLength` -/
  symlen : Word
  /-- `NPILOT`, the number of Pilot subcarriers -/
  npilot : Word
  /-- `NDATA`, the number of Data subcarriers -/
  ndata : Word
  /-- `CAPBITS`, `dataCapacityBits` -/
  capbits : Word
  /-- `ROLE[0 .. NSC)` (10_state.md R25; log entry 22) -/
  roles : List Role
deriving DecidableEq, Repr

/-- A context after reset: `VALID` = 0, "every other field … unspecified; never read while `VALID` = 0"
(10_state.md R30). The zeros are a DESIGN CHOICE (log entry 3). -/
def Ctx.reset : Ctx where
  valid := false
  nsc := 0
  cplen := 0
  pevery := 0
  order := 0
  xsel := 0
  bps := 0
  symlen := 0
  npilot := 0
  ndata := 0
  capbits := 0
  roles := []

/-- The engine state: "exactly `(ctx[0], ctx[1])`" (10_state.md R31). -/
structure EngineState where
  ctx0 : Ctx
  ctx1 : Ctx
deriving DecidableEq, Repr

/-- The contents of one buffer space as (index, element) pairs in canonical form: indices strictly
rising, no element equal to what an unlisted index reads as (log entries 4 and 5). -/
abbrev Cells (α : Type) := List (Nat × α)

/-- The four buffer spaces (20_memory.md R50). -/
structure Memory where
  /-- `BI`, bits, host to engine -/
  bi : Cells Bool
  /-- `BO`, bits, engine to host -/
  bo : Cells Bool
  /-- `SI`, samples, host to engine -/
  si : Cells Sample
  /-- `SO`, samples, engine to host -/
  so : Cells Sample
deriving DecidableEq, Repr

/-- A buffer space of bits. -/
inductive BitSpace where
  | bi
  | bo
deriving DecidableEq, Repr

/-- A buffer space of samples. -/
inductive SampleSpace where
  | si
  | so
deriving DecidableEq, Repr

/-- A response `resp[39:0] = STATUS ‖ VALUE` (30_encoding.md R83). -/
structure Response where
  status : BitVec 8
  value : Word
deriving DecidableEq, Repr

/-- The error kinds a command can end with (60_exceptions.md R230). -/
inductive EngineError where
  /-- 60_exceptions.md R231; also written `InvalidConfiguration` (90_conflicts.md C1) -/
  | configurationError
  /-- 60_exceptions.md R232 -/
  | bufferSizeMismatch
  /-- 60_exceptions.md R233 -/
  | invalidBitGroupLength
  /-- 60_exceptions.md R234 -/
  | notConstructed
  /-- 60_exceptions.md R235 -/
  | illegalCommand
deriving DecidableEq, Repr

/-- A move of the host between two commands (30_encoding.md R91, 70_reset_and_hazards.md R272). -/
inductive HostMove where
  /-- issue a packet at the command port (30_encoding.md R83) -/
  | issue (p : Packet)
  /-- `.bits`: write bits from an index on; the host may write any space (20_memory.md R51) -/
  | bits (space : BitSpace) (start : Nat) (vs : List Bool)
  /-- `.samples`: write samples from an index on -/
  | samples (space : SampleSpace) (start : Nat) (vs : List Sample)
  /-- `.fill S, n, v` of a bit space -/
  | fillBits (space : BitSpace) (n : Nat) (v : Bool)
  /-- `.fill S, n, v` of a sample space -/
  | fillSamples (space : SampleSpace) (n : Nat) (v : Sample)
  /-- `.channel ideal`: copy `SO[0..n)` to `SI[0..n)` -/
  | channelIdeal
  /-- `.channel gain h`: write `cmul(h, SO[i])` to `SI[i]` -/
  | channelGain (h : Sample)
  /-- `.loopbits`: copy `BO[0..n)` to `BI[0..n)` -/
  | loopBits
  /-- reset the engine between two commands (70_reset_and_hazards.md R260, R261) -/
  | reset
deriving DecidableEq, Repr

/-- The machine: engine, buffers, ports and host (00_scope.md R18; log entry 1). -/
structure State where
  /-- the engine state, and all of it (10_state.md R31) -/
  engine : EngineState
  /-- the buffer spaces, owned by the host (20_memory.md R51) -/
  mem : Memory
  /-- the command port: a packet issued and not yet answered (20_memory.md R61, R64) -/
  cmd : Option Packet
  /-- the response port: what the last command answered (30_encoding.md R83; log entry 12) -/
  resp : Option Response
  /-- the host's record of n for `SO` (30_encoding.md R91; log entry 14) -/
  soLen : Nat
  /-- the host's record of n for `BO` (30_encoding.md R91; log entry 14) -/
  boLen : Nat
  /-- the host's next moves, first to last (log entries 1 and 2) -/
  host : List HostMove
deriving DecidableEq, Repr

/-- Why the machine stops. No command stops it: an error is a response (60_exceptions.md R236). -/
inductive Fault where
  /-- Raised by a host move that names a bit at or beyond `BITBUF_CAP`, which does not exist
  (20_memory.md R50). Safe: nothing is claimed of such a move (log entry 13). -/
  | noSuchBit (space : BitSpace) (index : Nat)
  /-- Raised by a host move that names a sample at or beyond `SAMPBUF_CAP`, which does not exist
  (20_memory.md R50). Safe: nothing is claimed of such a move (log entry 13). -/
  | noSuchSample (space : SampleSpace) (index : Nat)
deriving DecidableEq, Repr

/-- Why a command has no meaning in the model. Every command has one, so no step answers this. -/
inductive Refusal where
  /-- Raised by an arm of `exec` whose command has no meaning yet; there is none. Safe: nothing is
  claimed of a refused command. -/
  | notModelled (mnemonic : String)
deriving DecidableEq, Repr

/-- The machine right after reset (10_state.md R30, 70_reset_and_hazards.md R260): both contexts
UNCONFIGURED, no command in progress, no response pending. The buffers list nothing (log entry 4) and
the host has nothing to do yet (log entry 2). -/
def State.reset : State where
  engine := { ctx0 := Ctx.reset, ctx1 := Ctx.reset }
  mem := { bi := [], bo := [], si := [], so := [] }
  cmd := none
  resp := none
  soLen := 0
  boLen := 0
  host := []

end Sys2Proof.Machine
end

