-- ==== Sys2Proof/Machine/Flags.lean ====
section
/-! DEFINITION. The engine has no flags, condition codes or sticky error bits (10_state.md R24). What a
command computes in their place is the STATUS byte of its response (30_encoding.md R83, 60_exceptions.md
R230). -/

namespace Sys2Proof.Machine

/-- The `STATUS` code of an error (60_exceptions.md R230). Success is 0. -/
def EngineError.code : EngineError → BitVec 8
  | .configurationError => 0x01
  | .bufferSizeMismatch => 0x02
  | .invalidBitGroupLength => 0x03
  | .notConstructed => 0x04
  | .illegalCommand => 0x05

/-- The response of a command that ends with an error: its code, and `VALUE` = 0 (30_encoding.md R83). -/
def errorResponse (e : EngineError) : Response := ⟨e.code, 0⟩

/-- The response of a command that succeeds (30_encoding.md R83). -/
def okResponse (value : Word) : Response := ⟨0, value⟩

/-- `resp[39:0] = STATUS ‖ VALUE` (30_encoding.md R83). -/
def Response.bits (r : Response) : BitVec 40 := r.status ++ r.value

end Sys2Proof.Machine
end

