-- ==== Sys2Proof/Config.lean ====
section
/-! DEFINITION. What an implementation fixes and the spec leaves open: the record of the engine's
parameters (00_scope.md R8), and the free values, opaque constants of which nothing can be proved but
what their types say. The defaults of the parameters stand in Machine/Engine.lean. -/

namespace Sys2Proof

/-- The engine's parameters over a scalar type (00_scope.md R8): "Each is a field of the model's
configuration record, never part of the step semantics." Their ranges are `Params.Legal` of
Machine/Exact.lean. The first three are fixed by the spec's decisions, so that the syntax and the decoder
use their numbers: two contexts are one bit of `CTX`, `Word` has 32 bits, `legalOrder` is the orders. -/
structure Params (T : Type) where
  /-- `NCTX`, the number of contexts, 2 -/
  nctx : Nat
  /-- `FIELD_W`, the width of every count field and of `VALUE`, 32 -/
  fieldW : Nat
  /-- `ORDERS`, the supported modulation orders, {4, 16, 64, 256} -/
  orders : List Nat
  /-- `NUM`, the scalar format -/
  num : Num T
  /-- `NSC_MAX`, the largest `numSubcarriers` the engine accepts (46_modulator.md R191) -/
  nscMax : Nat
  /-- `CONST`: `point bps i` is `CONST[2^bps][i]` (10_state.md R26) -/
  point : Nat → Nat → Cx T
  /-- `PILOT_REF` (43_frame_layout.md R144) -/
  pilotRef : Cx T
  /-- `TX_SCALE(N)` (46_modulator.md R197) -/
  txScale : Nat → T
  /-- the default provider `XD` (44_transform_provider.md R165) -/
  xd : Provider T
  /-- the external provider `XP` (44_transform_provider.md R162) -/
  xp : Provider T
  /-- `openDemap bps z` is `some i` where the spec leaves `demap` of `z` open, any point index being
  allowed (93_implementation_defined.md U4), and `none` where R114's scan decides (log entry 9) -/
  openDemap : Nat → Cx T → Option Nat

/-- Free value: entry `k` of what the external provider attached to the port answers to the request
`(DIR, N, x)` (44_transform_provider.md R162; log entry 8). -/
opaque Config.xp : Dir → Nat → List Sample → Nat → Sample

/-- Free value: the sign bit and the 51 payload bits of the quiet NaN that an arithmetic operation on
these operands answers; IEEE 754 fixes neither (00_scope.md R15; log entry 7). -/
opaque Config.nanBits : ArithOp → F64 → F64 → BitVec 52

/-- Free value: which bit group of length `bps` `demap` answers for a sample with a NaN or an infinity
in a part, "some bit group of length `bps`" (93_implementation_defined.md U4; log entry 9). -/
opaque Config.nonFiniteGroup : Nat → Sample → Nat

/-- Free value: what `NUM.div(a, 0)` is in `NUM_EXACT`. Every operation is total (00_scope.md R13), and R15
gives the real numbers with exact operations, which have no quotient by zero (log entry 27). -/
noncomputable opaque Config.exactDivByZero : ℝ → ℝ

end Sys2Proof
end

