-- ==== Sys2Proof/Machine/Float.lean ====
section
/-! DEFINITION. `NUM_F64`: IEEE 754 binary64 with round to nearest, ties to even (00_scope.md R15). Every
operation is computed exactly on natural numbers and rounded once. The unit is 2^−1074, the smallest
subnormal: every finite binary64 is a whole number of units. -/

namespace Sys2Proof

/-- The sign bit. -/
def F64.sign (x : F64) : Bool := x.toNat / 2 ^ 63 == 1

/-- The exponent field, 0 to 2047. -/
def F64.expField (x : F64) : Nat := x.toNat / 2 ^ 52 % 2048

/-- The fraction field, below 2^52. -/
def F64.fraction (x : F64) : Nat := x.toNat % 2 ^ 52

def F64.isNaN (x : F64) : Bool := F64.expField x == 2047 && F64.fraction x != 0

def F64.isInf (x : F64) : Bool := F64.expField x == 2047 && F64.fraction x == 0

def F64.isFinite (x : F64) : Bool := F64.expField x != 2047

/-- The magnitude of a finite value, in units of 2^−1074. -/
def F64.magnitude (x : F64) : Nat :=
  if F64.expField x = 0 then F64.fraction x
  else (2 ^ 52 + F64.fraction x) * 2 ^ (F64.expField x - 1)

/-- The value of a finite value, in units of 2^−1074. -/
def F64.units (x : F64) : Int :=
  if F64.sign x then -(F64.magnitude x : Int) else (F64.magnitude x : Int)

/-- The bit pattern below the sign bit of positive infinity. -/
def F64.infBits : Nat := 2047 * 2 ^ 52

/-- A value from its sign and the 63 bits below it. -/
def F64.pack (neg : Bool) (bits : Nat) : F64 := BitVec.ofNat 64 ((if neg then 2 ^ 63 else 0) + bits)

/-- The 63 bits of the magnitude nearest to `num / den` units, ties to even, infinity on overflow. `k` is
the number of low bits dropped so that 53 significant bits remain; `k · 2^52 + q` is the encoding of
`q · 2^k` units both for normal and subnormal results, and a carry out of `q` moves on to the next binade. -/
def F64.roundBits (num den : Nat) : Nat :=
  let k := (num / den).log2 - 52
  let d := den * 2 ^ k
  let q := num / d
  let r := num % d
  let up := if d < 2 * r ∨ (d = 2 * r ∧ q % 2 = 1) then 1 else 0
  min (k * 2 ^ 52 + (q + up)) F64.infBits

/-- The real number ±`num / den` rounded into the format once; the real zero is +0. This is `F64.ofReal`
on rational arguments. -/
def F64.ofRatio (neg : Bool) (num den : Nat) : F64 :=
  F64.pack (neg && num != 0) (F64.roundBits (num * 2 ^ 1074) den)

open Classical in
/-- `NUM.ofReal`: the real number `x` rounded into the format once, to nearest, ties to even
(00_scope.md R13, R15). The magnitude is taken down to a multiple of 2^−1076, with half a step more when it
is not one: the midpoints between binary64 values are multiples of 2^−1075, so the half step decides the
rounding as `x` does. Zero is +0, overflow is an infinity, and the sign is that of `x` (log entry 7). -/
noncomputable def F64.ofReal (x : ℝ) : F64 :=
  let s := ⌊|x| * 2 ^ 1076⌋₊
  let twice := if (s : ℝ) = |x| * 2 ^ 1076 then 2 * s else 2 * s + 1
  F64.pack (decide (x < 0)) (F64.roundBits twice 8)

/-- `NUM.ofInt` (00_scope.md R13). -/
def F64.ofInt (n : Int) : F64 := F64.ofRatio (n < 0) n.natAbs 1

def F64.zero : F64 := 0#64

def F64.inf (neg : Bool) : F64 := F64.pack neg F64.infBits

/-- The quiet NaN an operation answers, its sign and payload free (log entry 7). -/
def F64.nan (op : ArithOp) (a b : F64) : F64 :=
  let v := (Config.nanBits op a b).toNat
  F64.pack (v / 2 ^ 51 == 1) (F64.infBits + 2 ^ 51 + v % 2 ^ 51)

/-- The sign bit turned over. -/
def F64.negate (x : F64) : F64 := F64.pack (!F64.sign x) (x.toNat % 2 ^ 63)

/-- The sum of two finite values: exact, then rounded once; an exact zero is +0 unless both are −0. -/
def F64.addFinite (a b : F64) : F64 :=
  let s := F64.units a + F64.units b
  if s = 0 then F64.pack (F64.sign a && F64.sign b) 0
  else F64.pack (decide (s < 0)) (F64.roundBits s.natAbs 1)

/-- The sum of two values neither of which is a NaN. -/
def F64.addNumbers (op : ArithOp) (a0 b0 a b : F64) : F64 :=
  if F64.isInf a then
    if F64.isInf b && F64.sign a != F64.sign b then F64.nan op a0 b0 else a
  else if F64.isInf b then b
  else F64.addFinite a b

/-- `NUM.add`. -/
def F64.add (a b : F64) : F64 :=
  if F64.isNaN a || F64.isNaN b then F64.nan .add a b else F64.addNumbers .add a b a b

/-- `NUM.sub`. -/
def F64.sub (a b : F64) : F64 :=
  if F64.isNaN a || F64.isNaN b then F64.nan .sub a b else F64.addNumbers .sub a b a (F64.negate b)

/-- Whether a value that is not a NaN is a zero. -/
def F64.isZero (x : F64) : Bool := x.toNat % 2 ^ 63 == 0

/-- `NUM.mul`. -/
def F64.mul (a b : F64) : F64 :=
  let neg := F64.sign a != F64.sign b
  if F64.isNaN a || F64.isNaN b then F64.nan .mul a b
  else if F64.isInf a || F64.isInf b then
    if F64.isZero a || F64.isZero b then F64.nan .mul a b else F64.inf neg
  else F64.pack neg (F64.roundBits (F64.magnitude a * F64.magnitude b) (2 ^ 1074))

/-- `NUM.div`. -/
def F64.div (a b : F64) : F64 :=
  let neg := F64.sign a != F64.sign b
  if F64.isNaN a || F64.isNaN b then F64.nan .div a b
  else if F64.isInf a then
    if F64.isInf b then F64.nan .div a b else F64.inf neg
  else if F64.isInf b then F64.pack neg 0
  else if F64.isZero b then
    if F64.isZero a then F64.nan .div a b else F64.inf neg
  else F64.pack neg (F64.roundBits (F64.magnitude a * 2 ^ 1074) (F64.magnitude b))

/-- A key that orders the values that are not NaNs; the two zeros share one. -/
def F64.orderKey (x : F64) : Int :=
  if F64.sign x then -((x.toNat % 2 ^ 63 : Nat) : Int) else ((x.toNat % 2 ^ 63 : Nat) : Int)

/-- `NUM.lt`: every comparison with a NaN is false. -/
def F64.lt (a b : F64) : Bool :=
  !F64.isNaN a && !F64.isNaN b && decide (F64.orderKey a < F64.orderKey b)

/-- `NUM.eq`: +0 equals −0, and a NaN equals nothing. -/
def F64.eq (a b : F64) : Bool :=
  !F64.isNaN a && !F64.isNaN b && decide (F64.orderKey a = F64.orderKey b)

/-- `NUM_F64` (00_scope.md R15). -/
def numF64 : Num F64 where
  add := F64.add
  sub := F64.sub
  mul := F64.mul
  div := F64.div
  lt := F64.lt
  eq := F64.eq
  ofInt := F64.ofInt
  ofRealErased := Erased.mk F64.ofReal

/-- Bit by bit, from bit `i − 1` down: the largest `r` with `r² ≤ n` that agrees with `r` above. -/
def isqrtFrom : Nat → Nat → Nat → Nat
  | 0, r, _ => r
  | i + 1, r, n => if (r + 2 ^ i) * (r + 2 ^ i) ≤ n then isqrtFrom i (r + 2 ^ i) n else isqrtFrom i r n

/-- The whole part of the square root. -/
def isqrt (n : Nat) : Nat := isqrtFrom (n.log2 / 2 + 1) 0 n

/-- `NUM.ofReal(sqrt(n))`: the square root to 64 bits after the point, with half a step more when it is
not exact, rounded once. A midpoint between two binary64 values has no more than 64 bits after the point
when `n` ≤ 2^28, so the half step decides the rounding as the true root does. -/
def F64.sqrtNat (n : Nat) : F64 :=
  let s := isqrt (n * 4 ^ 64)
  let twice := if s * s = n * 4 ^ 64 then 2 * s else 2 * s + 1
  F64.ofRatio false twice (2 ^ 65)

end Sys2Proof
end

