-- ==== Sys2Proof/Machine/Constellation.lean ====
section
/-! DEFINITION. The default contents of the constellation ROM (42_constellation_tables.md R130 to R138) and
the bit groups that index it (00_scope.md R11, 41_constellation_mapper.md R112). -/

namespace Sys2Proof

/-- `val(g)`: a bit group read as a number, its first bit most significant (00_scope.md R11). -/
def valOf (g : List Bool) : Nat := g.foldl (fun a b => 2 * a + b.toNat) 0

/-- `bitsOf(n, i)`: the n-bit binary form of `i`, most significant bit first (41_constellation_mapper.md R112). -/
def bitsOf : Nat → Nat → List Bool
  | 0, _ => []
  | n + 1, i => bitsOf n (i / 2) ++ [i % 2 == 1]

/-- `grayDecode(a) = a XOR (a div 2) XOR (a div 4) XOR ...` for an axis code of at most `m` bits
(42_constellation_tables.md R131). -/
def grayDecode : Nat → Nat → Nat
  | 0, a => a
  | m + 1, a => a ^^^ grayDecode m (a / 2)

/-- `level_m(a) = 2 × grayDecode(a) − (2^m − 1)` (42_constellation_tables.md R131). -/
def axisLevel (m a : Nat) : Int := 2 * (grayDecode m a : Int) - (2 ^ m - 1)

/-- The integer levels (I, Q) of point `i` of order 2^bps: the first half of the bits chooses the real
level, the last half the imaginary one (42_constellation_tables.md R130, R131). -/
def pointLevels (bps i : Nat) : Int × Int :=
  let m := bps / 2
  (axisLevel m (i / 2 ^ m % 2 ^ m), axisLevel m (i % 2 ^ m))

/-- The normalization energy `E_M = 2 × (M − 1) / 3` (42_constellation_tables.md R131). -/
def energyOf (bps : Nat) : Nat := 2 * (2 ^ bps - 1) / 3

/-- The binary64 nearest to `L / sqrt(E_M)`, by order and positive level `L`, as the ROM holds it
(42_constellation_tables.md R133). Levels outside the table do not occur. -/
def levelMagnitude (bps : Nat) (level : Nat) : F64 :=
  match bps, level with
  | 2, 1 => 0x3FE6A09E667F3BCD#64
  | 4, 1 => 0x3FD43D136248490F#64
  | 4, 3 => 0x3FEE5B9D136C6D96#64
  | 6, 1 => 0x3FC3C03650E00E03#64
  | 6, 3 => 0x3FDDA05179501504#64
  | 6, 5 => 0x3FE8B043E5181184#64
  | 6, 7 => 0x3FF1482F86C40C43#64
  | 8, 1 => 0x3FB3A261BA6D7A37#64
  | 8, 3 => 0x3FCD739297A43752#64
  | 8, 5 => 0x3FD88AFA2908D8C4#64
  | 8, 7 => 0x3FE12E15831FCAF0#64
  | 8, 9 => 0x3FE616ADF1BB297D#64
  | 8, 11 => 0x3FEAFF466056880B#64
  | 8, 13 => 0x3FEFE7DECEF1E699#64
  | 8, 15 => 0x3FF2683B9EC6A293#64
  | _, _ => 0#64

/-- The scalar of a level: "the negative levels are the same magnitudes with the sign bit set"
(42_constellation_tables.md R133). -/
def levelScalar (bps : Nat) (level : Int) : F64 :=
  if level < 0 then F64.negate (levelMagnitude bps level.natAbs) else levelMagnitude bps level.natAbs

/-- `CONST[2^bps][i]` in `NUM_F64` (42_constellation_tables.md R131, R135 to R138). -/
def defaultPoint (bps i : Nat) : Sample :=
  ⟨levelScalar bps (pointLevels bps i).1, levelScalar bps (pointLevels bps i).2⟩

end Sys2Proof
end

