-- ==== Sys2Proof/Machine/Complex.lean ====
section
/-! DEFINITION. The complex operations, in the order of operations the spec writes (00_scope.md R14), over
any scalar format. -/

namespace Sys2Proof

variable {T : Type}

/-- `NUM.zero = NUM.ofInt(0)` (00_scope.md R13). -/
def Num.zero (K : Num T) : T := K.ofInt 0

/-- `NUM.ofReal`: a real constant rounded into the format (00_scope.md R13). -/
noncomputable def Num.ofReal (K : Num T) (x : ℝ) : T := K.ofRealErased.out x

/-- `CZERO` (00_scope.md R14). -/
def czero (K : Num T) : Cx T := ⟨K.zero, K.zero⟩

/-- `cadd` (00_scope.md R14). -/
def cadd (K : Num T) (a b : Cx T) : Cx T := ⟨K.add a.re b.re, K.add a.im b.im⟩

/-- `csub` (00_scope.md R14). -/
def csub (K : Num T) (a b : Cx T) : Cx T := ⟨K.sub a.re b.re, K.sub a.im b.im⟩

/-- `cmul` (00_scope.md R14). -/
def cmul (K : Num T) (a b : Cx T) : Cx T :=
  ⟨K.sub (K.mul a.re b.re) (K.mul a.im b.im), K.add (K.mul a.re b.im) (K.mul a.im b.re)⟩

/-- `cscale` by a scalar (00_scope.md R14). -/
def cscale (K : Num T) (s : T) (a : Cx T) : Cx T := ⟨K.mul s a.re, K.mul s a.im⟩

/-- `cdiv` (00_scope.md R14). -/
def cdiv (K : Num T) (a b : Cx T) : Cx T :=
  let d := K.add (K.mul b.re b.re) (K.mul b.im b.im)
  ⟨K.div (K.add (K.mul a.re b.re) (K.mul a.im b.im)) d,
   K.div (K.sub (K.mul a.im b.re) (K.mul a.re b.im)) d⟩

/-- `dist2`, the squared distance (00_scope.md R14). -/
def dist2 (K : Num T) (a b : Cx T) : T :=
  let dr := K.sub a.re b.re
  let di := K.sub a.im b.im
  K.add (K.mul dr dr) (K.mul di di)

/-- `iszero`: both parts compare equal to zero (00_scope.md R14, 92_eei_decisions.md D25). -/
def iszero (K : Num T) (a : Cx T) : Bool := K.eq a.re K.zero && K.eq a.im K.zero

end Sys2Proof
end

