-- ==== Sys2Proof/Machine/Twiddle.lean ====
section
/-! DEFINITION. The twiddle factors of the default provider in `NUM_F64`: cos and sin of 2πm/N, computed in
fixed point with 192 bits after the point and rounded once (44_transform_provider.md R166; log entry 10). -/

namespace Sys2Proof

/-- One, in fixed point with 192 bits after the point. -/
def fixOne : Nat := 2 ^ 192

/-- π in fixed point, rounded down. -/
def fixPi : Nat := 0x3243f6a8885a308d313198a2e03707344a4093822299f31d0

/-- The alternating series t − t·x²/(k(k+1)) + t·x⁴/(k(k+1)(k+2)(k+3)) − …, `n` terms. -/
def alternating : Nat → Nat → Nat → Nat → Nat
  | 0, _, _, _ => 0
  | n + 1, k, t, x2 => t - alternating n (k + 2) (t * x2 / (fixOne * (k * (k + 1)))) x2

/-- sin x for 0 ≤ x ≤ π/4. -/
def fixSin (x : Nat) : Nat := alternating 24 2 x (x * x / fixOne)

/-- cos x for 0 ≤ x ≤ π/4. -/
def fixCos (x : Nat) : Nat := alternating 24 1 fixOne (x * x / fixOne)

/-- (cos, sin) of `(r / N) · π/2` for 0 ≤ r ≤ N, taking the angle or its complement, whichever is at most π/4. -/
def quarterCosSin (N r : Nat) : Nat × Nat :=
  if 2 * r ≤ N then
    (fixCos (fixPi * r / (2 * N)), fixSin (fixPi * r / (2 * N)))
  else
    (fixSin (fixPi * (N - r) / (2 * N)), fixCos (fixPi * (N - r) / (2 * N)))

/-- `NUM.ofReal` of ± a fixed-point number. -/
def fixRound (neg : Bool) (x : Nat) : F64 := F64.ofRatio neg x fixOne

/-- `TW[m] = (cos(2πm/N), −sin(2πm/N))`, each part rounded once, for 0 ≤ m < N (44_transform_provider.md R166). -/
def twiddle (N m : Nat) : Sample :=
  let cs := quarterCosSin N (4 * m % N)
  match 4 * m / N with
  | 0 => ⟨fixRound false cs.1, fixRound true cs.2⟩
  | 1 => ⟨fixRound true cs.2, fixRound true cs.1⟩
  | 2 => ⟨fixRound true cs.1, fixRound false cs.2⟩
  | _ => ⟨fixRound false cs.2, fixRound false cs.1⟩

end Sys2Proof
end

