-- ==== Sys2Proof/Machine/Transform.lean ====
section
/-! DEFINITION. The provider port's call and the default provider: the direct sum in ascending order of the
summation index, over any scalar format and twiddle table (44_transform_provider.md R160, R165, R166). -/

namespace Sys2Proof

variable {T : Type}

/-- The one-bit code of a direction on the port: 0 = forward, 1 = inverse (44_transform_provider.md R160). -/
def Dir.code : Dir → BitVec 1
  | .forward => 0
  | .inverse => 1

/-- The request `(dir, N, x)` with N = len(x), and its answer of N samples (44_transform_provider.md R160). -/
def askProvider (p : Provider T) (dir : Dir) (x : List (Cx T)) : List (Cx T) :=
  (List.range x.length).map (p dir x.length x)

/-- The direct sum `Σ x[n] × tw((k × n) mod N)`, ascending, from `CZERO`, each product by `cmul` and each
partial sum by `cadd`; `n` is the index of the head of the list (44_transform_provider.md R166). -/
def directSum (K : Num T) (tw : Nat → Cx T) (N k : Nat) : Nat → Cx T → List (Cx T) → Cx T
  | _, acc, [] => acc
  | n, acc, z :: zs => directSum K tw N k (n + 1) (cadd K acc (cmul K z (tw (k * n % N)))) zs

/-- The complex conjugate: the imaginary part subtracted from zero, since `NUM` has no negation
(44_transform_provider.md R166; log entry 10). -/
def conjugate (K : Num T) (z : Cx T) : Cx T := ⟨z.re, K.sub K.zero z.im⟩

/-- The default provider `XD` from its twiddle table `tw N m` = e^(−2πjm/N): forward unscaled, inverse with
the conjugate factors and the factor 1/N applied last (44_transform_provider.md R165, R166). -/
def directProvider (K : Num T) (tw : Nat → Nat → Cx T) : Provider T
  | .forward, N, x, k => directSum K (tw N) N k 0 (czero K) x
  | .inverse, N, x, k =>
    cscale K (K.div (K.ofInt 1) (K.ofInt N))
      (directSum K (fun m => conjugate K (tw N m)) N k 0 (czero K) x)

end Sys2Proof
end

