-- ==== Sys2Proof/Machine/Engine.lean ====
section
/-! DEFINITION. The engine's parameters at the defaults the spec gives them (00_scope.md R8; log entry 6). -/

namespace Sys2Proof

/-- A sample with a NaN or an infinity in a part: which bit group `demap` answers is a free value
(93_implementation_defined.md U4; log entry 9). -/
def openGroup (bps : Nat) (z : Sample) : Option Nat :=
  if F64.isFinite z.re && F64.isFinite z.im then none
  else some (Config.nonFiniteGroup bps z % 2 ^ bps)

/-- The engine `exec` and `step` run: the default of every open parameter, with the external provider
opaque. `execWith` and `stepWith` of Machine/Command.lean and Machine/Step.lean take any other. -/
def engineParams : Params F64 where
  nctx := 2
  fieldW := 32
  orders := [4, 16, 64, 256]
  num := numF64
  nscMax := 4096
  point := defaultPoint
  pilotRef := ⟨F64.ofInt 1, F64.ofInt 0⟩
  txScale := F64.sqrtNat
  xd := directProvider numF64 twiddle
  xp := Config.xp
  openDemap := openGroup

variable {T : Type}

/-- `RX_SCALE(N) = NUM.div(NUM.ofInt(1), TX_SCALE(N))` (47_demodulator.md R211). -/
def Params.rxScale (P : Params T) (N : Nat) : T := P.num.div (P.num.ofInt 1) (P.txScale N)

/-- `BITBUF_CAP` = 8 × (NSC_MAX − 2) (20_memory.md R50). -/
def Params.bitbufCap (P : Params T) : Nat := 8 * (P.nscMax - 2)

/-- `SAMPBUF_CAP` = 2 × NSC_MAX − 1 (20_memory.md R50). -/
def Params.sampbufCap (P : Params T) : Nat := 2 * P.nscMax - 1

end Sys2Proof
end

