-- ==== Sys2Proof/WellFormed.lean ====
section
/-! DEFINITION. Which commands are well formed. Every field of a command takes every value of its width
but `ORDER`, which is one of 2, 4, 6, 8 (30_encoding.md R84, R88). -/

namespace Sys2Proof

/-- `ORDER` ∈ {2, 4, 6, 8} (30_encoding.md R88): the four modulation orders 4, 16, 64, 256. -/
def legalOrder (order : BitVec 8) : Bool :=
  order == 2#8 || order == 4#8 || order == 6#8 || order == 8#8

/-- The one check: a command of format K or M names a legal order. -/
def Instr.wellFormed : Instr → Bool
  | .construct _ _ order _ _ _ => legalOrder order
  | .map order _ => legalOrder order
  | .demap order => legalOrder order
  | .getsymlen _ => true
  | .getcap _ => true
  | .modulate _ _ _ => true
  | .demodulate _ _ => true
  | .b2f _ _ => true
  | .f2b _ _ => true
  | .xfwd _ _ => true
  | .xinv _ _ => true
  | .cpadd _ _ => true
  | .cpstrip _ _ => true

end Sys2Proof
end

