-- ==== Sys2Proof/Machine/Operands.lean ====
section
/-! DEFINITION. The operand forms of the commands: the context a `CTX` field names, the fields of a context
read as numbers, the lengths a command requires and writes (20_memory.md R53), and the provider its
context selects (44_transform_provider.md R161). -/

namespace Sys2Proof.Machine

/-- `ctx[CTX]` (30_encoding.md R84). -/
def EngineState.ctx (e : EngineState) (c : BitVec 1) : Ctx := if c = 0#1 then e.ctx0 else e.ctx1

/-- `ctx[CTX] <- record`: every field at once (00_scope.md R16). -/
def EngineState.setCtx (e : EngineState) (c : BitVec 1) (k : Ctx) : EngineState :=
  if c = 0#1 then { e with ctx0 := k } else { e with ctx1 := k }

/-- N, the number of subcarriers of a context. -/
def Ctx.n (k : Ctx) : Nat := k.nsc.toNat

/-- CP, the length of the cyclic prefix of a context. -/
def Ctx.cp (k : Ctx) : Nat := k.cplen.toNat

/-- bps of a context: its order is M = 2^bps. -/
def Ctx.bits (k : Ctx) : Nat := k.bps.toNat

variable {T : Type}

/-- `Prov(c)`: the default provider when `XSEL` = 0, the external one when `XSEL` = 1
(44_transform_provider.md R161). -/
def providerOf (P : Params T) (k : Ctx) : Provider T := if k.xsel = 0#1 then P.xd else P.xp

/-- The `LEN_IN` a command that has the field must carry (20_memory.md R53). For MAP it is the
`bitsPerSymbol` of the command's own order. -/
def requiredLenIn (i : Instr) (e : EngineState) : Option Word :=
  match i with
  | .construct _ _ _ _ _ _ => none
  | .getsymlen _ => none
  | .getcap _ => none
  | .modulate c _ _ => some (e.ctx c).capbits
  | .demodulate c _ => some (e.ctx c).symlen
  | .map order _ => some (order.setWidth 32)
  | .demap _ => none
  | .b2f c _ => some (e.ctx c).capbits
  | .f2b c _ => some (e.ctx c).nsc
  | .xfwd c _ => some (e.ctx c).nsc
  | .xinv c _ => some (e.ctx c).nsc
  | .cpadd c _ => some (e.ctx c).nsc
  | .cpstrip c _ => some (e.ctx c).symlen

/-- How many samples a command that succeeds writes to `SO` (20_memory.md R53). -/
def samplesWritten (i : Instr) (e : EngineState) : Nat :=
  match i with
  | .construct _ _ _ _ _ _ => 0
  | .getsymlen _ => 0
  | .getcap _ => 0
  | .modulate c _ _ => (e.ctx c).symlen.toNat
  | .demodulate _ _ => 0
  | .map _ _ => 1
  | .demap _ => 0
  | .b2f c _ => (e.ctx c).n
  | .f2b _ _ => 0
  | .xfwd c _ => (e.ctx c).n
  | .xinv c _ => (e.ctx c).n
  | .cpadd c _ => (e.ctx c).symlen.toNat
  | .cpstrip c _ => (e.ctx c).n

/-- How many bits a command that succeeds writes to `BO` (20_memory.md R53). -/
def bitsWritten (i : Instr) (e : EngineState) : Nat :=
  match i with
  | .construct _ _ _ _ _ _ => 0
  | .getsymlen _ => 0
  | .getcap _ => 0
  | .modulate _ _ _ => 0
  | .demodulate c _ => (e.ctx c).capbits.toNat
  | .map _ _ => 0
  | .demap order => order.toNat
  | .b2f _ _ => 0
  | .f2b c _ => (e.ctx c).capbits.toNat
  | .xfwd _ _ => 0
  | .xinv _ _ => 0
  | .cpadd _ _ => 0
  | .cpstrip _ _ => 0

/-- The commands that reach `SO` (20_memory.md R50). -/
def writesSO : Instr → Bool
  | .construct _ _ _ _ _ _ => false
  | .getsymlen _ => false
  | .getcap _ => false
  | .modulate _ _ _ => true
  | .demodulate _ _ => false
  | .map _ _ => true
  | .demap _ => false
  | .b2f _ _ => true
  | .f2b _ _ => false
  | .xfwd _ _ => true
  | .xinv _ _ => true
  | .cpadd _ _ => true
  | .cpstrip _ _ => true

/-- The commands that reach `BO` (20_memory.md R50). -/
def writesBO : Instr → Bool
  | .construct _ _ _ _ _ _ => false
  | .getsymlen _ => false
  | .getcap _ => false
  | .modulate _ _ _ => false
  | .demodulate _ _ => true
  | .map _ _ => false
  | .demap _ => true
  | .b2f _ _ => false
  | .f2b _ _ => true
  | .xfwd _ _ => false
  | .xinv _ _ => false
  | .cpadd _ _ => false
  | .cpstrip _ _ => false

/-- The context a command names, if its format has the field `CTX` and it is not CONSTRUCT: the commands
that can answer `NotConstructed` (60_exceptions.md R234). -/
def usedContext : Instr → Option (BitVec 1)
  | .construct _ _ _ _ _ _ => none
  | .getsymlen c => some c
  | .getcap c => some c
  | .modulate c _ _ => some c
  | .demodulate c _ => some c
  | .map _ _ => none
  | .demap _ => none
  | .b2f c _ => some c
  | .f2b c _ => some c
  | .xfwd c _ => some c
  | .xinv c _ => some c
  | .cpadd c _ => some c
  | .cpstrip c _ => some c

end Sys2Proof.Machine
end

