-- ==== Sys2Proof/Machine/Ops.lean ====
section
/-! DEFINITION. The named operations over the buffer spaces, the contexts and the response port, and what a
command is given and does. Ending a command with an error is ONE operation, `raiseError` (60_exceptions.md
R236); there is nothing to return from (R238). -/

namespace Sys2Proof.Machine

variable {α : Type}

/-- What a bit that nothing has written reads as (log entry 4). -/
def blankBit : Bool := false

/-- What a sample that nothing has written reads as (log entry 4). -/
def blankSample : Sample := ⟨F64.zero, F64.zero⟩

/-- The element at an index, `blank` where none is listed. -/
def readCell (blank : α) : Cells α → Nat → α
  | [], _ => blank
  | (j, v) :: rest, i => if j = i then v else readCell blank rest i

/-- `MemRead(S, i, n)`: the n elements `S[i], …, S[i+n−1]` (00_scope.md R16). -/
def readRun (blank : α) (m : Cells α) (i n : Nat) : List α :=
  (List.range n).map (fun k => readCell blank m (i + k))

/-- The elements of a sequence as cells from an index on, less those that equal `blank`. -/
def cellsOf [DecidableEq α] (blank : α) : Nat → List α → Cells α
  | _, [] => []
  | i, v :: vs => if v = blank then cellsOf blank (i + 1) vs else (i, v) :: cellsOf blank (i + 1) vs

/-- `MemWrite(S, i, n, v)`: writes the elements of `v` to `S[i .. i + n)` and no other (00_scope.md R16). -/
def writeRun [DecidableEq α] (blank : α) (i : Nat) (vs : List α) (m : Cells α) : Cells α :=
  m.filter (fun c => c.1 < i) ++ cellsOf blank i vs ++ m.filter (fun c => i + vs.length ≤ c.1)

/-- The canonical form from an index on: indices strictly rise from `low`, stay below `cap`, and no cell
holds `blank`. -/
def cellsWf [DecidableEq α] (blank : α) (cap : Nat) : Nat → Cells α → Bool
  | _, [] => true
  | low, (j, v) :: rest =>
    decide (low ≤ j) && decide (j < cap) && decide (v ≠ blank) && cellsWf blank cap (j + 1) rest

/-- The buffers are in canonical form and within the capacities of 20_memory.md R50 that the parameters
give. -/
def Memory.wfFor {T : Type} (P : Params T) (m : Memory) : Bool :=
  cellsWf blankBit P.bitbufCap 0 m.bi && cellsWf blankBit P.bitbufCap 0 m.bo
    && cellsWf blankSample P.sampbufCap 0 m.si && cellsWf blankSample P.sampbufCap 0 m.so

/-- The same at the default parameters. -/
def Memory.wf (m : Memory) : Bool := m.wfFor engineParams

/-- Bit `i` of a bit space. -/
def Memory.bit (m : Memory) : BitSpace → Nat → Bool
  | .bi, i => readCell blankBit m.bi i
  | .bo, i => readCell blankBit m.bo i

/-- Sample `i` of a sample space. -/
def Memory.sample (m : Memory) : SampleSpace → Nat → Sample
  | .si, i => readCell blankSample m.si i
  | .so, i => readCell blankSample m.so i

/-- The host's or the engine's write of bits to a space. -/
def Memory.writeBits (m : Memory) (space : BitSpace) (i : Nat) (vs : List Bool) : Memory :=
  match space with
  | .bi => { m with bi := writeRun blankBit i vs m.bi }
  | .bo => { m with bo := writeRun blankBit i vs m.bo }

/-- The host's or the engine's write of samples to a space. -/
def Memory.writeSamples (m : Memory) (space : SampleSpace) (i : Nat) (vs : List Sample) : Memory :=
  match space with
  | .si => { m with si := writeRun blankSample i vs m.si }
  | .so => { m with so := writeRun blankSample i vs m.so }

/-- `MemWrite(BO, 0, n, v)`; the host records n (30_encoding.md R91). -/
def writeBO (vs : List Bool) (s : State) : State :=
  { s with mem := s.mem.writeBits .bo 0 vs, boLen := vs.length }

/-- `MemWrite(SO, 0, n, v)`; the host records n (30_encoding.md R91). -/
def writeSO (vs : List Sample) (s : State) : State :=
  { s with mem := s.mem.writeSamples .so 0 vs, soLen := vs.length }

/-- `respond(v)`: the command ends successfully with `VALUE = v` (00_scope.md R16). -/
def respond (value : Word) (s : State) : State := { s with resp := some (okResponse value) }

/-- `raise E`: the command ends at this point with E's response, and nothing else changes
(60_exceptions.md R236). -/
def raiseError (e : EngineError) (s : State) : State := { s with resp := some (errorResponse e) }

/-- `ctx[c] <- k` in the machine. -/
def setCtx (c : BitVec 1) (k : Ctx) (s : State) : State := { s with engine := s.engine.setCtx c k }

/-! ### What a command is given and what it does, over any scalar type -/

/-- The input spaces `BI` and `SI` as a command finds them, element by element. This is what a command may
see of the buffers (20_memory.md R50, R52); no state holds it. -/
structure Inputs (T : Type) where
  bit : Nat → Bool
  sample : Nat → Cx T

/-- `MemRead(BI, 0, n)` (00_scope.md R16). -/
def Inputs.bits {T : Type} (inp : Inputs T) (n : Nat) : List Bool := (List.range n).map inp.bit

/-- `MemRead(SI, 0, n)` (00_scope.md R16). -/
def Inputs.samples {T : Type} (inp : Inputs T) (n : Nat) : List (Cx T) := (List.range n).map inp.sample

/-- What the machine's buffers give a command. -/
def State.inputs (s : State) : Inputs F64 := ⟨s.mem.bit .bi, s.mem.sample .si⟩

/-- What one command does to the engine state, the output spaces and the response port (00_scope.md R18):
the right side of `EngineState × Buffers × Command -> EngineState × Buffers × Response`, by how it ends. -/
inductive Effect (T : Type) where
  /-- `raise E` -/
  | fail (e : EngineError)
  /-- `respond(v)` alone -/
  | answer (v : Word)
  /-- `ctx[c] <- k`, then `respond(0)` -/
  | context (c : BitVec 1) (k : Ctx)
  /-- `MemWrite(BO, 0, len(vs), vs)`, then `respond(v)` -/
  | bits (v : Word) (vs : List Bool)
  /-- `MemWrite(SO, 0, len(vs), vs)`, then `respond(v)` -/
  | samples (v : Word) (vs : List (Cx T))
deriving DecidableEq, Repr

/-- A command's effect carried out on the machine. -/
def deliver (f : Effect F64) (s : State) : State :=
  match f with
  | .fail e => raiseError e s
  | .answer v => respond v s
  | .context c k => respond 0 (setCtx c k s)
  | .bits v vs => respond v (writeBO vs s)
  | .samples v vs => respond v (writeSO vs s)

/-- The check every command on a context makes first: `NotConstructed` when `VALID` = 0
(60_exceptions.md R234, R244); else the rest of the command, given the context. -/
def withContext {T : Type} (c : BitVec 1) (e : EngineState) (body : Ctx → Effect T) : Effect T :=
  if (e.ctx c).valid then body (e.ctx c) else .fail .notConstructed

/-- The length check of a command: `BufferSizeMismatch` before anything is read or written
(60_exceptions.md R232, R237); else the rest of the command. -/
def withLength {T : Type} (ok : Bool) (body : Effect T) : Effect T :=
  if ok then body else .fail .bufferSizeMismatch

end Sys2Proof.Machine
end

