-- ==== Sys2Proof/Machine/CyclicPrefix.lean ====
section
/-! DEFINITION. The cyclic-prefix handler: `prepend`, `strip`, and the commands CPADD and CPSTRIP
(45_cyclic_prefix.md). No scalar operation is applied to any sample. -/

namespace Sys2Proof.Machine

variable {α : Type}

/-- `prepend(x, L)`: the last L samples, then all of them (45_cyclic_prefix.md R180). For L > len(x) the rule
leaves the function undefined and the engine never calls it; that it is then `x ++ x` is the model's choice
(DESIGN CHOICE, log entry 25). -/
def prepend (x : List α) (L : Nat) : List α := x.drop (x.length - L) ++ x

/-- `strip(y, L)`: all but the first L samples (45_cyclic_prefix.md R181). For L > len(y), which the rule does
not define and the engine never calls, it is empty (DESIGN CHOICE, log entry 25). -/
def strip (y : List α) (L : Nat) : List α := y.drop L

/-- CPADD (45_cyclic_prefix.md R182). -/
def cpaddCmd {T : Type} (c : BitVec 1) (lenIn : Word) (e : EngineState) (inp : Inputs T) : Effect T :=
  withContext c e fun k =>
    withLength (lenIn == k.nsc) (.samples (k.nsc + k.cplen) (prepend (inp.samples k.n) k.cp))

/-- CPSTRIP (45_cyclic_prefix.md R183). -/
def cpstripCmd {T : Type} (c : BitVec 1) (lenIn : Word) (e : EngineState) (inp : Inputs T) : Effect T :=
  withContext c e fun k =>
    withLength (lenIn == k.symlen) (.samples k.nsc (strip (inp.samples (k.n + k.cp)) k.cp))

/-- The meaning of CPADD. -/
def execCpadd (c : BitVec 1) (lenIn : Word) (s : State) : Host.Outcome State Fault Refusal :=
  .next (deliver (cpaddCmd c lenIn s.engine s.inputs) s)

/-- The meaning of CPSTRIP. -/
def execCpstrip (c : BitVec 1) (lenIn : Word) (s : State) : Host.Outcome State Fault Refusal :=
  .next (deliver (cpstripCmd c lenIn s.engine s.inputs) s)

end Sys2Proof.Machine
end

