-- ==== Sys2Proof/Machine/Mapper.lean ====
section
/-! DEFINITION. The constellation mapper: `map`, `demap`, and the commands MAP and DEMAP
(41_constellation_mapper.md). -/

namespace Sys2Proof.Machine

variable {T : Type}

/-- `map(M, g)`: the point of a bit group of exactly `bps` bits (41_constellation_mapper.md R113). -/
def mapGroup (P : Params T) (bps : Nat) (g : List Bool) : Except EngineError (Cx T) :=
  if g.length ≠ bps then .error .invalidBitGroupLength else .ok (P.point bps (valOf g))

/-- The scan of R114 from index `i` on, `n` points left: `best` stays unless the squared distance is
strictly less. -/
def demapScan (K : Num T) (point : Nat → Cx T) (z : Cx T) : Nat → Nat → Nat → T → Nat
  | 0, _, best, _ => best
  | n + 1, i, best, dbest =>
    if K.lt (dist2 K z (point i)) dbest then demapScan K point z n (i + 1) i (dist2 K z (point i))
    else demapScan K point z n (i + 1) best dbest

/-- `demapIdx(M, z)` (41_constellation_mapper.md R114), except where the spec leaves the bit group open
(93_implementation_defined.md U4). -/
def demapIdx (P : Params T) (bps : Nat) (z : Cx T) : Nat :=
  match P.openDemap bps z with
  | some i => i
  | none => demapScan P.num (P.point bps) z (2 ^ bps - 1) 1 0 (dist2 P.num z (P.point bps 0))

/-- `demap(M, z) = bitsOf(log2(M), demapIdx(M, z))` (41_constellation_mapper.md R114). -/
def demapBits (P : Params T) (bps : Nat) (z : Cx T) : List Bool := bitsOf bps (demapIdx P bps z)

/-- MAP (41_constellation_mapper.md R113). The length is checked before `BI` is read. -/
def mapCmd (P : Params T) (order : BitVec 8) (lenIn : Word) (inp : Inputs T) : Effect T :=
  if !legalOrder order then .fail .illegalCommand
  else if lenIn.toNat ≠ order.toNat then .fail .invalidBitGroupLength
  else match mapGroup P order.toNat (inp.bits order.toNat) with
    | .error e => .fail e
    | .ok z => .samples 1 [z]

/-- DEMAP (41_constellation_mapper.md R115): only `SI[0]` is read. -/
def demapCmd (P : Params T) (order : BitVec 8) (inp : Inputs T) : Effect T :=
  if !legalOrder order then .fail .illegalCommand
  else .bits (order.setWidth 32) (demapBits P order.toNat (inp.sample 0))

/-- The meaning of MAP. -/
def execMap (order : BitVec 8) (lenIn : Word) (s : State) : Host.Outcome State Fault Refusal :=
  .next (deliver (mapCmd engineParams order lenIn s.inputs) s)

/-- The meaning of DEMAP. -/
def execDemap (order : BitVec 8) (s : State) : Host.Outcome State Fault Refusal :=
  .next (deliver (demapCmd engineParams order s.inputs) s)

end Sys2Proof.Machine
end

