-- ==== Sys2Proof/Machine/Layout.lean ====
section
/-! DEFINITION. The subcarrier frame layout: `computeRoles`, building and parsing a frequency-domain
vector, and the commands B2F and F2B (43_frame_layout.md). -/

namespace Sys2Proof.Machine

variable {T : Type}

/-- `computeRoles(N, P)[k]` (43_frame_layout.md R140, for N ≥ 4; below it, where no command computes it,
log entry 25). -/
def computeRole (N P k : Nat) : Role :=
  if k = 0 ∨ k = N - 1 then .guard else if 0 < P ∧ k % P = 0 then .pilot else .data

/-- `computeRoles(N, P)` (43_frame_layout.md R140). -/
def computeRoles (N P : Nat) : List Role := (List.range N).map (computeRole N P)

/-- The indices that have a role, ascending; `k` is the index of the head of the list
(43_frame_layout.md R141). -/
def roleIndices (r : Role) : Nat → List Role → List Nat
  | _, [] => []
  | k, x :: xs => if x = r then k :: roleIndices r (k + 1) xs else roleIndices r (k + 1) xs

/-- The Data indices `d_0 < d_1 < …` of a role table. -/
def dataIndices (roles : List Role) : List Nat := roleIndices .data 0 roles

/-- The Pilot indices `p_0 < p_1 < …` of a role table. -/
def pilotIndices (roles : List Role) : List Nat := roleIndices .pilot 0 roles

/-- The loop of `bitsToFreq`: the entry of each role in turn, a Data entry taking the next `bps` bits. -/
def fillRoles (P : Params T) (bps : Nat) : List Role → List Bool → Except EngineError (List (Cx T))
  | [], _ => .ok []
  | .guard :: rs, b => (fillRoles P bps rs b).map (czero P.num :: ·)
  | .pilot :: rs, b => (fillRoles P bps rs b).map (P.pilotRef :: ·)
  | .data :: rs, b =>
    match mapGroup P bps (b.take bps) with
    | .error e => .error e
    | .ok z => (fillRoles P bps rs (b.drop bps)).map (z :: ·)

/-- `bitsToFreq(c, b)` (43_frame_layout.md R145). -/
def bitsToFreq (P : Params T) (k : Ctx) (b : List Bool) : Except EngineError (List (Cx T)) :=
  if b.length ≠ k.capbits.toNat then .error .bufferSizeMismatch else fillRoles P k.bits k.roles b

/-- Entry `d` of a vector; `CZERO` beyond its end, which no command reads (log entry 25). -/
def entryAt (P : Params T) (V : List (Cx T)) (d : Nat) : Cx T := V.getD d (czero P.num)

/-- `demap` of each sample in turn, the bit groups concatenated (43_frame_layout.md R147, 47_demodulator.md
R217). -/
def demapAll (P : Params T) (bps : Nat) (Y : List (Cx T)) : List Bool := Y.flatMap (demapBits P bps)

/-- `freqToBits(c, V)` (43_frame_layout.md R147). -/
def freqToBits (P : Params T) (k : Ctx) (V : List (Cx T)) : List Bool :=
  demapAll P k.bits ((dataIndices k.roles).map (entryAt P V))

/-- B2F (43_frame_layout.md R145). -/
def b2fCmd (P : Params T) (c : BitVec 1) (lenIn : Word) (e : EngineState) (inp : Inputs T) : Effect T :=
  withContext c e fun k =>
    withLength (lenIn == k.capbits)
      (match bitsToFreq P k (inp.bits k.capbits.toNat) with
       | .error e => .fail e
       | .ok V => .samples k.nsc V)

/-- F2B (43_frame_layout.md R147). -/
def f2bCmd (P : Params T) (c : BitVec 1) (lenIn : Word) (e : EngineState) (inp : Inputs T) : Effect T :=
  withContext c e fun k =>
    withLength (lenIn == k.nsc) (.bits k.capbits (freqToBits P k (inp.samples k.n)))

/-- The meaning of B2F. -/
def execB2f (c : BitVec 1) (lenIn : Word) (s : State) : Host.Outcome State Fault Refusal :=
  .next (deliver (b2fCmd engineParams c lenIn s.engine s.inputs) s)

/-- The meaning of F2B. -/
def execF2b (c : BitVec 1) (lenIn : Word) (s : State) : Host.Outcome State Fault Refusal :=
  .next (deliver (f2bCmd engineParams c lenIn s.engine s.inputs) s)

end Sys2Proof.Machine
end

