-- ==== Sys2Proof/Machine/Demodulator.lean ====
section
/-! DEFINITION. The OFDM demodulator: prefix removal, forward transform, pilot-based nearest-pilot-hold
estimation, single-tap equalization, demapping, and the command DEMODULATE (47_demodulator.md). -/

namespace Sys2Proof.Machine

variable {T : Type}

/-- `|a − b|` of naturals (00_scope.md R10). -/
def absDiff (a b : Nat) : Nat := (a - b) + (b - a)

/-- The scan of R214: the position in the list is `i`, the nearest pilot so far is `pbest` at `best`. -/
def nearestFrom (d : Nat) : Nat → Nat → Nat → List Nat → Nat
  | _, best, _, [] => best
  | i, best, pbest, p :: ps =>
    if absDiff d p < absDiff d pbest then nearestFrom d (i + 1) i p ps
    else nearestFrom d (i + 1) best pbest ps

/-- `nearestPilot(c, d)`: the position in the pilot list of the pilot index nearest to `d`, ties to the
lower index (47_demodulator.md R214, which requires a pilot; without one, where no command asks, log
entry 25). -/
def nearestPilot (pilots : List Nat) (d : Nat) : Nat :=
  match pilots with
  | [] => 0
  | p :: ps => nearestFrom d 1 0 p ps

/-- Step 3: the gain of each pilot index (47_demodulator.md R212). -/
def pilotGains (P : Params T) (pilots : List Nat) (F2 : List (Cx T)) : List (Cx T) :=
  pilots.map fun p => cdiv P.num (entryAt P F2 p) P.pilotRef

/-- Step 6 of one Data entry: `received` itself when the gain is exactly zero (47_demodulator.md R216). -/
def equalizeEntry (P : Params T) (received gain : Cx T) : Cx T :=
  if iszero P.num gain then received else cdiv P.num received gain

/-- Steps 3 to 6: the equalized Data samples; with no pilots equalization is skipped entirely
(47_demodulator.md R212 to R216). -/
def equalized (P : Params T) (k : Ctx) (F2 : List (Cx T)) : List (Cx T) :=
  if k.npilot = 0#32 then (dataIndices k.roles).map (entryAt P F2)
  else
    let pilots := pilotIndices k.roles
    let G := pilotGains P pilots F2
    (dataIndices k.roles).map fun d => equalizeEntry P (entryAt P F2 d) (entryAt P G (nearestPilot pilots d))

/-- Steps 1 to 2b: the scaled frequency vector (47_demodulator.md R211). -/
def receivedVector (P : Params T) (k : Ctx) (y : List (Cx T)) : List (Cx T) :=
  (askProvider (providerOf P k) .forward (strip y k.cp)).map (cscale P.num (P.rxScale k.n))

/-- Steps 1 to 7 of DEMODULATE (47_demodulator.md R210, R217). -/
def demodulateSymbol (P : Params T) (k : Ctx) (y : List (Cx T)) : List Bool :=
  demapAll P k.bits (equalized P k (receivedVector P k y))

/-- DEMODULATE (47_demodulator.md R210). -/
def demodulateCmd (P : Params T) (c : BitVec 1) (lenIn : Word) (e : EngineState) (inp : Inputs T) : Effect T :=
  withContext c e fun k =>
    withLength (lenIn == k.symlen)
      (.bits k.capbits (demodulateSymbol P k (inp.samples k.symlen.toNat)))

/-- The meaning of DEMODULATE. -/
def execDemodulate (c : BitVec 1) (lenIn : Word) (s : State) : Host.Outcome State Fault Refusal :=
  .next (deliver (demodulateCmd engineParams c lenIn s.engine s.inputs) s)

end Sys2Proof.Machine
end

