-- ==== Sys2Proof/Machine/Modulator.lean ====
section
/-! DEFINITION. Construction, the accessors and the OFDM modulator: the commands CONSTRUCT, GETSYMLEN,
GETCAP and MODULATE (46_modulator.md). -/

namespace Sys2Proof.Machine

variable {T : Type}

/-- The checks of CONSTRUCT and the context it writes (46_modulator.md R190, R191). -/
def buildCtx (P : Params T) (xsel : BitVec 1) (order : BitVec 8) (nsc cplen pevery : Word) :
    Except EngineError Ctx :=
  let N := nsc.toNat
  let CP := cplen.toNat
  let roles := computeRoles N pevery.toNat
  let npilot := roles.count .pilot
  let ndata := roles.count .data
  if N < 4 then .error .configurationError
  else if P.nscMax < N then .error .configurationError
  else if N ≤ CP then .error .configurationError
  else if ndata = 0 then .error .configurationError
  else .ok
    { valid := true
      nsc := nsc
      cplen := cplen
      pevery := pevery
      order := order
      xsel := xsel
      bps := order
      symlen := BitVec.ofNat 32 (N + CP)
      npilot := BitVec.ofNat 32 npilot
      ndata := BitVec.ofNat 32 ndata
      capbits := BitVec.ofNat 32 (ndata * order.toNat)
      roles := roles }

/-- CONSTRUCT (46_modulator.md R190): the whole context in one write, or nothing (R192). -/
def constructCmd (P : Params T) (c xsel : BitVec 1) (order : BitVec 8) (nsc cplen pevery : Word) : Effect T :=
  if !legalOrder order then .fail .illegalCommand
  else match buildCtx P xsel order nsc cplen pevery with
    | .error e => .fail e
    | .ok k => .context c k

/-- GETSYMLEN (46_modulator.md R194). -/
def getsymlenCmd (c : BitVec 1) (e : EngineState) : Effect T := withContext c e fun k => .answer k.symlen

/-- GETCAP (46_modulator.md R195). -/
def getcapCmd (c : BitVec 1) (e : EngineState) : Effect T := withContext c e fun k => .answer k.capbits

/-- Steps 1 to 4 of MODULATE: frequency vector, inverse transform, energy-normalization scale, prefix
(46_modulator.md R196, R197). -/
def modulateSymbol (P : Params T) (k : Ctx) (b : List Bool) : Except EngineError (List (Cx T)) :=
  (bitsToFreq P k b).map fun V =>
    let t := askProvider (providerOf P k) .inverse V
    let u := t.map (cscale P.num (P.txScale k.n))
    prepend u k.cp

/-- MODULATE (46_modulator.md R196). -/
def modulateCmd (P : Params T) (c : BitVec 1) (lenIn lenOut : Word) (e : EngineState) (inp : Inputs T) :
    Effect T :=
  withContext c e fun k =>
    withLength (lenIn == k.capbits && lenOut == k.symlen)
      (match modulateSymbol P k (inp.bits k.capbits.toNat) with
       | .error e => .fail e
       | .ok y => .samples 0 y)

/-- The meaning of CONSTRUCT. -/
def execConstruct (c xsel : BitVec 1) (order : BitVec 8) (nsc cplen pevery : Word) (s : State) :
    Host.Outcome State Fault Refusal :=
  .next (deliver (constructCmd engineParams c xsel order nsc cplen pevery) s)

/-- The meaning of GETSYMLEN (46_modulator.md R194). -/
def execGetsymlen (c : BitVec 1) (s : State) : Host.Outcome State Fault Refusal :=
  .next (deliver (getsymlenCmd c s.engine) s)

/-- The meaning of GETCAP (46_modulator.md R195). -/
def execGetcap (c : BitVec 1) (s : State) : Host.Outcome State Fault Refusal :=
  .next (deliver (getcapCmd c s.engine) s)

/-- The meaning of MODULATE. -/
def execModulate (c : BitVec 1) (lenIn lenOut : Word) (s : State) : Host.Outcome State Fault Refusal :=
  .next (deliver (modulateCmd engineParams c lenIn lenOut s.engine s.inputs) s)

end Sys2Proof.Machine
end

