-- ==== Sys2Proof/Machine/Wrapper.lean ====
section
/-! DEFINITION. The wrapper commands XFWD and XINV: the selected provider's answer, unchanged
(44_transform_provider.md R167 to R169). -/

namespace Sys2Proof.Machine

variable {T : Type}

/-- The wrapper: `Prov(c)` applied to `SI[0 .. N)`, the answer to `SO[0 .. N)`; no scale of its own
(44_transform_provider.md R167). -/
def wrapperCmd (P : Params T) (dir : Dir) (c : BitVec 1) (lenIn : Word) (e : EngineState)
    (inp : Inputs T) : Effect T :=
  withContext c e fun k =>
    withLength (lenIn == k.nsc) (.samples k.nsc (askProvider (providerOf P k) dir (inp.samples k.n)))

/-- The meaning of XFWD (44_transform_provider.md R168). -/
def execXfwd (c : BitVec 1) (lenIn : Word) (s : State) : Host.Outcome State Fault Refusal :=
  .next (deliver (wrapperCmd engineParams .forward c lenIn s.engine s.inputs) s)

/-- The meaning of XINV (44_transform_provider.md R169). -/
def execXinv (c : BitVec 1) (lenIn : Word) (s : State) : Host.Outcome State Fault Refusal :=
  .next (deliver (wrapperCmd engineParams .inverse c lenIn s.engine s.inputs) s)

end Sys2Proof.Machine
end

