-- ==== Sys2Proof/Machine/Command.lean ====
section
/-! DEFINITION. The engine's step as 00_scope.md R18 writes it: one function of a command, the engine state and
the input buffers, with the external provider and every other parameter of R8 as its argument, over any
scalar format. `exec` of Machine/Dispatch.lean is this function at the default parameters
(`exec_eq_execWith` of Laws/Commands.lean). -/

namespace Sys2Proof.Machine

/-- One command of the engine with parameters `P` (00_scope.md R17, R18). -/
def engineStep {T : Type} (P : Params T) (i : Instr) (e : EngineState) (inp : Inputs T) : Effect T :=
  match i with
  | .construct c x o n l p => constructCmd P c x o n l p
  | .getsymlen c => getsymlenCmd c e
  | .getcap c => getcapCmd c e
  | .modulate c a b => modulateCmd P c a b e inp
  | .demodulate c a => demodulateCmd P c a e inp
  | .map o a => mapCmd P o a inp
  | .demap o => demapCmd P o inp
  | .b2f c a => b2fCmd P c a e inp
  | .f2b c a => f2bCmd P c a e inp
  | .xfwd c a => wrapperCmd P .forward c a e inp
  | .xinv c a => wrapperCmd P .inverse c a e inp
  | .cpadd c a => cpaddCmd c a e inp
  | .cpstrip c a => cpstripCmd c a e inp

/-- One command on the machine, of an engine with any parameters over 64-bit scalars. -/
def execWith (P : Params F64) (i : Instr) (s : State) : Host.Outcome State Fault Refusal :=
  .next (deliver (engineStep P i s.engine s.inputs) s)

end Sys2Proof.Machine
end

