-- ==== Sys2Proof/Machine/Dispatch.lean ====
section
/-! DEFINITION. One arm per command of 30_encoding.md R85: which meaning it has. -/

namespace Sys2Proof.Machine

def exec (i : Instr) (s : State) : Host.Outcome State Fault Refusal :=
  match i with
  | .construct c x o n l e => Sys2Proof.Machine.execConstruct c x o n l e s
  | .getsymlen c => Sys2Proof.Machine.execGetsymlen c s
  | .getcap c => Sys2Proof.Machine.execGetcap c s
  | .modulate c a b => Sys2Proof.Machine.execModulate c a b s
  | .demodulate c a => Sys2Proof.Machine.execDemodulate c a s
  | .map o a => Sys2Proof.Machine.execMap o a s
  | .demap o => Sys2Proof.Machine.execDemap o s
  | .b2f c a => Sys2Proof.Machine.execB2f c a s
  | .f2b c a => Sys2Proof.Machine.execF2b c a s
  | .xfwd c a => Sys2Proof.Machine.execXfwd c a s
  | .xinv c a => Sys2Proof.Machine.execXinv c a s
  | .cpadd c a => Sys2Proof.Machine.execCpadd c a s
  | .cpstrip c a => Sys2Proof.Machine.execCpstrip c a s

end Sys2Proof.Machine
end

