-- ==== Sys2Proof/Decode.lean ====
section
/-! DEFINITION. From a 128-bit packet to a command or a rejection by name, and back (30_encoding.md R80
to R89). A packet is first cut into its fields (R81); decoding and encoding then work on fields. After
them stands the opcode map as the spec writes it, masks and patterns (R85). -/

namespace Sys2Proof

/-- The fields of a packet, the same in every format (30_encoding.md R80, R81). -/
structure PacketFields where
  /-- `OPC`, cmd[127:120] -/
  opc : BitVec 8
  /-- `CTX`, cmd[119] -/
  ctx : BitVec 1
  /-- reserved, cmd[118:113] -/
  rsvHi : BitVec 6
  /-- `XSEL`, cmd[112] -/
  xsel : BitVec 1
  /-- `ORDER`, cmd[111:104] -/
  order : BitVec 8
  /-- reserved, cmd[103:96] -/
  rsvLo : BitVec 8
  /-- `W1`, cmd[95:64] -/
  w1 : Word
  /-- `W2`, cmd[63:32] -/
  w2 : Word
  /-- `W3`, cmd[31:0] -/
  w3 : Word
deriving DecidableEq, Repr

/-- Why a packet is illegal. Every reason is the one error `IllegalCommand` (60_exceptions.md R235). -/
inductive DecodeError where
  /-- `OPC` is none of the thirteen (30_encoding.md R87) -/
  | unassignedOpcode (opc : BitVec 8)
  /-- a bit that must be 0 in the command's format is 1 (30_encoding.md R88) -/
  | reservedBitSet (mnemonic : String)
  /-- `ORDER` ∉ {2, 4, 6, 8} in a K or M packet (30_encoding.md R88) -/
  | reservedOrder (mnemonic : String) (order : BitVec 8)
deriving DecidableEq, Repr

/-- The slices of 30_encoding.md R81. -/
def fieldsOf (p : Packet) : PacketFields where
  opc := p.extractLsb' 120 8
  ctx := p.extractLsb' 119 1
  rsvHi := p.extractLsb' 113 6
  xsel := p.extractLsb' 112 1
  order := p.extractLsb' 104 8
  rsvLo := p.extractLsb' 96 8
  w1 := p.extractLsb' 64 32
  w2 := p.extractLsb' 32 32
  w3 := p.extractLsb' 0 32

/-- The fields in their order, `OPC` in the high bits; the width is the sum of theirs. -/
def joinedFields (f : PacketFields) : BitVec (8 + 1 + 6 + 1 + 8 + 8 + 32 + 32 + 32) :=
  f.opc ++ f.ctx ++ f.rsvHi ++ f.xsel ++ f.order ++ f.rsvLo ++ f.w1 ++ f.w2 ++ f.w3

/-- The packet made of these fields (30_encoding.md R80, R81). -/
def packetOf (f : PacketFields) : Packet := (joinedFields f).cast rfl

/-- Format K: only the two reserved fields must be 0 (30_encoding.md R82). -/
def cleanK (f : PacketFields) : Bool := f.rsvHi == 0 && f.rsvLo == 0

/-- Format Q: nothing but `OPC` and `CTX` (30_encoding.md R82). -/
def cleanQ (f : PacketFields) : Bool :=
  f.rsvHi == 0 && f.xsel == 0 && f.order == 0 && f.rsvLo == 0 && f.w1 == 0 && f.w2 == 0 && f.w3 == 0

/-- Format B of MODULATE, which has `LEN_IN` and `LEN_OUT` (30_encoding.md R82). -/
def cleanB2 (f : PacketFields) : Bool :=
  f.rsvHi == 0 && f.xsel == 0 && f.order == 0 && f.rsvLo == 0 && f.w3 == 0

/-- Format B of every other command, which has `LEN_IN` alone (30_encoding.md R82). -/
def cleanB1 (f : PacketFields) : Bool := cleanB2 f && f.w2 == 0

/-- Format M of MAP: `ORDER` and `LEN_IN`, no `CTX` (30_encoding.md R82). -/
def cleanM1 (f : PacketFields) : Bool :=
  f.ctx == 0 && f.rsvHi == 0 && f.xsel == 0 && f.rsvLo == 0 && f.w2 == 0 && f.w3 == 0

/-- Format M of DEMAP: `ORDER` alone (30_encoding.md R82). -/
def cleanM0 (f : PacketFields) : Bool := cleanM1 f && f.w1 == 0

/-- The command `i` of a packet whose opcode is assigned, unless a must-be-zero bit is set or its
order is reserved (30_encoding.md R88). -/
def accept (mnemonic : String) (f : PacketFields) (clean : Bool) (i : Instr) : Except DecodeError Instr :=
  if clean then
    if i.wellFormed then .ok i else .error (.reservedOrder mnemonic f.order)
  else .error (.reservedBitSet mnemonic)

/-- Decoding on fields: the opcode map of 30_encoding.md R85, the rejections of R87 and R88. -/
def decodeFields (f : PacketFields) : Except DecodeError Instr :=
  if f.opc = 0x01#8 then accept "CONSTRUCT" f (cleanK f) (.construct f.ctx f.xsel f.order f.w1 f.w2 f.w3)
  else if f.opc = 0x02#8 then accept "GETSYMLEN" f (cleanQ f) (.getsymlen f.ctx)
  else if f.opc = 0x03#8 then accept "GETCAP" f (cleanQ f) (.getcap f.ctx)
  else if f.opc = 0x04#8 then accept "MODULATE" f (cleanB2 f) (.modulate f.ctx f.w1 f.w2)
  else if f.opc = 0x05#8 then accept "DEMODULATE" f (cleanB1 f) (.demodulate f.ctx f.w1)
  else if f.opc = 0x10#8 then accept "MAP" f (cleanM1 f) (.map f.order f.w1)
  else if f.opc = 0x11#8 then accept "DEMAP" f (cleanM0 f) (.demap f.order)
  else if f.opc = 0x20#8 then accept "B2F" f (cleanB1 f) (.b2f f.ctx f.w1)
  else if f.opc = 0x21#8 then accept "F2B" f (cleanB1 f) (.f2b f.ctx f.w1)
  else if f.opc = 0x28#8 then accept "XFWD" f (cleanB1 f) (.xfwd f.ctx f.w1)
  else if f.opc = 0x29#8 then accept "XINV" f (cleanB1 f) (.xinv f.ctx f.w1)
  else if f.opc = 0x30#8 then accept "CPADD" f (cleanB1 f) (.cpadd f.ctx f.w1)
  else if f.opc = 0x31#8 then accept "CPSTRIP" f (cleanB1 f) (.cpstrip f.ctx f.w1)
  else .error (.unassignedOpcode f.opc)

/-- Decoding, total on every packet (30_encoding.md R89). -/
def decode (p : Packet) : Except DecodeError Instr := decodeFields (fieldsOf p)

/-- The fields of a command; a field its format does not list is 0 (30_encoding.md R82). -/
def encodeFields : Instr → PacketFields
  | .construct c x o n l e => ⟨0x01, c, 0, x, o, 0, n, l, e⟩
  | .getsymlen c => ⟨0x02, c, 0, 0, 0, 0, 0, 0, 0⟩
  | .getcap c => ⟨0x03, c, 0, 0, 0, 0, 0, 0, 0⟩
  | .modulate c a b => ⟨0x04, c, 0, 0, 0, 0, a, b, 0⟩
  | .demodulate c a => ⟨0x05, c, 0, 0, 0, 0, a, 0, 0⟩
  | .map o a => ⟨0x10, 0, 0, 0, o, 0, a, 0, 0⟩
  | .demap o => ⟨0x11, 0, 0, 0, o, 0, 0, 0, 0⟩
  | .b2f c a => ⟨0x20, c, 0, 0, 0, 0, a, 0, 0⟩
  | .f2b c a => ⟨0x21, c, 0, 0, 0, 0, a, 0, 0⟩
  | .xfwd c a => ⟨0x28, c, 0, 0, 0, 0, a, 0, 0⟩
  | .xinv c a => ⟨0x29, c, 0, 0, 0, 0, a, 0, 0⟩
  | .cpadd c a => ⟨0x30, c, 0, 0, 0, 0, a, 0, 0⟩
  | .cpstrip c a => ⟨0x31, c, 0, 0, 0, 0, a, 0, 0⟩

/-- The packet of a command. -/
def encode (i : Instr) : Packet := packetOf (encodeFields i)

/-- A row of the opcode map: a packet `p` selects it when `(p AND mask) = pattern` (30_encoding.md R85). -/
structure OpcodeRow where
  mnemonic : String
  mask : Packet
  pattern : Packet
deriving DecidableEq, Repr

/-- `(p AND mask) = match` (30_encoding.md R85). -/
def OpcodeRow.selects (r : OpcodeRow) (p : Packet) : Bool := p &&& r.mask == r.pattern

/-- The opcode map as 30_encoding.md R85 and spec/opcode_table.json write it. -/
def opcodeTable : List OpcodeRow :=
  [⟨"CONSTRUCT", 0xFF7E00FF000000000000000000000000, 0x01000000000000000000000000000000⟩,
   ⟨"GETSYMLEN", 0xFF7FFFFFFFFFFFFFFFFFFFFFFFFFFFFF, 0x02000000000000000000000000000000⟩,
   ⟨"GETCAP", 0xFF7FFFFFFFFFFFFFFFFFFFFFFFFFFFFF, 0x03000000000000000000000000000000⟩,
   ⟨"MODULATE", 0xFF7FFFFF0000000000000000FFFFFFFF, 0x04000000000000000000000000000000⟩,
   ⟨"DEMODULATE", 0xFF7FFFFF00000000FFFFFFFFFFFFFFFF, 0x05000000000000000000000000000000⟩,
   ⟨"MAP", 0xFFFF00FF00000000FFFFFFFFFFFFFFFF, 0x10000000000000000000000000000000⟩,
   ⟨"DEMAP", 0xFFFF00FFFFFFFFFFFFFFFFFFFFFFFFFF, 0x11000000000000000000000000000000⟩,
   ⟨"B2F", 0xFF7FFFFF00000000FFFFFFFFFFFFFFFF, 0x20000000000000000000000000000000⟩,
   ⟨"F2B", 0xFF7FFFFF00000000FFFFFFFFFFFFFFFF, 0x21000000000000000000000000000000⟩,
   ⟨"XFWD", 0xFF7FFFFF00000000FFFFFFFFFFFFFFFF, 0x28000000000000000000000000000000⟩,
   ⟨"XINV", 0xFF7FFFFF00000000FFFFFFFFFFFFFFFF, 0x29000000000000000000000000000000⟩,
   ⟨"CPADD", 0xFF7FFFFF00000000FFFFFFFFFFFFFFFF, 0x30000000000000000000000000000000⟩,
   ⟨"CPSTRIP", 0xFF7FFFFF00000000FFFFFFFFFFFFFFFF, 0x31000000000000000000000000000000⟩]

/-- The mnemonic of a command (30_encoding.md R85). -/
def Instr.mnemonic : Instr → String
  | .construct _ _ _ _ _ _ => "CONSTRUCT"
  | .getsymlen _ => "GETSYMLEN"
  | .getcap _ => "GETCAP"
  | .modulate _ _ _ => "MODULATE"
  | .demodulate _ _ => "DEMODULATE"
  | .map _ _ => "MAP"
  | .demap _ => "DEMAP"
  | .b2f _ _ => "B2F"
  | .f2b _ _ => "F2B"
  | .xfwd _ _ => "XFWD"
  | .xinv _ _ => "XINV"
  | .cpadd _ _ => "CPADD"
  | .cpstrip _ _ => "CPSTRIP"

/-- The packet whose bits are `w`, numbered as spec/opcode_table.json numbers them: bit 0 is cmd[0], the
least significant bit of the 128-bit packet, which is the table's one word. Bits at and above `nbits`
are 0. A packet goes to the engine by value (20_memory.md R64), so no byte order is involved. -/
def packetOfTableWord (nbits w : Nat) : Packet := BitVec.ofNat 128 (w % 2 ^ nbits)

/-- The command the decoder reads from the packet whose bits are `w`. -/
def decodeTableWord (nbits w : Nat) : Option Instr :=
  match decode (packetOfTableWord nbits w) with
  | .ok i => some i
  | .error _ => none

end Sys2Proof
end

