-- ==== Sys2Proof/Machine/HostMoves.lean ====
section
/-! DEFINITION. What the host does between two commands (20_memory.md R51, 30_encoding.md R91,
70_reset_and_hazards.md R260, R272). A move that names an element its space does not have stops the
machine (log entry 13). -/

namespace Sys2Proof.Machine

/-- The host writes bits to a space from an index on. -/
def hostBits (P : Params F64) (space : BitSpace) (start : Nat) (vs : List Bool) (s : State) :
    Host.Outcome State Fault Refusal :=
  if start + vs.length ≤ P.bitbufCap then
    .next { s with mem := s.mem.writeBits space start vs }
  else .fault (.noSuchBit space (max start P.bitbufCap))

/-- The host writes samples to a space from an index on. -/
def hostSamples (P : Params F64) (space : SampleSpace) (start : Nat) (vs : List Sample) (s : State) :
    Host.Outcome State Fault Refusal :=
  if start + vs.length ≤ P.sampbufCap then
    .next { s with mem := s.mem.writeSamples space start vs }
  else .fault (.noSuchSample space (max start P.sampbufCap))

/-- The first n samples of `SO`, n as the host recorded it (30_encoding.md R91). -/
def lastSymbol (s : State) : List Sample := readRun blankSample s.mem.so 0 s.soLen

/-- The first n bits of `BO`, n as the host recorded it (30_encoding.md R91). -/
def lastBits (s : State) : List Bool := readRun blankBit s.mem.bo 0 s.boLen

/-- The host issues a packet; no response is pending until the engine answers it (30_encoding.md R83). -/
def hostIssue (p : Packet) (s : State) : State := { s with cmd := some p, resp := none }

/-- A reset between two commands: the engine state of reset, no command, no response; the buffers and the
host are not touched (10_state.md R30, 70_reset_and_hazards.md R260). -/
def hostReset (s : State) : State := { s with engine := State.reset.engine, cmd := none, resp := none }

/-- One move of the host (30_encoding.md R91). -/
def hostMove (P : Params F64) (m : HostMove) (s : State) : Host.Outcome State Fault Refusal :=
  match m with
  | .issue p => .next (hostIssue p s)
  | .bits space start vs => hostBits P space start vs s
  | .samples space start vs => hostSamples P space start vs s
  | .fillBits space n v => hostBits P space 0 (List.replicate n v) s
  | .fillSamples space n v => hostSamples P space 0 (List.replicate n v) s
  | .channelIdeal => hostSamples P .si 0 (lastSymbol s) s
  | .channelGain h => hostSamples P .si 0 ((lastSymbol s).map (cmul P.num h)) s
  | .loopBits => hostBits P .bi 0 (lastBits s) s
  | .reset => .next (hostReset s)

/-- `CONSTRUCT2 N, CP, P, ord, prov`: a modulator and a demodulator of one configuration, two packets
(30_encoding.md R91). -/
def construct2 (xsel : BitVec 1) (order : BitVec 8) (nsc cplen pevery : Word) : List HostMove :=
  [.issue (encode (.construct 0 xsel order nsc cplen pevery)),
   .issue (encode (.construct 1 xsel order nsc cplen pevery))]

/-- The host's turn, when no command is in progress: its next move, or nothing at all, the engine being
idle with its contexts held (60_exceptions.md R247; log entry 11). -/
def hostTurn (P : Params F64) (s : State) : Host.Outcome State Fault Refusal :=
  match s.host with
  | [] => .next s
  | m :: rest => hostMove P m { s with host := rest }

end Sys2Proof.Machine
end

