-- ==== Sys2Proof/Machine/Port.lean ====
section
/-! DEFINITION. The command port: taking the packet and running the command it decodes to
(20_memory.md R64, 30_encoding.md R89). -/

namespace Sys2Proof.Machine

/-- The engine takes its private copy of the packet; the port is free (20_memory.md R64). -/
def takeCommand (s : State) : State := { s with cmd := none }

/-- The command of a packet, run by `run`, or `IllegalCommand`, decided from the packet alone before
anything else (60_exceptions.md R235, R244). -/
def runPacket (run : Instr → State → Host.Outcome State Fault Refusal) (p : Packet) (s : State) :
    Host.Outcome State Fault Refusal :=
  match decode p with
  | .ok i => run i s
  | .error _ => .next (raiseError .illegalCommand s)

/-- A packet at the command port, ready to be the next command. -/
def placePacket (p : Packet) (s : State) : State := { s with cmd := some p }

end Sys2Proof.Machine
end

