-- ==== Sys2Proof/Machine/Step.lean ====
section
/-! DEFINITION. One step of the machine: the engine executes the command at its port to completion
(00_scope.md R17, 20_memory.md R61), or, when there is none, the host makes its next move. -/

namespace Sys2Proof.Machine

/-- One step of a machine with parameters `P` that runs its commands by `run`. -/
def stepOf (P : Params F64) (run : Instr → State → Host.Outcome State Fault Refusal) (s : State) :
    Host.Outcome State Fault Refusal :=
  match s.cmd with
  | some p => runPacket run p (takeCommand s)
  | none => hostTurn P s

/-- One step "with `XP` and the parameters of rule R8 as arguments of the step, not as state" (00_scope.md
R18), on a machine whose buffers hold 64-bit scalars (log entry 6). -/
def stepWith (P : Params F64) (s : State) : Host.Outcome State Fault Refusal := stepOf P (execWith P) s

/-- One step at the default parameters (00_scope.md R18; log entry 6). -/
def step (s : State) : Host.Outcome State Fault Refusal := stepOf engineParams exec s

/-- The state with the packet whose bits are `w` at the command port: the next step runs it. The engine
has no program counter and fetches nothing; the packet is what the host issues (log entry 2). -/
def State.withFetchWord (s : State) (nbits w : Nat) : State := placePacket (packetOfTableWord nbits w) s

end Sys2Proof.Machine
end

