-- ==== Sys2Proof/Machine/Exact.lean ====
section
/-! DEFINITION. `NUM_EXACT`, the second named instance of `NUM`: the real numbers with exact operations
(00_scope.md R15), the tables and the default provider in it, and the contract of a provider
(44_transform_provider.md R162). `exec` does not use this file: the spec's laws "up to floating-point
rounding" are equalities here (93_implementation_defined.md U1; log entry 20). -/

namespace Sys2Proof.Machine

open Classical in
/-- `NUM_EXACT` (00_scope.md R15). Its quotient by zero, which the spec leaves open, is a free value (DESIGN
CHOICE, log entry 27), and not Mathlib's `a / 0 = 0`. -/
noncomputable def numExact : Num ℝ where
  add a b := a + b
  sub a b := a - b
  mul a b := a * b
  div a b := if b = 0 then Config.exactDivByZero a else a / b
  lt a b := decide (a < b)
  eq a b := decide (a = b)
  ofInt n := (n : ℝ)
  ofRealErased := Erased.mk fun x => x

/-- `CONST[2^bps][i]` in `NUM_EXACT`: "the entries are the irrational numbers themselves"
(42_constellation_tables.md R131). -/
noncomputable def exactPoint (bps i : Nat) : Cx ℝ :=
  ⟨((pointLevels bps i).1 : ℝ) / Real.sqrt (energyOf bps), ((pointLevels bps i).2 : ℝ) / Real.sqrt (energyOf bps)⟩

/-- e^(−2πjm/N) as (cos, −sin) (44_transform_provider.md R165). -/
noncomputable def exactTwiddle (N m : Nat) : Cx ℝ :=
  ⟨Real.cos (2 * Real.pi * m / N), -Real.sin (2 * Real.pi * m / N)⟩

/-- `XD` in `NUM_EXACT` (44_transform_provider.md R165). -/
noncomputable def exactProvider : Provider ℝ := directProvider numExact exactTwiddle

/-- The engine over `NUM_EXACT`, with its remaining open parameters as arguments (00_scope.md R8). No
sample is non-finite, so the spec leaves no `demap` open. -/
noncomputable def exactParams (nscMax : Nat) (pilotRef : Cx ℝ) (txScale : Nat → ℝ) (xp : Provider ℝ) :
    Params ℝ where
  nctx := 2
  fieldW := 32
  orders := [4, 16, 64, 256]
  num := numExact
  nscMax := nscMax
  point := exactPoint
  pilotRef := pilotRef
  txScale := txScale
  xd := exactProvider
  xp := xp
  openDemap _ _ := none

/-- A sample of `NUM_EXACT` as a complex number. -/
noncomputable def complexOf (z : Cx ℝ) : ℂ := ⟨z.re, z.im⟩

/-! ### The contract of a provider

44_transform_provider.md R162's five properties. `PROV.LENGTH` and `PROV.DETERMINISTIC` are in the type
`Provider`, a function of the request, whose answer `askProvider` makes as long as the request. -/

/-- `PROV.PAIR` at length N, as an equality (44_transform_provider.md R162). -/
def ProviderPair (p : Provider ℝ) (N : Nat) : Prop :=
  ∀ x : List (Cx ℝ), x.length = N →
    askProvider p .inverse (askProvider p .forward x) = x ∧
      askProvider p .forward (askProvider p .inverse x) = x

/-- `Σ x[n] × e^(−2πj × k × n / N)` forward and the same with the opposite exponent inverse, n from 0 to N − 1
(44_transform_provider.md R162). -/
noncomputable def fourierSum (dir : Dir) (N : Nat) (x : List (Cx ℝ)) (k : Nat) : ℂ :=
  ∑ n ∈ Finset.range N, complexOf (x.getD n ⟨0, 0⟩) *
    Complex.exp (((match dir with | .forward => -1 | .inverse => 1) * (2 * Real.pi * k * n / N) : ℝ) * Complex.I)

/-- A normalization convention at length N: the pair is the discrete Fourier transform with the factors `aF`
forward and `aI` inverse, positive and of product 1/N (44_transform_provider.md R162, R163). -/
def ProviderConvention (p : Provider ℝ) (N : Nat) (aF aI : ℝ) : Prop :=
  0 < aF ∧ 0 < aI ∧ aF * aI = 1 / N ∧
    ∀ x : List (Cx ℝ), x.length = N → ∀ k, k < N →
      complexOf (p .forward N x k) = aF * fourierSum .forward N x k ∧
        complexOf (p .inverse N x k) = aI * fourierSum .inverse N x k

/-- `PROV.DFT` at length N: some convention is the provider's (44_transform_provider.md R162). -/
def ProviderDft (p : Provider ℝ) (N : Nat) : Prop := ∃ aF aI : ℝ, ProviderConvention p N aF aI

/-- `PROV.LINEAR` at length N, in both directions: a complex factor common to all entries of the request
is a factor of the answer (44_transform_provider.md R162, R170). -/
def ProviderScales (p : Provider ℝ) (N : Nat) : Prop :=
  ∀ (dir : Dir) (h : Cx ℝ) (x : List (Cx ℝ)), x.length = N →
    askProvider p dir (x.map (cmul numExact h)) = (askProvider p dir x).map (cmul numExact h)

/-- The contract of `XP`, at every length an engine of this `NSC_MAX` may ask for
(44_transform_provider.md R162). -/
structure ProviderContract (p : Provider ℝ) (nscMax : Nat) : Prop where
  pair : ∀ N, 4 ≤ N → N ≤ nscMax → ProviderPair p N
  dft : ∀ N, 4 ≤ N → N ≤ nscMax → ProviderDft p N
  linear : ∀ N, 4 ≤ N → N ≤ nscMax → ProviderScales p N

/-- The Euclidean distance of two samples (41_constellation_mapper.md R114). -/
noncomputable def distance (z p : Cx ℝ) : ℝ := Real.sqrt ((z.re - p.re) ^ 2 + (z.im - p.im) ^ 2)

/-- The real number a finite binary64 stands for. -/
noncomputable def realOf (x : F64) : ℝ := (F64.units x : ℝ) / 2 ^ 1074

/-- `c` is the finite binary64 nearest to `x`, and where another value is as near, the one whose last bit is
even (00_scope.md R15). -/
def NearestTo (x : ℝ) (c : F64) : Prop :=
  F64.isFinite c = true ∧
    (∀ w : F64, F64.isFinite w = true → |realOf c - x| ≤ |realOf w - x|) ∧
    ∀ w : F64, F64.isFinite w = true → realOf w ≠ realOf c → |realOf w - x| = |realOf c - x| →
      c.toNat % 2 = 0

/-- `c` is the real number `x` rounded into binary64: the nearest finite value, and from half a step above the
greatest finite value on the infinity of the number's sign (00_scope.md R15). -/
def RoundsTo (x : ℝ) (c : F64) : Prop :=
  (|x| < 2 ^ 1024 - 2 ^ 970 → NearestTo x c) ∧
    (2 ^ 1024 - 2 ^ 970 ≤ |x| → c = F64.inf (decide (x < 0)))

end Sys2Proof.Machine

namespace Sys2Proof

open Sys2Proof.Machine

/-! ### The ranges of the parameters -/

/-- How the scalars of a format are read as real numbers, which of them are finite, and how far a sum of
rounded values may lie from the exact one, "exactly in `NUM_EXACT` and up to rounding in a finite format"
(41_constellation_mapper.md R111). -/
structure Reading (T : Type) where
  value : T → ℝ
  finite : T → Prop
  tolerance : ℝ

/-- `NUM_EXACT` read as itself. -/
noncomputable def exactReading : Reading ℝ where
  value x := x
  finite _ := True
  tolerance := 0

/-- `NUM_F64` read as real numbers. The spec states no bound for its rounding: 2^−50 is the model's, wide
enough for the default table (DESIGN CHOICE, log entry 26). -/
noncomputable def f64Reading : Reading F64 where
  value := realOf
  finite x := F64.isFinite x = true
  tolerance := 1 / 2 ^ 50

/-- A sample read as a pair of reals. -/
def Reading.point {T : Type} (R : Reading T) (z : Cx T) : Cx ℝ := ⟨R.value z.re, R.value z.im⟩

/-- A sample both of whose parts are finite. -/
def Reading.finitePoint {T : Type} (R : Reading T) (z : Cx T) : Prop := R.finite z.re ∧ R.finite z.im

/-- The ranges of 00_scope.md R8's table: the three parameters fixed by decision; `NSC_MAX`; the contract of
`CONST` at one order each (41_constellation_mapper.md R111, `CONST.SIZE` being the type of `point`);
`PILOT_REF` (43_frame_layout.md R144); `TX_SCALE` (46_modulator.md R197). `RX_SCALE` and the capacities are
computed. `XP`'s contract is `ProviderContract` in `NUM_EXACT`; in a finite format R162 asks for it up to a
rounding it does not bound, so no range is put on `xp` here. -/
structure Params.Legal {T : Type} (P : Params T) (R : Reading T) : Prop where
  nctx : P.nctx = 2
  fieldW : P.fieldW = 32
  orders : P.orders = [4, 16, 64, 256]
  nscMax : 4 ≤ P.nscMax ∧ P.nscMax ≤ 2 ^ 28
  /-- `CONST.DISTINCT` -/
  distinct : ∀ bps, 2 ^ bps ∈ P.orders → ∀ i < 2 ^ bps, ∀ j < 2 ^ bps, i ≠ j →
    P.point bps i ≠ P.point bps j ∧ P.num.lt P.num.zero (dist2 P.num (P.point bps i) (P.point bps j)) = true
  /-- `CONST.UNITPOWER` -/
  unitPower : ∀ bps, 2 ^ bps ∈ P.orders →
    |((List.range (2 ^ bps)).map fun i =>
      (R.point (P.point bps i)).re ^ 2 + (R.point (P.point bps i)).im ^ 2).sum / 2 ^ bps - 1| ≤ R.tolerance
  /-- `CONST.GRAY` -/
  gray : ∀ bps, 2 ^ bps ∈ P.orders → ∀ i < 2 ^ bps, ∀ j < 2 ^ bps, i ≠ j →
    (∀ i' < 2 ^ bps, ∀ j' < 2 ^ bps, i' ≠ j' →
      distance (R.point (P.point bps i)) (R.point (P.point bps j)) ≤
        distance (R.point (P.point bps i')) (R.point (P.point bps j'))) →
    ((List.range bps).filter fun b => i.testBit b != j.testBit b).length = 1
  /-- `CONST.FINITE` -/
  finite : ∀ bps, 2 ^ bps ∈ P.orders → ∀ i < 2 ^ bps, R.finitePoint (P.point bps i)
  pilotRef : R.finitePoint P.pilotRef ∧ R.point P.pilotRef ≠ ⟨0, 0⟩
  txScale : ∀ N, 4 ≤ N → N ≤ P.nscMax → R.finite (P.txScale N) ∧ 0 < R.value (P.txScale N)

end Sys2Proof
end

