-- ==== Sys2Proof/Safety.lean ====
section
/-! DEFINITION. The terms claims are stated in. What a safe state is: the invariants of a constructed context
(10_state.md R29), the canonical form of the buffers, and the host's records within the capacities
(20_memory.md R50). And the spec's tables about the commands as a whole: which packets are illegal, which
error of its own a command has, what a success answers, how much of its input space a command declares. -/

namespace Sys2Proof.Machine

/-- The invariants of a context with `VALID` = 1, "which CONSTRUCT establishes and nothing can break"
(10_state.md R29), in an engine with parameters `P`. -/
abbrev Ctx.InvFor {T : Type} (P : Params T) (k : Ctx) : Prop :=
  k.valid = true →
    4 ≤ k.n ∧ k.n ≤ P.nscMax ∧ k.cp < k.n ∧ legalOrder k.order = true ∧ k.bps = k.order ∧
      k.symlen.toNat = k.n + k.cp ∧ k.roles = computeRoles k.n k.pevery.toNat ∧
      k.npilot.toNat = k.roles.count .pilot ∧ k.ndata.toNat = k.roles.count .data ∧
      1 ≤ k.ndata.toNat ∧ k.capbits.toNat = k.ndata.toNat * k.bits

/-- The same at the default parameters. -/
abbrev Ctx.Inv (k : Ctx) : Prop := Ctx.InvFor engineParams k

/-- The invariant of a machine whose engine has parameters `P`. -/
abbrev State.InvFor {T : Type} (P : Params T) (s : State) : Prop :=
  Ctx.InvFor P s.engine.ctx0 ∧ Ctx.InvFor P s.engine.ctx1 ∧ s.mem.wfFor P = true ∧
    s.soLen ≤ P.sampbufCap ∧ s.boLen ≤ P.bitbufCap

/-- The invariant of the machine at the default parameters. -/
abbrev State.Inv (s : State) : Prop := State.InvFor engineParams s

/-- A context that holds an instance (`VALID` = 1, "READY", 10_state.md R21). -/
abbrev Ready (s : State) (c : BitVec 1) : Prop := (s.engine.ctx c).valid = true

/-- The thirteen assigned values of `OPC` (30_encoding.md R85, R87). -/
def assignedOpcodes : List (BitVec 8) :=
  [0x01, 0x02, 0x03, 0x04, 0x05, 0x10, 0x11, 0x20, 0x21, 0x28, 0x29, 0x30, 0x31]

/-- An assigned opcode with a bit set that its format says must be 0, or with a reserved `ORDER`
(30_encoding.md R82, R88), written format by format. -/
def IllegalFields (f : PacketFields) : Prop :=
  (f.opc = 0x01#8 ∧ (f.rsvHi ≠ 0 ∨ f.rsvLo ≠ 0 ∨ f.order ∉ [2#8, 4#8, 6#8, 8#8])) ∨
  (f.opc ∈ [0x02#8, 0x03#8] ∧
    (f.rsvHi ≠ 0 ∨ f.xsel ≠ 0 ∨ f.order ≠ 0 ∨ f.rsvLo ≠ 0 ∨ f.w1 ≠ 0 ∨ f.w2 ≠ 0 ∨ f.w3 ≠ 0)) ∨
  (f.opc = 0x04#8 ∧ (f.rsvHi ≠ 0 ∨ f.xsel ≠ 0 ∨ f.order ≠ 0 ∨ f.rsvLo ≠ 0 ∨ f.w3 ≠ 0)) ∨
  (f.opc ∈ [0x05#8, 0x20#8, 0x21#8, 0x28#8, 0x29#8, 0x30#8, 0x31#8] ∧
    (f.rsvHi ≠ 0 ∨ f.xsel ≠ 0 ∨ f.order ≠ 0 ∨ f.rsvLo ≠ 0 ∨ f.w2 ≠ 0 ∨ f.w3 ≠ 0)) ∨
  (f.opc = 0x10#8 ∧
    (f.ctx ≠ 0 ∨ f.rsvHi ≠ 0 ∨ f.xsel ≠ 0 ∨ f.rsvLo ≠ 0 ∨ f.w2 ≠ 0 ∨ f.w3 ≠ 0 ∨
      f.order ∉ [2#8, 4#8, 6#8, 8#8])) ∨
  (f.opc = 0x11#8 ∧
    (f.ctx ≠ 0 ∨ f.rsvHi ≠ 0 ∨ f.xsel ≠ 0 ∨ f.rsvLo ≠ 0 ∨ f.w1 ≠ 0 ∨ f.w2 ≠ 0 ∨ f.w3 ≠ 0 ∨
      f.order ∉ [2#8, 4#8, 6#8, 8#8]))

/-- The command's own error, of the third level of 60_exceptions.md R244, by the table of R243. -/
def ownError : Instr → Option EngineError
  | .construct _ _ _ _ _ _ => some .configurationError
  | .getsymlen _ => none
  | .getcap _ => none
  | .modulate _ _ _ => some .bufferSizeMismatch
  | .demodulate _ _ => some .bufferSizeMismatch
  | .map _ _ => some .invalidBitGroupLength
  | .demap _ => none
  | .b2f _ _ => some .bufferSizeMismatch
  | .f2b _ _ => some .bufferSizeMismatch
  | .xfwd _ _ => some .bufferSizeMismatch
  | .xinv _ _ => some .bufferSizeMismatch
  | .cpadd _ _ => some .bufferSizeMismatch
  | .cpstrip _ _ => some .bufferSizeMismatch

/-- `VALUE` of a success (30_encoding.md R83): the accessor's result; the number of elements written for the
engine-sized outputs; 0 for CONSTRUCT and MODULATE. -/
def successValue (i : Instr) (e : EngineState) : Nat :=
  match i with
  | .construct _ _ _ _ _ _ => 0
  | .getsymlen c => (e.ctx c).symlen.toNat
  | .getcap c => (e.ctx c).capbits.toNat
  | .modulate _ _ _ => 0
  | .demodulate c _ => (e.ctx c).capbits.toNat
  | .map _ _ => 1
  | .demap order => order.toNat
  | .b2f c _ => (e.ctx c).nsc.toNat
  | .f2b c _ => (e.ctx c).capbits.toNat
  | .xfwd c _ => (e.ctx c).nsc.toNat
  | .xinv c _ => (e.ctx c).nsc.toNat
  | .cpadd c _ => (e.ctx c).symlen.toNat
  | .cpstrip c _ => (e.ctx c).nsc.toNat

/-- How many elements of `BI` a command declares as its input: its `LEN_IN` where it reads `BI`
(20_memory.md R52, R53). -/
def declaredBits : Instr → Nat
  | .construct _ _ _ _ _ _ => 0
  | .getsymlen _ => 0
  | .getcap _ => 0
  | .modulate _ a _ => a.toNat
  | .demodulate _ _ => 0
  | .map _ a => a.toNat
  | .demap _ => 0
  | .b2f _ a => a.toNat
  | .f2b _ _ => 0
  | .xfwd _ _ => 0
  | .xinv _ _ => 0
  | .cpadd _ _ => 0
  | .cpstrip _ _ => 0

/-- How many elements of `SI` a command declares as its input: its `LEN_IN` where it reads `SI`, one for
DEMAP (20_memory.md R52, R53). -/
def declaredSamples : Instr → Nat
  | .construct _ _ _ _ _ _ => 0
  | .getsymlen _ => 0
  | .getcap _ => 0
  | .modulate _ _ _ => 0
  | .demodulate _ a => a.toNat
  | .map _ _ => 0
  | .demap _ => 1
  | .b2f _ _ => 0
  | .f2b _ a => a.toNat
  | .xfwd _ a => a.toNat
  | .xinv _ a => a.toNat
  | .cpadd _ a => a.toNat
  | .cpstrip _ a => a.toNat

/-- `p` is the Pilot index nearest to `d`, the lower one where two are as near (47_demodulator.md R214). -/
def IsNearestPilot (roles : List Role) (d p : Nat) : Prop :=
  roles[p]? = some .pilot ∧
    ∀ q, roles[q]? = some .pilot → absDiff d p < absDiff d q ∨ (absDiff d p = absDiff d q ∧ p ≤ q)

/-- The place of index `d` among the indices of its role: how many before it have the role `r`. With `r` =
Data this is the j of `d_j = d` (43_frame_layout.md R141). -/
def rankOf (r : Role) (roles : List Role) (d : Nat) : Nat := (roles.take d).count r

/-- Bits `start` to `start + n − 1` of `BI`, as a bit group. -/
def inputGroup (s : State) (start n : Nat) : List Bool := (List.range n).map fun b => s.mem.bit .bi (start + b)

/-- The premises of 41_constellation_mapper.md R116 on a scalar format and a table of 2^bps points. The
third one is what the scan needs to keep a point at distance zero; the rule writes only that nothing is
less than itself, which does not suffice for an arbitrary `lt` (log entry 24). The last one says that the spec leaves
`demap` open at no table point (93_implementation_defined.md U4). -/
structure DemapPremises {T : Type} (P : Params T) (bps : Nat) : Prop where
  same : ∀ i < 2 ^ bps, dist2 P.num (P.point bps i) (P.point bps i) = P.num.zero
  apart : ∀ i < 2 ^ bps, ∀ j < 2 ^ bps, i ≠ j →
    P.num.lt P.num.zero (dist2 P.num (P.point bps i) (P.point bps j)) = true
  asymmetric : ∀ x y : T, P.num.lt x y = true → P.num.lt y x = false
  decided : ∀ i < 2 ^ bps, P.openDemap bps (P.point bps i) = none

end Sys2Proof.Machine
end

