-- ==== Sys2Proof/Certificates/Slice0/Obligations.lean ====
section
/-! DEFINITION. The statements about FE-1 for the provers, each over the numbered rules its docstring cites.
`exec` and `step` run `engineParams`, the engine with every open parameter at the default the spec gives
(00_scope.md R8; log entry 6); a statement over `exactParams` is about `NUM_EXACT` and any value of the
parameters it quantifies over, and one over any `P` is about every engine. Responses are written out: ⟨STATUS, VALUE⟩. -/

open Sys2Proof Sys2Proof.Machine

/-! ### Encoding -/

/-- Packets of 30_encoding.md R92, one of each format, decode to the commands they stand for. -/
def Obligations.DecodesWorkedEncodings : Prop :=
  decode 0x01810200000000080000000200000000#128 = .ok (.construct 1 1 2 8 2 0) ∧
  decode 0x03800000000000000000000000000000#128 = .ok (.getcap 1) ∧
  decode 0x04000000000000BC0000004400000000#128 = .ok (.modulate 0 188 68) ∧
  decode 0x05800000000000440000000000000000#128 = .ok (.demodulate 1 68) ∧
  decode 0x10000400000000040000000000000000#128 = .ok (.map 4 4) ∧
  decode 0x11000800000000000000000000000000#128 = .ok (.demap 8) ∧
  decode 0x29000000000000400000000000000000#128 = .ok (.xinv 0 64)

/-- The packet of every well-formed command decodes to that command (30_encoding.md R81, R82, R85). -/
def Obligations.DecodeEncodeIdentity : Prop :=
  ∀ i : Instr, i.wellFormed = true → decode (encode i) = .ok i

/-- A packet that decodes is the packet of its command, and the command is well formed: no bit of a legal
packet is dropped (30_encoding.md R82, R84). -/
def Obligations.EncodeDecodeIdentity : Prop :=
  ∀ (p : Packet) (i : Instr), decode p = .ok i → encode i = p ∧ i.wellFormed = true

/-- 30_encoding.md R89: a packet matches at most one row of R85; it decodes exactly when it matches one and
its `ORDER`, where one is used, is legal; the row is that of the command's mnemonic; and every other packet
is illegal by R87 or R88. -/
def Obligations.OpcodeTableDecides : Prop :=
  ∀ p : Packet,
    (∀ r ∈ opcodeTable, ∀ q ∈ opcodeTable, r.selects p = true → q.selects p = true → r = q) ∧
    ((∃ i, decode p = .ok i) ↔
      (∃ r ∈ opcodeTable, r.selects p = true) ∧
        ((fieldsOf p).opc ∈ [0x01#8, 0x10#8, 0x11#8] → (fieldsOf p).order ∈ [2#8, 4#8, 6#8, 8#8])) ∧
    (∀ i, decode p = .ok i → ∃ r ∈ opcodeTable, r.mnemonic = i.mnemonic ∧ r.selects p = true) ∧
    ((∃ e, decode p = .error e) ↔ (fieldsOf p).opc ∉ assignedOpcodes ∨ IllegalFields (fieldsOf p))

/-- 30_encoding.md R87: an unassigned opcode, those of the ranges the rule lists, answers `IllegalCommand`,
changes no state and writes no buffer. -/
def Obligations.UnassignedOpcodesAnswered : Prop :=
  (∀ o : BitVec 8, o ∉ assignedOpcodes ↔
    o.toNat = 0x00 ∨ (0x06 ≤ o.toNat ∧ o.toNat ≤ 0x0F) ∨ (0x12 ≤ o.toNat ∧ o.toNat ≤ 0x1F) ∨
      (0x22 ≤ o.toNat ∧ o.toNat ≤ 0x27) ∨ (0x2A ≤ o.toNat ∧ o.toNat ≤ 0x2F) ∨ 0x32 ≤ o.toNat) ∧
  ∀ (s : State) (p : Packet), s.cmd = some p → (fieldsOf p).opc ∉ assignedOpcodes →
    step s = .next { s with cmd := none, resp := some ⟨0x05, 0⟩ }

/-- 30_encoding.md R88: a packet with an assigned opcode and a bit set that must be 0, or a reserved `ORDER`,
answers `IllegalCommand`; these are the packets with an assigned opcode that match no row, and those with a
bad `ORDER`. -/
def Obligations.IllegalFieldsAnswered : Prop :=
  ∀ p : Packet,
    ((fieldsOf p).opc ∈ assignedOpcodes →
      (IllegalFields (fieldsOf p) ↔
        (∀ r ∈ opcodeTable, r.selects p = false) ∨
          ((fieldsOf p).opc ∈ [0x01#8, 0x10#8, 0x11#8] ∧ (fieldsOf p).order ∉ [2#8, 4#8, 6#8, 8#8]))) ∧
    ∀ s : State, s.cmd = some p → IllegalFields (fieldsOf p) →
      step s = .next { s with cmd := none, resp := some ⟨0x05, 0⟩ }

/-! ### The step -/

/-- A step with a packet at the port that decodes is exactly the command's meaning, the port having been
freed first (20_memory.md R61, R64); the same for a packet placed as the host's check places it (log
entry 2). The command is well formed. The meaning and the step are those of 00_scope.md R18, which take
the parameters as arguments, at the defaults (log entry 6): a command is a function of the engine state
and the input buffers, and a step of any engine with a packet that decodes runs it. -/
def Obligations.StepRunsDecodedCommand : Prop :=
  (∀ (s : State) (p : Packet) (i : Instr), s.cmd = some p → decode p = .ok i →
    step s = exec i { s with cmd := none } ∧ i.wellFormed = true) ∧
  (∀ (s : State) (nbits w : Nat) (i : Instr), decodeTableWord nbits w = some i →
    step (s.withFetchWord nbits w) = exec i { s with cmd := none }) ∧
  (∀ s : State, step s = stepWith engineParams s) ∧
  (∀ (i : Instr) (s : State), exec i s = execWith engineParams i s) ∧
  ∀ (P : Params F64) (s : State) (p : Packet) (i : Instr), s.cmd = some p → decode p = .ok i →
    stepWith P s = .next (deliver (engineStep P i s.engine ⟨s.mem.bit .bi, s.mem.sample .si⟩)
      { s with cmd := none })

/-- The model's choice (log entries 1 and 11) for 60_exceptions.md R241, R247: with no command at the port the
host makes its next move, or nothing changes; while a command is at the port the host makes no move. The
move `.issue` puts its packet at the command port and takes the last response away (30_encoding.md R83; log
entry 12), changing nothing else. -/
def Obligations.HostActsBetweenCommands : Prop :=
  (∀ s : State, s.cmd = none → s.host = [] → step s = .next s) ∧
  (∀ (s : State) (m : HostMove) (rest : List HostMove), s.cmd = none → s.host = m :: rest →
    step s = hostMove engineParams m { s with host := rest }) ∧
  (∀ (s : State) (p : Packet) (rest : List HostMove), s.cmd = none → s.host = .issue p :: rest →
    step s = .next { s with cmd := some p, resp := none, host := rest }) ∧
  ∀ (s t : State) (p : Packet), s.cmd = some p → step s = .next t → t.host = s.host

/-- 20_memory.md R51, 30_encoding.md R91 in the model's form (log entries 1 and 13): the host's write of bits
or samples puts them there and changes nothing else; one that reaches beyond the capacity of R50 faults. A
`.fill` is the write of n equal elements from index 0. -/
def Obligations.HostWritesLand : Prop :=
  (∀ (s : State) (rest : List HostMove) (space : BitSpace) (start : Nat) (vs : List Bool),
    s.cmd = none → s.host = .bits space start vs :: rest →
    (start + vs.length ≤ engineParams.bitbufCap →
      ∃ m, step s = .next { s with mem := m, host := rest } ∧
        (∀ j, m.bit space (start + j) = if j < vs.length then vs.getD j false else s.mem.bit space (start + j)) ∧
        (∀ sp j, sp ≠ space ∨ j < start → m.bit sp j = s.mem.bit sp j) ∧
        ∀ sp j, m.sample sp j = s.mem.sample sp j) ∧
    (engineParams.bitbufCap < start + vs.length →
      step s = .fault (.noSuchBit space (max start engineParams.bitbufCap)))) ∧
  (∀ (s : State) (rest : List HostMove) (space : SampleSpace) (start : Nat) (vs : List Sample),
    s.cmd = none → s.host = .samples space start vs :: rest →
    (start + vs.length ≤ engineParams.sampbufCap →
      ∃ m, step s = .next { s with mem := m, host := rest } ∧
        (∀ j, m.sample space (start + j) =
          if j < vs.length then vs.getD j ⟨0, 0⟩ else s.mem.sample space (start + j)) ∧
        (∀ sp j, sp ≠ space ∨ j < start → m.sample sp j = s.mem.sample sp j) ∧
        ∀ sp j, m.bit sp j = s.mem.bit sp j) ∧
    (engineParams.sampbufCap < start + vs.length →
      step s = .fault (.noSuchSample space (max start engineParams.sampbufCap)))) ∧
  (∀ (s : State) (rest : List HostMove) (space : BitSpace) (n : Nat) (v : Bool),
    s.cmd = none → s.host = .fillBits space n v :: rest →
    (n ≤ engineParams.bitbufCap →
      ∃ m, step s = .next { s with mem := m, host := rest } ∧
        (∀ j, m.bit space j = if j < n then v else s.mem.bit space j) ∧
        (∀ sp j, sp ≠ space → m.bit sp j = s.mem.bit sp j) ∧ ∀ sp j, m.sample sp j = s.mem.sample sp j) ∧
    (engineParams.bitbufCap < n → step s = .fault (.noSuchBit space engineParams.bitbufCap))) ∧
  ∀ (s : State) (rest : List HostMove) (space : SampleSpace) (n : Nat) (v : Sample),
    s.cmd = none → s.host = .fillSamples space n v :: rest →
    (n ≤ engineParams.sampbufCap →
      ∃ m, step s = .next { s with mem := m, host := rest } ∧
        (∀ j, m.sample space j = if j < n then v else s.mem.sample space j) ∧
        (∀ sp j, sp ≠ space → m.sample sp j = s.mem.sample sp j) ∧ ∀ sp j, m.bit sp j = s.mem.bit sp j) ∧
    (engineParams.sampbufCap < n → step s = .fault (.noSuchSample space engineParams.sampbufCap))

/-- 30_encoding.md R91, R272's channel in the model's form (log entry 14): `.channel ideal`, `.channel gain h`
and `.loopbits` copy the recorded number of elements and change nothing else. -/
def Obligations.ChannelCopies : Prop :=
  ∀ (s : State) (rest : List HostMove), s.cmd = none →
    (s.host = .channelIdeal :: rest → s.soLen ≤ engineParams.sampbufCap →
      ∃ m, step s = .next { s with mem := m, host := rest } ∧
        (∀ i, m.sample .si i = if i < s.soLen then s.mem.sample .so i else s.mem.sample .si i) ∧
        (∀ i, m.sample .so i = s.mem.sample .so i) ∧ ∀ sp i, m.bit sp i = s.mem.bit sp i) ∧
    (∀ h : Sample, s.host = .channelGain h :: rest → s.soLen ≤ engineParams.sampbufCap →
      ∃ m, step s = .next { s with mem := m, host := rest } ∧
        (∀ i, m.sample .si i =
          if i < s.soLen then cmul numF64 h (s.mem.sample .so i) else s.mem.sample .si i) ∧
        (∀ i, m.sample .so i = s.mem.sample .so i) ∧ ∀ sp i, m.bit sp i = s.mem.bit sp i) ∧
    (s.host = .loopBits :: rest → s.boLen ≤ engineParams.bitbufCap →
      ∃ m, step s = .next { s with mem := m, host := rest } ∧
        (∀ i, m.bit .bi i = if i < s.boLen then s.mem.bit .bo i else s.mem.bit .bi i) ∧
        (∀ i, m.bit .bo i = s.mem.bit .bo i) ∧ ∀ sp i, m.sample sp i = s.mem.sample sp i)

/-! ### Reset and the invariant -/

/-- 10_state.md R30, 70_reset_and_hazards.md R260, R261: after reset both contexts are UNCONFIGURED and there
is no command and no response; a reset between two commands does the same to the engine and leaves the
buffers alone. -/
def Obligations.ResetLeavesUnconfigured : Prop :=
  (∀ c, (State.reset.engine.ctx c).valid = false) ∧ State.reset.cmd = none ∧ State.reset.resp = none ∧
  ∀ (s : State) (rest : List HostMove), s.cmd = none → s.host = .reset :: rest →
    ∃ t, step s = .next t ∧ (∀ c, (t.engine.ctx c).valid = false) ∧ t.cmd = none ∧ t.resp = none ∧
      t.mem = s.mem

/-- The machine after reset meets the invariant. -/
def Obligations.InvariantAtReset : Prop := State.Inv State.reset

/-- Every step keeps the invariant: a constructed context stays as 10_state.md R29 says ("which CONSTRUCT
establishes and nothing can break"), the buffers stay in canonical form within the capacities of
20_memory.md R50, and the host's records stay within them. It does so at the default parameters and at any
others whose `NSC_MAX` is in the range of 00_scope.md R8. -/
def Obligations.StepKeepsInvariant : Prop :=
  (∀ s t : State, State.Inv s → step s = .next t → State.Inv t) ∧
  ∀ (P : Params F64) (s t : State), 4 ≤ P.nscMax → P.nscMax ≤ 2 ^ 28 → State.InvFor P s →
    stepWith P s = .next t → State.InvFor P t

/-- 10_state.md R22, R31: a step changes the engine state only by a reset, or by a CONSTRUCT that succeeds,
and then it writes one whole context and leaves the other. -/
def Obligations.ContextsChangeOnlyByConstruct : Prop :=
  ∀ s t : State, step s = .next t →
    t.engine = s.engine ∨
    (s.cmd = none ∧ (∃ rest, s.host = .reset :: rest) ∧ t.engine = State.reset.engine) ∨
    ∃ p c x order nsc cplen pevery k, s.cmd = some p ∧
      decode p = .ok (.construct c x order nsc cplen pevery) ∧
      buildCtx engineParams x order nsc cplen pevery = .ok k ∧
      t.engine.ctx c = k ∧ ∀ c', c' ≠ c → t.engine.ctx c' = s.engine.ctx c'

/-! ### Construction, roles, accessors -/

/-- 46_modulator.md R190, R191, R192: CONSTRUCT on a configuration that passes the checks writes every field
of the context and nothing else; on any other it answers `ConfigurationError` and changes nothing. -/
def Obligations.ConstructWritesContext : Prop :=
  ∀ (c x : BitVec 1) (order : BitVec 8) (nsc cplen pevery : Word) (s : State), legalOrder order = true →
    (4 ≤ nsc.toNat → nsc.toNat ≤ engineParams.nscMax → cplen.toNat < nsc.toNat →
      (computeRoles nsc.toNat pevery.toNat).count .data ≠ 0 →
      ∃ k : Ctx, exec (.construct c x order nsc cplen pevery) s =
          .next { s with engine := s.engine.setCtx c k, resp := some ⟨0, 0⟩ } ∧
        k.valid = true ∧ k.nsc = nsc ∧ k.cplen = cplen ∧ k.pevery = pevery ∧ k.order = order ∧
        k.xsel = x ∧ k.bps = order ∧ k.symlen.toNat = nsc.toNat + cplen.toNat ∧
        k.roles = computeRoles nsc.toNat pevery.toNat ∧
        k.npilot.toNat = k.roles.count .pilot ∧ k.ndata.toNat = k.roles.count .data ∧
        k.capbits.toNat = k.roles.count .data * order.toNat) ∧
    (nsc.toNat < 4 ∨ engineParams.nscMax < nsc.toNat ∨ nsc.toNat ≤ cplen.toNat ∨
        (computeRoles nsc.toNat pevery.toNat).count .data = 0 →
      exec (.construct c x order nsc cplen pevery) s = .next { s with resp := some ⟨0x01, 0⟩ })

/-- 43_frame_layout.md R140: the role of every index. -/
def Obligations.RoleTableByIndex : Prop :=
  ∀ N P : Nat, 4 ≤ N →
    (computeRoles N P).length = N ∧
    ∀ k, k < N →
      (computeRoles N P)[k]? =
        some (if k = 0 ∨ k = N - 1 then .guard else if 0 < P ∧ k % P = 0 then .pilot else .data)

/-- 43_frame_layout.md R141, R142: the counts in closed form, and the Pilot indices P, 2P, …, NPILOT × P. -/
def Obligations.RoleCounts : Prop :=
  ∀ N P : Nat, 4 ≤ N →
    (computeRoles N P).count .pilot = (if P = 0 then 0 else (N - 2) / P) ∧
    (computeRoles N P).count .data = N - 2 - (if P = 0 then 0 else (N - 2) / P) ∧
    (computeRoles N P).count .guard = 2 ∧
    (0 < P → pilotIndices (computeRoles N P) = (List.range ((N - 2) / P)).map fun i => (i + 1) * P)

/-- 43_frame_layout.md R143: there is no Data entry exactly when P = 1, and it is CONSTRUCT that refuses. -/
def Obligations.ZeroDataOnlyAtPeriodOne : Prop :=
  (∀ N P : Nat, 4 ≤ N → ((computeRoles N P).count .data = 0 ↔ P = 1)) ∧
  ∀ (c x : BitVec 1) (order : BitVec 8) (nsc cplen pevery : Word) (s : State), legalOrder order = true →
    4 ≤ nsc.toNat → nsc.toNat ≤ engineParams.nscMax → cplen.toNat < nsc.toNat →
    (pevery = 1 → exec (.construct c x order nsc cplen pevery) s = .next { s with resp := some ⟨0x01, 0⟩ }) ∧
    (pevery ≠ 1 → ∃ t, exec (.construct c x order nsc cplen pevery) s = .next t ∧ t.resp = some ⟨0, 0⟩ ∧
      (t.engine.ctx c).valid = true)

/-- 46_modulator.md R194, R195: the accessors, their laws, and their one error. -/
def Obligations.AccessorsAnswer : Prop :=
  ∀ (c : BitVec 1) (s : State),
    (Ready s c →
      exec (.getsymlen c) s = .next { s with resp := some ⟨0, (s.engine.ctx c).symlen⟩ } ∧
      exec (.getcap c) s = .next { s with resp := some ⟨0, (s.engine.ctx c).capbits⟩ }) ∧
    (¬ Ready s c →
      exec (.getsymlen c) s = .next { s with resp := some ⟨0x04, 0⟩ } ∧
      exec (.getcap c) s = .next { s with resp := some ⟨0x04, 0⟩ }) ∧
    (State.Inv s → Ready s c →
      (s.engine.ctx c).symlen.toNat = (s.engine.ctx c).nsc.toNat + (s.engine.ctx c).cplen.toNat ∧
      (s.engine.ctx c).capbits.toNat =
        (s.engine.ctx c).roles.count .data * (s.engine.ctx c).bps.toNat)

/-! ### The constellation mapper -/

/-- 41_constellation_mapper.md R113: `map` and MAP, with the length check made before `BI` is read. -/
def Obligations.MapAnswersPoint : Prop :=
  (∀ (bps : Nat) (g : List Bool),
    (g.length = bps → mapGroup engineParams bps g = .ok (defaultPoint bps (valOf g))) ∧
    (g.length ≠ bps → mapGroup engineParams bps g = .error .invalidBitGroupLength)) ∧
  ∀ (order : BitVec 8) (lenIn : Word) (s : State), legalOrder order = true →
    (lenIn.toNat = order.toNat →
      exec (.map order lenIn) s =
        .next (respond 1 (writeSO [defaultPoint order.toNat (valOf (inputGroup s 0 order.toNat))] s))) ∧
    (lenIn.toNat ≠ order.toNat → exec (.map order lenIn) s = .next { s with resp := some ⟨0x03, 0⟩ })

/-- 41_constellation_mapper.md R112, 00_scope.md R11: the index of a bit group is its value, first bit most
significant, and `bitsOf` is the binary form of an index. -/
def Obligations.PointIndexIsGroupValue : Prop :=
  (∀ g : List Bool,
    valOf g = ((List.range g.length).map fun i => (g.getD i false).toNat * 2 ^ (g.length - 1 - i)).sum) ∧
  ∀ n i : Nat, i < 2 ^ n →
    (bitsOf n i).length = n ∧ (∀ j, j < n → (bitsOf n i)[j]? = some (i.testBit (n - 1 - j)))

/-- 41_constellation_mapper.md R115: DEMAP writes the bit group of `SI[0]`, `bps` bits. -/
def Obligations.DemapAnswersGroup : Prop :=
  ∀ (order : BitVec 8) (s : State), legalOrder order = true →
    ∃ bits : List Bool, bits = demapBits engineParams order.toNat (s.mem.sample .si 0) ∧
      bits.length = order.toNat ∧
      exec (.demap order) s = .next (respond (order.setWidth 32) (writeBO bits s))

/-- 41_constellation_mapper.md R114 in `NUM_F64`, for a finite sample (93_implementation_defined.md U3, U4): the
index `demap` answers is below 2^bps, no point has a smaller computed squared distance, and every point of
a lower index has a greater one. -/
def Obligations.DemapScanIsLeast : Prop :=
  ∀ (order : BitVec 8) (z : Sample), legalOrder order = true →
    F64.isFinite z.re = true → F64.isFinite z.im = true →
    let d : Nat → F64 := fun j => dist2 numF64 z (defaultPoint order.toNat j)
    let i : Nat := demapIdx engineParams order.toNat z
    i < 2 ^ order.toNat ∧ (∀ j, j < 2 ^ order.toNat → F64.lt (d j) (d i) = false) ∧
      ∀ j, j < i → F64.lt (d i) (d j) = true

/-- 41_constellation_mapper.md R114 in `NUM_EXACT`: `demap` answers the bit group of the point at minimum
Euclidean distance, the lowest index among those as near. -/
def Obligations.DemapNearestExact : Prop :=
  ∀ (nscMax : Nat) (pilotRef : Cx ℝ) (txScale : Nat → ℝ) (xp : Provider ℝ) (bps : Nat) (z : Cx ℝ),
    ∃ i, i < 2 ^ bps ∧
      demapBits (exactParams nscMax pilotRef txScale xp) bps z = bitsOf bps i ∧
      (∀ j, j < 2 ^ bps → distance z (exactPoint bps i) ≤ distance z (exactPoint bps j)) ∧
      ∀ j, j < i → distance z (exactPoint bps i) < distance z (exactPoint bps j)

/-- 41_constellation_mapper.md R117: in `NUM_EXACT` a sample nearer than 1/sqrt(E_M) to a default table point
demaps to that point's bit group. -/
def Obligations.DemapWithinRadiusExact : Prop :=
  ∀ (nscMax : Nat) (pilotRef : Cx ℝ) (txScale : Nat → ℝ) (xp : Provider ℝ) (order : BitVec 8) (z : Cx ℝ)
    (i : Nat), legalOrder order = true → i < 2 ^ order.toNat →
    distance z (exactPoint order.toNat i) < 1 / Real.sqrt (energyOf order.toNat) →
    demapBits (exactParams nscMax pilotRef txScale xp) order.toNat z = bitsOf order.toNat i

/-- 41_constellation_mapper.md R116: the bijection law over any scalar format and table that meet its
premises (`DemapPremises`, which says where the rule's own premises fall short). -/
def Obligations.MapDemapBijection : Prop :=
  ∀ (T : Type) (P : Params T) (bps : Nat), DemapPremises P bps →
    (∀ g : List Bool, g.length = bps → ∃ z, mapGroup P bps g = .ok z ∧ demapBits P bps z = g) ∧
    ∀ i, i < 2 ^ bps → mapGroup P bps (demapBits P bps (P.point bps i)) = .ok (P.point bps i)

/-- 41_constellation_mapper.md R116's last sentence but one: `NUM_F64` and `NUM_EXACT` with the default table
both satisfy the premises, at every order. -/
def Obligations.DefaultTableMeetsPremises : Prop :=
  ∀ (order : BitVec 8), legalOrder order = true →
    DemapPremises engineParams order.toNat ∧
    ∀ (nscMax : Nat) (pilotRef : Cx ℝ) (txScale : Nat → ℝ) (xp : Provider ℝ),
      DemapPremises (exactParams nscMax pilotRef txScale xp) order.toNat

/-- 42_constellation_tables.md R134, 41_constellation_mapper.md R111: the default tables have distinct points,
unit mean power, the Gray property and finite entries. So the default parameters are in the ranges of
00_scope.md R8, and those of `NUM_EXACT` are when their arguments are. The tolerance of `NUM_F64`'s unit
power is the model's (log entry 26). -/
def Obligations.DefaultTableContract : Prop :=
  Params.Legal engineParams f64Reading ∧
  (∀ (nscMax : Nat) (pilotRef : Cx ℝ) (txScale : Nat → ℝ) (xp : Provider ℝ), 4 ≤ nscMax → nscMax ≤ 2 ^ 28 →
    pilotRef ≠ ⟨0, 0⟩ → (∀ N, 4 ≤ N → N ≤ nscMax → 0 < txScale N) →
    Params.Legal (exactParams nscMax pilotRef txScale xp) exactReading) ∧
  ∀ order : BitVec 8, legalOrder order = true →
    let bps := order.toNat
    (∀ i j, i < 2 ^ bps → j < 2 ^ bps → i ≠ j →
      defaultPoint bps i ≠ defaultPoint bps j ∧
      2 / Real.sqrt (energyOf bps) ≤ distance (exactPoint bps i) (exactPoint bps j) ∧
      (distance (exactPoint bps i) (exactPoint bps j) = 2 / Real.sqrt (energyOf bps) →
        ((List.range bps).filter fun b => i.testBit b != j.testBit b).length = 1)) ∧
    ((List.range (2 ^ bps)).map fun i => (exactPoint bps i).re ^ 2 + (exactPoint bps i).im ^ 2).sum =
      (2 : ℝ) ^ bps ∧
    ∀ i, i < 2 ^ bps →
      F64.isFinite (defaultPoint bps i).re = true ∧ F64.isFinite (defaultPoint bps i).im = true

/-- 42_constellation_tables.md R133: the constant of each order and positive level is the binary64 nearest to
L / sqrt(E_M), and that of the negative level is the same with the sign bit set. So every entry of the tables
is `NUM.ofReal` of its two levels over sqrt(E_M), in both formats. -/
def Obligations.RomHoldsNearestScalars : Prop :=
  (∀ bps level : Nat,
    (bps, level) ∈ [(2, 1), (4, 1), (4, 3), (6, 1), (6, 3), (6, 5), (6, 7), (8, 1), (8, 3), (8, 5), (8, 7),
      (8, 9), (8, 11), (8, 13), (8, 15)] →
    NearestTo ((level : ℝ) / Real.sqrt (energyOf bps)) (levelScalar bps level) ∧
    levelScalar bps (-(level : Int)) = levelScalar bps level ||| 0x8000000000000000#64) ∧
  ∀ bps ∈ [2, 4, 6, 8], ∀ i < 2 ^ bps,
    let xI : ℝ := (pointLevels bps i).1 / Real.sqrt (energyOf bps)
    let xQ : ℝ := (pointLevels bps i).2 / Real.sqrt (energyOf bps)
    defaultPoint bps i = ⟨numF64.ofReal xI, numF64.ofReal xQ⟩ ∧
      exactPoint bps i = ⟨numExact.ofReal xI, numExact.ofReal xQ⟩

/-! ### The frame layout -/

/-- 43_frame_layout.md R145: B2F's vector entry by entry, and its two errors. -/
def Obligations.B2fBuildsFrequencyVector : Prop :=
  ∀ (c : BitVec 1) (lenIn : Word) (s : State),
    let k := s.engine.ctx c
    (Ctx.Inv k → Ready s c → lenIn = k.capbits →
      ∃ V : List Sample, exec (.b2f c lenIn) s = .next (respond k.nsc (writeSO V s)) ∧ V.length = k.nsc.toNat ∧
        ∀ d, d < k.nsc.toNat →
          (k.roles[d]? = some .guard → V[d]? = some ⟨0, 0⟩) ∧
          (k.roles[d]? = some .pilot → V[d]? = some engineParams.pilotRef) ∧
          (k.roles[d]? = some .data →
            V[d]? = some (defaultPoint k.bits
              (valOf (inputGroup s (rankOf .data k.roles d * k.bits) k.bits))))) ∧
    (Ready s c → lenIn ≠ k.capbits → exec (.b2f c lenIn) s = .next { s with resp := some ⟨0x02, 0⟩ }) ∧
    (¬ Ready s c → exec (.b2f c lenIn) s = .next { s with resp := some ⟨0x04, 0⟩ })

/-- 43_frame_layout.md R147: F2B's bits, group by group, from the Data entries of `SI` alone, and its two
errors. -/
def Obligations.F2bReadsDataEntries : Prop :=
  ∀ (c : BitVec 1) (lenIn : Word) (s : State),
    let k := s.engine.ctx c
    (Ctx.Inv k → Ready s c → lenIn = k.nsc →
      ∃ bits : List Bool, exec (.f2b c lenIn) s = .next (respond k.capbits (writeBO bits s)) ∧
        bits.length = k.capbits.toNat ∧
        ∀ d, k.roles[d]? = some .data → ∀ b, b < k.bits →
          bits[rankOf .data k.roles d * k.bits + b]? =
            (demapBits engineParams k.bits (s.mem.sample .si d))[b]?) ∧
    (Ready s c → lenIn ≠ k.nsc → exec (.f2b c lenIn) s = .next { s with resp := some ⟨0x02, 0⟩ }) ∧
    (¬ Ready s c → exec (.f2b c lenIn) s = .next { s with resp := some ⟨0x04, 0⟩ })

/-- 43_frame_layout.md R148: building a vector and parsing it gives the bits back, for every constructed context
of every engine whose scalar format and table meet R116's premises. -/
def Obligations.LayoutRoundTrip : Prop :=
  ∀ (T : Type) (P : Params T) (k : Ctx) (b : List Bool), Ctx.InvFor P k → k.valid = true →
    DemapPremises P k.bits → b.length = k.capbits.toNat →
    ∃ V, bitsToFreq P k b = .ok V ∧ freqToBits P k V = b

/-! ### The transform provider -/

/-- 44_transform_provider.md R161, R167, R168, R169: XFWD and XINV answer what the selected provider answers,
entry by entry, unchanged; and their two errors. -/
def Obligations.WrapperAnswersProvider : Prop :=
  ∀ (c : BitVec 1) (lenIn : Word) (s : State),
    let k := s.engine.ctx c
    let prov : Provider F64 := if k.xsel = 0 then directProvider numF64 twiddle else Config.xp
    let x : List Sample := (List.range k.nsc.toNat).map (s.mem.sample .si)
    (Ready s c → lenIn = k.nsc →
      (∃ X : List Sample, exec (.xfwd c lenIn) s = .next (respond k.nsc (writeSO X s)) ∧
        X.length = k.nsc.toNat ∧ ∀ j, j < k.nsc.toNat → X[j]? = some (prov .forward k.nsc.toNat x j)) ∧
      ∃ X : List Sample, exec (.xinv c lenIn) s = .next (respond k.nsc (writeSO X s)) ∧
        X.length = k.nsc.toNat ∧ ∀ j, j < k.nsc.toNat → X[j]? = some (prov .inverse k.nsc.toNat x j)) ∧
    (Ready s c → lenIn ≠ k.nsc →
      exec (.xfwd c lenIn) s = .next { s with resp := some ⟨0x02, 0⟩ } ∧
      exec (.xinv c lenIn) s = .next { s with resp := some ⟨0x02, 0⟩ }) ∧
    (¬ Ready s c →
      exec (.xfwd c lenIn) s = .next { s with resp := some ⟨0x04, 0⟩ } ∧
      exec (.xinv c lenIn) s = .next { s with resp := some ⟨0x04, 0⟩ })

/-- 44_transform_provider.md R165: in `NUM_EXACT` the default provider is the unscaled forward transform and the
1/N-scaled inverse. -/
def Obligations.ExactDefaultProviderIsDft : Prop :=
  ∀ (N : Nat) (x : List (Cx ℝ)) (k : Nat), 1 ≤ N → x.length = N → k < N →
    complexOf (exactProvider .forward N x k) =
      ∑ n ∈ Finset.range N,
        complexOf (x.getD n ⟨0, 0⟩) * Complex.exp (-(2 * Real.pi * k * n / N : ℝ) * Complex.I) ∧
    complexOf (exactProvider .inverse N x k) =
      (1 / (N : ℂ)) * ∑ n ∈ Finset.range N,
        complexOf (x.getD n ⟨0, 0⟩) * Complex.exp ((2 * Real.pi * k * n / N : ℝ) * Complex.I)

/-- 44_transform_provider.md R162, R163, R165, R170: in `NUM_EXACT` the default provider has `PROV.PAIR`, `PROV.DFT`
and `PROV.LINEAR` at every length, so that it meets the contract whatever `NSC_MAX` is; a provider with
`PROV.DFT` has the two others and sends a sum to the sum; and of two providers of one convention either undoes
the other. -/
def Obligations.DftProvidersMeetContract : Prop :=
  (∀ N : Nat, 1 ≤ N → ProviderPair exactProvider N ∧ ProviderDft exactProvider N ∧ ProviderScales exactProvider N) ∧
  (∀ nscMax : Nat, ProviderContract exactProvider nscMax) ∧
  (∀ (p : Provider ℝ) (N : Nat), 1 ≤ N → ProviderDft p N →
    ProviderPair p N ∧ ProviderScales p N ∧
    ∀ (dir : Dir) (x y : List (Cx ℝ)), x.length = N → y.length = N →
      askProvider p dir (List.zipWith (cadd numExact) x y) =
        List.zipWith (cadd numExact) (askProvider p dir x) (askProvider p dir y)) ∧
  ∀ (p q : Provider ℝ) (N : Nat) (aF aI : ℝ), 1 ≤ N → ProviderConvention p N aF aI →
    ProviderConvention q N aF aI → ∀ X : List (Cx ℝ), X.length = N →
      askProvider q .forward (askProvider p .inverse X) = X ∧
        askProvider q .inverse (askProvider p .forward X) = X

/-! ### The cyclic prefix -/

/-- 45_cyclic_prefix.md R182 (with R180's formula): CPADD sample by sample, and its two errors. -/
def Obligations.CpaddCopies : Prop :=
  ∀ (c : BitVec 1) (lenIn : Word) (s : State),
    let k := s.engine.ctx c
    (Ctx.Inv k → Ready s c → lenIn = k.nsc →
      ∃ y : List Sample, exec (.cpadd c lenIn) s = .next (respond k.symlen (writeSO y s)) ∧
        y.length = k.nsc.toNat + k.cplen.toNat ∧
        (∀ i, i < k.cplen.toNat → y[i]? = some (s.mem.sample .si (k.nsc.toNat - k.cplen.toNat + i))) ∧
        ∀ i, k.cplen.toNat ≤ i → i < k.nsc.toNat + k.cplen.toNat →
          y[i]? = some (s.mem.sample .si (i - k.cplen.toNat))) ∧
    (Ready s c → lenIn ≠ k.nsc → exec (.cpadd c lenIn) s = .next { s with resp := some ⟨0x02, 0⟩ }) ∧
    (¬ Ready s c → exec (.cpadd c lenIn) s = .next { s with resp := some ⟨0x04, 0⟩ })

/-- 45_cyclic_prefix.md R183 (with R181's formula): CPSTRIP sample by sample, and its two errors. -/
def Obligations.CpstripCopies : Prop :=
  ∀ (c : BitVec 1) (lenIn : Word) (s : State),
    let k := s.engine.ctx c
    (Ctx.Inv k → Ready s c → lenIn = k.symlen →
      ∃ y : List Sample, exec (.cpstrip c lenIn) s = .next (respond k.nsc (writeSO y s)) ∧
        y.length = k.nsc.toNat ∧
        ∀ i, i < k.nsc.toNat → y[i]? = some (s.mem.sample .si (k.cplen.toNat + i))) ∧
    (Ready s c → lenIn ≠ k.symlen → exec (.cpstrip c lenIn) s = .next { s with resp := some ⟨0x02, 0⟩ }) ∧
    (¬ Ready s c → exec (.cpstrip c lenIn) s = .next { s with resp := some ⟨0x04, 0⟩ })

/-- 45_cyclic_prefix.md R185: the laws of `prepend` and `strip`, on sequences of anything. In the last law
`prepend` is asked for more samples than `strip` leaves when 2 L > len(x), where R180 leaves it undefined:
that the law's left side is then false rests on the model's choice (log entry 25). -/
def Obligations.PrefixLaws : Prop :=
  ∀ (α : Type) (x : List α) (L : Nat), L ≤ x.length →
    (prepend x L).length = x.length + L ∧ (strip x L).length = x.length - L ∧
    strip (prepend x L) L = x ∧ prepend x 0 = x ∧ strip x 0 = x ∧
    (∀ i, i < L → (prepend x L)[i]? = (prepend x L)[i + x.length]?) ∧
    (prepend (strip x L) L = x ↔ 2 * L ≤ x.length ∧ x.take L = x.drop (x.length - L))

/-! ### The modulator and the demodulator -/

/-- 46_modulator.md R196, R197: MODULATE's symbol sample by sample, and its errors. -/
def Obligations.ModulateComposes : Prop :=
  ∀ (c : BitVec 1) (lenIn lenOut : Word) (s : State),
    let k := s.engine.ctx c
    let N := k.nsc.toNat
    let CP := k.cplen.toNat
    let prov : Provider F64 := if k.xsel = 0 then directProvider numF64 twiddle else Config.xp
    (Ctx.Inv k → Ready s c → lenIn = k.capbits → lenOut = k.symlen →
      ∃ V y : List Sample, bitsToFreq engineParams k (inputGroup s 0 k.capbits.toNat) = .ok V ∧
        exec (.modulate c lenIn lenOut) s = .next (respond 0 (writeSO y s)) ∧ y.length = k.symlen.toNat ∧
        (∀ i, i < CP → y[i]? = some (cscale numF64 (F64.sqrtNat N) (prov .inverse N V (N - CP + i)))) ∧
        ∀ i, CP ≤ i → i < N + CP →
          y[i]? = some (cscale numF64 (F64.sqrtNat N) (prov .inverse N V (i - CP)))) ∧
    (Ready s c → lenIn ≠ k.capbits ∨ lenOut ≠ k.symlen →
      exec (.modulate c lenIn lenOut) s = .next { s with resp := some ⟨0x02, 0⟩ }) ∧
    (¬ Ready s c → exec (.modulate c lenIn lenOut) s = .next { s with resp := some ⟨0x04, 0⟩ })

/-- 46_modulator.md R197's default, `NUM.ofReal(sqrt(N))`: the scale is that, the binary64 nearest to the square
root, at every length the engine accepts. 44_transform_provider.md R166's table: both parts of each twiddle factor
are finite and within 2^−53 of cos(2πm/N) and −sin(2πm/N), the bound of one rounding of a number of
magnitude at most 1 (log entry 10), and the four factors on the axes are the exact ones. -/
def Obligations.ScaleAndTwiddlesAreRounded : Prop :=
  (∀ N : Nat, 1 ≤ N → N ≤ 4096 →
    F64.sqrtNat N = numF64.ofReal (Real.sqrt N) ∧ NearestTo (Real.sqrt N) (F64.sqrtNat N)) ∧
  ∀ N m : Nat, 1 ≤ N → N ≤ 4096 → m < N →
    F64.isFinite (twiddle N m).re = true ∧ F64.isFinite (twiddle N m).im = true ∧
    |realOf (twiddle N m).re - Real.cos (2 * Real.pi * m / N)| ≤ 1 / 2 ^ 53 ∧
    |realOf (twiddle N m).im - -Real.sin (2 * Real.pi * m / N)| ≤ 1 / 2 ^ 53 ∧
    (m = 0 → realOf (twiddle N m).re = 1 ∧ realOf (twiddle N m).im = 0) ∧
    (4 * m = N → realOf (twiddle N m).re = 0 ∧ realOf (twiddle N m).im = -1) ∧
    (2 * m = N → realOf (twiddle N m).re = -1 ∧ realOf (twiddle N m).im = 0) ∧
    (4 * m = 3 * N → realOf (twiddle N m).re = 0 ∧ realOf (twiddle N m).im = 1)

/-- 46_modulator.md R198: two MODULATE commands on contexts of equal configuration with equal bit buffers
answer the same and write bit-identical samples. -/
def Obligations.ModulateIsDeterministic : Prop :=
  ∀ (c c' : BitVec 1) (lenIn lenOut : Word) (s s' t t' : State),
    Ctx.Inv (s.engine.ctx c) → s.engine.ctx c = s'.engine.ctx c' →
    (∀ j, j < lenIn.toNat → s.mem.bit .bi j = s'.mem.bit .bi j) →
    exec (.modulate c lenIn lenOut) s = .next t → exec (.modulate c' lenIn lenOut) s' = .next t' →
    t.resp = t'.resp ∧
      (t.resp = some ⟨0, 0⟩ → ∀ j, j < (s.engine.ctx c).symlen.toNat → t.mem.sample .so j = t'.mem.sample .so j)

/-- 46_modulator.md R200: MODULATE writes the samples that B2F, a copy of `SO` to `SI`, XINV, the host's
multiplication by the scale, and CPADD write. -/
def Obligations.ModulateIsLevelTwoSequence : Prop :=
  ∀ (c : BitVec 1) (s : State),
    let k := s.engine.ctx c
    Ctx.Inv k → Ready s c →
    ∃ s1 s2 s3 t, ∃ carried scaled : List Sample,
      exec (.b2f c k.capbits) s = .next s1 ∧
      carried = (List.range k.nsc.toNat).map (s1.mem.sample .so) ∧
      exec (.xinv c k.nsc) { s1 with mem := s1.mem.writeSamples .si 0 carried } = .next s2 ∧
      scaled = (List.range k.nsc.toNat).map
        (fun i => cscale numF64 (F64.sqrtNat k.nsc.toNat) (s2.mem.sample .so i)) ∧
      exec (.cpadd c k.nsc) { s2 with mem := s2.mem.writeSamples .si 0 scaled } = .next s3 ∧
      exec (.modulate c k.capbits k.symlen) s = .next t ∧
      s1.resp = some ⟨0, k.nsc⟩ ∧ s2.resp = some ⟨0, k.nsc⟩ ∧ s3.resp = some ⟨0, k.symlen⟩ ∧
      t.resp = some ⟨0, 0⟩ ∧
      ∀ i, i < k.symlen.toNat → t.mem.sample .so i = s3.mem.sample .so i

/-- 47_demodulator.md R210, R211, R212, R213, R214, R216, R217: DEMODULATE's bits, group by group: `F2` is the
scaled forward transform of the core samples; a Data entry is divided by the gain of its nearest pilot,
unless that gain is exactly zero, or there are no pilots; and its errors. -/
def Obligations.DemodulateAnswers : Prop :=
  ∀ (c : BitVec 1) (lenIn : Word) (s : State),
    let k := s.engine.ctx c
    let N := k.nsc.toNat
    let prov : Provider F64 := if k.xsel = 0 then directProvider numF64 twiddle else Config.xp
    let core : List Sample := (List.range N).map fun i => s.mem.sample .si (k.cplen.toNat + i)
    let F2 : Nat → Sample := fun j =>
      cscale numF64 (F64.div (F64.ofInt 1) (F64.sqrtNat N)) (prov .forward N core j)
    (Ctx.Inv k → Ready s c → lenIn = k.symlen →
      ∃ bits : List Bool, exec (.demodulate c lenIn) s = .next (respond k.capbits (writeBO bits s)) ∧
        bits.length = k.capbits.toNat ∧
        ∀ d, k.roles[d]? = some .data → ∀ b, b < k.bits →
          (k.npilot = 0 →
            bits[rankOf .data k.roles d * k.bits + b]? = (demapBits engineParams k.bits (F2 d))[b]?) ∧
          (k.npilot ≠ 0 → ∃ p, IsNearestPilot k.roles d p ∧
            let gain := cdiv numF64 (F2 p) engineParams.pilotRef
            bits[rankOf .data k.roles d * k.bits + b]? =
              (demapBits engineParams k.bits
                (if iszero numF64 gain then F2 d else cdiv numF64 (F2 d) gain))[b]?)) ∧
    (Ready s c → lenIn ≠ k.symlen → exec (.demodulate c lenIn) s = .next { s with resp := some ⟨0x02, 0⟩ }) ∧
    (¬ Ready s c → exec (.demodulate c lenIn) s = .next { s with resp := some ⟨0x04, 0⟩ })

/-- 47_demodulator.md R214: the scan answers the nearest Pilot index, ties to the lower one, whenever there is
one. -/
def Obligations.NearestPilotIsNearest : Prop :=
  ∀ (roles : List Role) (d : Nat), (∃ q : Nat, roles[q]? = some .pilot) →
    ∃ p, (pilotIndices roles)[nearestPilot (pilotIndices roles) d]? = some p ∧ IsNearestPilot roles d p

/-- 47_demodulator.md R215: the closed form of the nearest pilot under the placement rule of
43_frame_layout.md R140. -/
def Obligations.NearestPilotClosedForm : Prop :=
  ∀ N P d : Nat, 4 ≤ N → 1 ≤ P → P ≤ N - 2 → (computeRoles N P)[d]? = some .data →
    IsNearestPilot (computeRoles N P) d
      (if d / P = 0 then P
       else if (N - 2) / P ≤ d / P then (N - 2) / P * P
       else if 2 * (d % P) ≤ P then d / P * P
       else (d / P + 1) * P)

/-- 47_demodulator.md R219, R221: in `NUM_EXACT`, over an ideal channel, demodulating what was modulated gives
the bits back, for every configuration, every non-zero pilot reference (so the decoded bits do not depend on
it), every positive scale, and every pair of providers of one convention. The same at the level of the
commands (00_scope.md R18): MODULATE on context 0 answers the symbol, and DEMODULATE of it on context 1
answers the bits. -/
def Obligations.RoundTripIdealChannel : Prop :=
  ∀ (nscMax : Nat) (pilotRef : Cx ℝ) (txScale : Nat → ℝ) (xp : Provider ℝ) (x x' : BitVec 1)
    (order : BitVec 8) (nsc cplen pevery : Word) (a b : Ctx) (bits : List Bool),
    nscMax ≤ 2 ^ 28 → legalOrder order = true → pilotRef ≠ ⟨0, 0⟩ → 0 < txScale nsc.toNat →
    buildCtx (exactParams nscMax pilotRef txScale xp) x order nsc cplen pevery = .ok a →
    buildCtx (exactParams nscMax pilotRef txScale xp) x' order nsc cplen pevery = .ok b →
    (∀ X : List (Cx ℝ), X.length = nsc.toNat →
      askProvider (providerOf (exactParams nscMax pilotRef txScale xp) b) .forward
        (askProvider (providerOf (exactParams nscMax pilotRef txScale xp) a) .inverse X) = X) →
    ProviderScales (providerOf (exactParams nscMax pilotRef txScale xp) b) nsc.toNat →
    bits.length = a.capbits.toNat →
    ∃ y, modulateSymbol (exactParams nscMax pilotRef txScale xp) a bits = .ok y ∧
      demodulateSymbol (exactParams nscMax pilotRef txScale xp) b y = bits ∧
      ∀ (samples : Nat → Cx ℝ) (rest : Nat → Bool),
        engineStep (exactParams nscMax pilotRef txScale xp) (.modulate 0 a.capbits a.symlen) ⟨a, b⟩
          ⟨fun j => bits.getD j false, samples⟩ = .samples 0 y ∧
        engineStep (exactParams nscMax pilotRef txScale xp) (.demodulate 1 b.symlen) ⟨a, b⟩
          ⟨rest, fun j => y.getD j ⟨0, 0⟩⟩ = .bits b.capbits bits

/-- 47_demodulator.md R220: in `NUM_EXACT`, with at least one pilot, a flat channel of non-zero complex gain is
equalized away. -/
def Obligations.FlatChannelRecovered : Prop :=
  ∀ (nscMax : Nat) (pilotRef : Cx ℝ) (txScale : Nat → ℝ) (xp : Provider ℝ) (x x' : BitVec 1)
    (order : BitVec 8) (nsc cplen pevery : Word) (a b : Ctx) (bits : List Bool) (h : Cx ℝ),
    nscMax ≤ 2 ^ 28 → legalOrder order = true → pilotRef ≠ ⟨0, 0⟩ → 0 < txScale nsc.toNat →
    buildCtx (exactParams nscMax pilotRef txScale xp) x order nsc cplen pevery = .ok a →
    buildCtx (exactParams nscMax pilotRef txScale xp) x' order nsc cplen pevery = .ok b →
    (∀ X : List (Cx ℝ), X.length = nsc.toNat →
      askProvider (providerOf (exactParams nscMax pilotRef txScale xp) b) .forward
        (askProvider (providerOf (exactParams nscMax pilotRef txScale xp) a) .inverse X) = X) →
    ProviderScales (providerOf (exactParams nscMax pilotRef txScale xp) b) nsc.toNat →
    bits.length = a.capbits.toNat → h ≠ ⟨0, 0⟩ → b.npilot ≠ 0 →
    ∃ y, modulateSymbol (exactParams nscMax pilotRef txScale xp) a bits = .ok y ∧
      demodulateSymbol (exactParams nscMax pilotRef txScale xp) b (y.map (cmul numExact h)) = bits

/-- 47_demodulator.md R216, R220: in `NUM_EXACT`, with at least one pilot: a gain that is exactly zero leaves the
received entry as it is, whatever that is; when every received pilot is zero every gain is zero and all Data
entries pass as they are; and a channel of gain zero does that, so that every Data entry demaps as the origin,
index 0, 5, 18 or 68. A quotient by zero is a free value here (log entry 27), so nothing but
the fallback gives this. -/
def Obligations.ZeroChannelFallsBack : Prop :=
  ∀ (nscMax : Nat) (pilotRef : Cx ℝ) (txScale : Nat → ℝ) (xp : Provider ℝ) (x : BitVec 1)
    (order : BitVec 8) (nsc cplen pevery : Word) (k : Ctx),
    nscMax ≤ 2 ^ 28 → legalOrder order = true → pilotRef ≠ ⟨0, 0⟩ →
    buildCtx (exactParams nscMax pilotRef txScale xp) x order nsc cplen pevery = .ok k →
    ProviderScales (providerOf (exactParams nscMax pilotRef txScale xp) k) nsc.toNat → k.npilot ≠ 0 →
    (∀ received gain : Cx ℝ, iszero numExact gain = true →
      equalizeEntry (exactParams nscMax pilotRef txScale xp) received gain = received) ∧
    (∀ F2 : List (Cx ℝ),
      (∀ p ∈ pilotIndices k.roles, entryAt (exactParams nscMax pilotRef txScale xp) F2 p = ⟨0, 0⟩) →
      (∀ g ∈ pilotGains (exactParams nscMax pilotRef txScale xp) (pilotIndices k.roles) F2,
        iszero numExact g = true) ∧
      equalized (exactParams nscMax pilotRef txScale xp) k F2 =
        (dataIndices k.roles).map (entryAt (exactParams nscMax pilotRef txScale xp) F2)) ∧
    (∀ g ∈ pilotGains (exactParams nscMax pilotRef txScale xp) (pilotIndices k.roles)
        (receivedVector (exactParams nscMax pilotRef txScale xp) k (List.replicate k.symlen.toNat ⟨0, 0⟩)),
      iszero numExact g = true) ∧
    demodulateSymbol (exactParams nscMax pilotRef txScale xp) k (List.replicate k.symlen.toNat ⟨0, 0⟩) =
      (List.replicate k.ndata.toNat
        (bitsOf order.toNat (if order = 2 then 0 else if order = 4 then 5 else if order = 6 then 18 else 68))).flatten

/-! ### Errors and responses -/

/-- 60_exceptions.md R234: a command that names an unconstructed context is refused, whatever its lengths;
CONSTRUCT, MAP and DEMAP never answer `NotConstructed`. -/
def Obligations.NotConstructedRefused : Prop :=
  (∀ (c : BitVec 1) (a b : Word) (s : State), ¬ Ready s c →
    ∀ i ∈ [Instr.getsymlen c, .getcap c, .modulate c a b, .demodulate c a, .b2f c a, .f2b c a, .xfwd c a,
      .xinv c a, .cpadd c a, .cpstrip c a],
      exec i s = .next { s with resp := some ⟨0x04, 0⟩ }) ∧
  ∀ (c x : BitVec 1) (order : BitVec 8) (n l p a : Word) (s t : State),
    ∀ i ∈ [Instr.construct c x order n l p, .map order a, .demap order],
      exec i s = .next t → t.resp ≠ some ⟨0x04, 0⟩

/-- 60_exceptions.md R232 with the lengths of 20_memory.md R53: a wrong length is `BufferSizeMismatch` and
nothing else changes. -/
def Obligations.BufferSizeMismatchRefused : Prop :=
  ∀ (c : BitVec 1) (a b : Word) (s : State), Ready s c →
    let k := s.engine.ctx c
    (a ≠ k.capbits ∨ b ≠ k.symlen → exec (.modulate c a b) s = .next { s with resp := some ⟨0x02, 0⟩ }) ∧
    (a ≠ k.symlen →
      ∀ i ∈ [Instr.demodulate c a, .cpstrip c a], exec i s = .next { s with resp := some ⟨0x02, 0⟩ }) ∧
    (a ≠ k.capbits → exec (.b2f c a) s = .next { s with resp := some ⟨0x02, 0⟩ }) ∧
    (a ≠ k.nsc →
      ∀ i ∈ [Instr.f2b c a, .xfwd c a, .xinv c a, .cpadd c a],
        exec i s = .next { s with resp := some ⟨0x02, 0⟩ })

/-- 60_exceptions.md R236: an error is its code with VALUE 0, and nothing else changes: the state after a
failed command is the state before it, but for the ports. -/
def Obligations.ErrorsChangeNothing : Prop :=
  (∀ (i : Instr) (s t : State) (r : Response), exec i s = .next t → t.resp = some r → r.status ≠ 0 →
    t = { s with resp := some r } ∧ r.value = 0 ∧ ∃ e : EngineError, r.status = e.code) ∧
  ∀ (s t : State) (p : Packet) (r : Response), s.cmd = some p → step s = .next t → t.resp = some r →
    r.status ≠ 0 → t = { s with cmd := none, resp := some r }

/-- 60_exceptions.md R244, R243: `IllegalCommand` from the packet alone, then `NotConstructed`, then the
command's own error and no other kind. -/
def Obligations.ErrorPriority : Prop :=
  ∀ (s : State) (p : Packet), State.Inv s → s.cmd = some p →
    ∃ t r, step s = .next t ∧ t.resp = some r ∧
      (∀ e, decode p = .error e → r = ⟨0x05, 0⟩) ∧
      ∀ i, decode p = .ok i →
        (∀ c, usedContext i = some c → ¬ Ready s c → r = ⟨0x04, 0⟩) ∧
        ((∀ c, usedContext i = some c → Ready s c) →
          r.status = 0 ∨ ∃ e, ownError i = some e ∧ r = ⟨e.code, 0⟩)

/-- 30_encoding.md R83: one response follows each command; STATUS stands above VALUE in its 40 bits; an error
has VALUE 0 and a success the VALUE the rule lists. -/
def Obligations.ResponsesCarryValue : Prop :=
  (∀ (s : State) (p : Packet), s.cmd = some p →
    ∃ t r, step s = .next t ∧ t.cmd = none ∧ t.resp = some r ∧
      r.bits.extractLsb' 32 8 = r.status ∧ r.bits.extractLsb' 0 32 = r.value) ∧
  ∀ (i : Instr) (s t : State), State.Inv s → i.wellFormed = true → exec i s = .next t →
    ∃ r, t.resp = some r ∧ (r.status ≠ 0 → r.value = 0) ∧
      (r.status = 0 → r.value.toNat = successValue i s.engine)

/-! ### Frames -/

/-- 20_memory.md R50, R54, 10_state.md R22: what MODULATE, MAP, B2F, XFWD, XINV, CPADD and CPSTRIP leave
unchanged: the contexts, the ports, the host, `BI`, `BO`, `SI`, and `SO` beyond the elements written. And
what they write (00_scope.md R16, `MemWrite`): after `respond v (writeSO vs s)`, in which their successes are
stated, element j of `SO` is `vs[j]`, the response is 0/v, and the host has recorded the length. -/
def Obligations.SampleWritersFrame : Prop :=
  (∀ (v : Word) (vs : List Sample) (s : State),
    (respond v (writeSO vs s)).resp = some ⟨0, v⟩ ∧ (respond v (writeSO vs s)).soLen = vs.length ∧
    ∀ j, j < vs.length → some ((respond v (writeSO vs s)).mem.sample .so j) = vs[j]?) ∧
  ∀ (c : BitVec 1) (order : BitVec 8) (a b : Word) (s t : State), (∀ c, Ctx.Inv (s.engine.ctx c)) →
    ∀ i ∈ [Instr.modulate c a b, .map order a, .b2f c a, .xfwd c a, .xinv c a, .cpadd c a, .cpstrip c a],
      exec i s = .next t →
      t.engine = s.engine ∧ t.cmd = s.cmd ∧ t.host = s.host ∧ t.boLen = s.boLen ∧
      (∀ sp j, t.mem.bit sp j = s.mem.bit sp j) ∧ (∀ j, t.mem.sample .si j = s.mem.sample .si j) ∧
      ∀ j, samplesWritten i s.engine ≤ j → t.mem.sample .so j = s.mem.sample .so j

/-- 20_memory.md R50, R54, 10_state.md R22: what DEMODULATE, DEMAP and F2B leave unchanged; and what they write
(00_scope.md R16, `MemWrite`): after `respond v (writeBO vs s)`, in which their successes are stated, element j
of `BO` is `vs[j]`, the response is 0/v, and the host has recorded the length. -/
def Obligations.BitWritersFrame : Prop :=
  (∀ (v : Word) (vs : List Bool) (s : State),
    (respond v (writeBO vs s)).resp = some ⟨0, v⟩ ∧ (respond v (writeBO vs s)).boLen = vs.length ∧
    ∀ j, j < vs.length → some ((respond v (writeBO vs s)).mem.bit .bo j) = vs[j]?) ∧
  ∀ (c : BitVec 1) (order : BitVec 8) (a : Word) (s t : State), (∀ c, Ctx.Inv (s.engine.ctx c)) →
    ∀ i ∈ [Instr.demodulate c a, .demap order, .f2b c a],
      exec i s = .next t →
      t.engine = s.engine ∧ t.cmd = s.cmd ∧ t.host = s.host ∧ t.soLen = s.soLen ∧
      (∀ sp j, t.mem.sample sp j = s.mem.sample sp j) ∧ (∀ j, t.mem.bit .bi j = s.mem.bit .bi j) ∧
      ∀ j, bitsWritten i s.engine ≤ j → t.mem.bit .bo j = s.mem.bit .bo j

/-- 46_modulator.md R190, R194, R195: CONSTRUCT writes one context and the accessors write nothing: no
element of any space, no other context, no record of the host. -/
def Obligations.ConstructAndQueriesFrame : Prop :=
  (∀ (c x : BitVec 1) (order : BitVec 8) (n l p : Word) (s t : State),
    exec (.construct c x order n l p) s = .next t →
    t = { s with engine := t.engine, resp := t.resp } ∧
      ∀ c', c' ≠ c → t.engine.ctx c' = s.engine.ctx c') ∧
  ∀ (c : BitVec 1) (s t : State), ∀ i ∈ [Instr.getsymlen c, .getcap c],
    exec i s = .next t → t = { s with resp := t.resp }

/-- 20_memory.md R52: a command reads exactly the declared elements of its input space, and none when it
fails; a declared length beyond the capacity always fails. -/
def Obligations.ReadsOnlyDeclared : Prop :=
  ∀ (i : Instr) (s s' t t' : State), (∀ c, Ctx.Inv (s.engine.ctx c)) → i.wellFormed = true →
    s.engine = s'.engine → exec i s = .next t → exec i s' = .next t' →
    ((∃ r, t.resp = some r ∧ r.status ≠ 0) → t'.resp = t.resp) ∧
    ((∀ j, j < declaredBits i → s.mem.bit .bi j = s'.mem.bit .bi j) →
      (∀ j, j < declaredSamples i → s.mem.sample .si j = s'.mem.sample .si j) →
      t.resp = t'.resp ∧ t.engine = t'.engine ∧
        ((∃ v, t.resp = some ⟨0, v⟩) →
          (∀ j, j < samplesWritten i s.engine → t.mem.sample .so j = t'.mem.sample .so j) ∧
          ∀ j, j < bitsWritten i s.engine → t.mem.bit .bo j = t'.mem.bit .bo j)) ∧
    (engineParams.bitbufCap < declaredBits i ∨ engineParams.sampbufCap < declaredSamples i →
      ∃ r, t.resp = some r ∧ r.status ≠ 0)

/-- 20_memory.md R50: "The capacities are the largest lengths any command can require": no constructed context
requires more, and one requires as much. -/
def Obligations.CapacitiesSuffice : Prop :=
  (∀ k : Ctx, Ctx.Inv k → k.valid = true →
    k.capbits.toNat ≤ engineParams.bitbufCap ∧ k.symlen.toNat ≤ engineParams.sampbufCap ∧
      k.nsc.toNat ≤ engineParams.sampbufCap) ∧
  ∃ k : Ctx, Ctx.Inv k ∧ k.valid = true ∧ k.capbits.toNat = engineParams.bitbufCap ∧
    k.symlen.toNat = engineParams.sampbufCap

/-! ### The scalar format -/

/-- 00_scope.md R15, `NUM_F64`: the sum, difference, product and quotient of finite values are the exact result
rounded, to nearest, ties to even, overflowing to an infinity of its sign; the divisor is not zero. The sign
of a product or quotient is that of the operands, and an exact zero sum is +0 unless both terms are −0. With an
infinity the result is the limit or a NaN, a quotient by zero is an infinity or a NaN, and a NaN operand gives
a NaN (log entry 7: IEEE 754's rules, which R15 names). R13: `NUM.ofReal` is total and rounds so too; a number
that rounds to zero keeps its sign; an integer as a scalar is that number rounded; and rounding a finite value
gives it back, but for the sign of zero. -/
def Obligations.ArithmeticIsNearest : Prop :=
  (∀ a b : F64, F64.isFinite a = true → F64.isFinite b = true →
    RoundsTo (realOf a + realOf b) (F64.add a b) ∧
    RoundsTo (realOf a - realOf b) (F64.sub a b) ∧
    RoundsTo (realOf a * realOf b) (F64.mul a b) ∧
    (F64.isZero b = false → RoundsTo (realOf a / realOf b) (F64.div a b)) ∧
    (realOf a + realOf b = 0 → F64.sign (F64.add a b) = (F64.sign a && F64.sign b)) ∧
    (realOf a - realOf b = 0 → F64.sign (F64.sub a b) = (F64.sign a && !F64.sign b)) ∧
    F64.sign (F64.mul a b) = (F64.sign a != F64.sign b) ∧
    (F64.isZero b = false → F64.sign (F64.div a b) = (F64.sign a != F64.sign b)) ∧
    (F64.isZero b = true → F64.isZero a = false → F64.div a b = F64.inf (F64.sign a != F64.sign b)) ∧
    (F64.isZero b = true → F64.isZero a = true → F64.isNaN (F64.div a b) = true)) ∧
  (∀ (neg : Bool) (a : F64), F64.isFinite a = true →
    F64.add (F64.inf neg) a = F64.inf neg ∧ F64.add a (F64.inf neg) = F64.inf neg ∧
    F64.sub (F64.inf neg) a = F64.inf neg ∧ F64.sub a (F64.inf neg) = F64.inf (!neg) ∧
    F64.div (F64.inf neg) a = F64.inf (neg != F64.sign a) ∧
    F64.div a (F64.inf neg) = F64.pack (F64.sign a != neg) 0 ∧
    (F64.isZero a = false → F64.mul (F64.inf neg) a = F64.inf (neg != F64.sign a) ∧
      F64.mul a (F64.inf neg) = F64.inf (F64.sign a != neg)) ∧
    (F64.isZero a = true → F64.isNaN (F64.mul (F64.inf neg) a) = true ∧
      F64.isNaN (F64.mul a (F64.inf neg)) = true)) ∧
  (∀ neg neg' : Bool,
    F64.add (F64.inf neg) (F64.inf neg) = F64.inf neg ∧ F64.sub (F64.inf neg) (F64.inf (!neg)) = F64.inf neg ∧
    F64.isNaN (F64.add (F64.inf neg) (F64.inf (!neg))) = true ∧
    F64.isNaN (F64.sub (F64.inf neg) (F64.inf neg)) = true ∧
    F64.mul (F64.inf neg) (F64.inf neg') = F64.inf (neg != neg') ∧
    F64.isNaN (F64.div (F64.inf neg) (F64.inf neg')) = true) ∧
  (∀ a b : F64, F64.isNaN a = true ∨ F64.isNaN b = true →
    F64.isNaN (F64.add a b) = true ∧ F64.isNaN (F64.sub a b) = true ∧
    F64.isNaN (F64.mul a b) = true ∧ F64.isNaN (F64.div a b) = true) ∧
  (∀ x : ℝ, RoundsTo x (numF64.ofReal x) ∧ F64.sign (numF64.ofReal x) = decide (x < 0)) ∧
  (∀ n : Int, numF64.ofInt n = numF64.ofReal n) ∧
  ∀ a : F64, F64.isFinite a = true → F64.isZero a = false → numF64.ofReal (realOf a) = a

/-- 00_scope.md R15, `NUM_F64`: comparisons of finite values are those of the numbers, so +0 equals −0; the
infinities lie beyond every finite value and each equals itself; every comparison with a NaN is false. -/
def Obligations.ComparisonsFollowValues : Prop :=
  (∀ a b : F64, F64.isFinite a = true → F64.isFinite b = true →
    (F64.lt a b = true ↔ realOf a < realOf b) ∧ (F64.eq a b = true ↔ realOf a = realOf b)) ∧
  (∀ (neg : Bool) (a : F64), F64.isFinite a = true →
    F64.lt a (F64.inf neg) = !neg ∧ F64.lt (F64.inf neg) a = neg ∧
    F64.eq a (F64.inf neg) = false ∧ F64.eq (F64.inf neg) a = false) ∧
  (∀ neg neg' : Bool,
    F64.lt (F64.inf neg) (F64.inf neg') = (neg && !neg') ∧ F64.eq (F64.inf neg) (F64.inf neg') = (neg == neg')) ∧
  ∀ a b : F64, F64.isNaN a = true ∨ F64.isNaN b = true → F64.lt a b = false ∧ F64.eq a b = false
end

