-- ==== Sys2Proof/Laws/State.lean ====
section
/-! SUPPORT. What each named update of the state does to each field, once, by rfl, for simp. -/

namespace Sys2Proof.Machine

@[simp] theorem respond_engine (v : Word) (s : State) : (respond v s).engine = s.engine := rfl
@[simp] theorem respond_mem (v : Word) (s : State) : (respond v s).mem = s.mem := rfl
@[simp] theorem respond_cmd (v : Word) (s : State) : (respond v s).cmd = s.cmd := rfl
@[simp] theorem respond_resp (v : Word) (s : State) : (respond v s).resp = some (okResponse v) := rfl
@[simp] theorem respond_soLen (v : Word) (s : State) : (respond v s).soLen = s.soLen := rfl
@[simp] theorem respond_boLen (v : Word) (s : State) : (respond v s).boLen = s.boLen := rfl
@[simp] theorem respond_host (v : Word) (s : State) : (respond v s).host = s.host := rfl

@[simp] theorem raiseError_engine (e : EngineError) (s : State) : (raiseError e s).engine = s.engine := rfl
@[simp] theorem raiseError_mem (e : EngineError) (s : State) : (raiseError e s).mem = s.mem := rfl
@[simp] theorem raiseError_cmd (e : EngineError) (s : State) : (raiseError e s).cmd = s.cmd := rfl
@[simp] theorem raiseError_resp (e : EngineError) (s : State) : (raiseError e s).resp = some (errorResponse e) := rfl
@[simp] theorem raiseError_soLen (e : EngineError) (s : State) : (raiseError e s).soLen = s.soLen := rfl
@[simp] theorem raiseError_boLen (e : EngineError) (s : State) : (raiseError e s).boLen = s.boLen := rfl
@[simp] theorem raiseError_host (e : EngineError) (s : State) : (raiseError e s).host = s.host := rfl

@[simp] theorem setCtx_engine (c : BitVec 1) (k : Ctx) (s : State) : (setCtx c k s).engine = s.engine.setCtx c k := rfl
@[simp] theorem setCtx_mem (c : BitVec 1) (k : Ctx) (s : State) : (setCtx c k s).mem = s.mem := rfl
@[simp] theorem setCtx_cmd (c : BitVec 1) (k : Ctx) (s : State) : (setCtx c k s).cmd = s.cmd := rfl
@[simp] theorem setCtx_resp (c : BitVec 1) (k : Ctx) (s : State) : (setCtx c k s).resp = s.resp := rfl
@[simp] theorem setCtx_soLen (c : BitVec 1) (k : Ctx) (s : State) : (setCtx c k s).soLen = s.soLen := rfl
@[simp] theorem setCtx_boLen (c : BitVec 1) (k : Ctx) (s : State) : (setCtx c k s).boLen = s.boLen := rfl
@[simp] theorem setCtx_host (c : BitVec 1) (k : Ctx) (s : State) : (setCtx c k s).host = s.host := rfl

@[simp] theorem writeSO_engine (vs : List Sample) (s : State) : (writeSO vs s).engine = s.engine := rfl
@[simp] theorem writeSO_mem (vs : List Sample) (s : State) : (writeSO vs s).mem = s.mem.writeSamples .so 0 vs := rfl
@[simp] theorem writeSO_cmd (vs : List Sample) (s : State) : (writeSO vs s).cmd = s.cmd := rfl
@[simp] theorem writeSO_resp (vs : List Sample) (s : State) : (writeSO vs s).resp = s.resp := rfl
@[simp] theorem writeSO_soLen (vs : List Sample) (s : State) : (writeSO vs s).soLen = vs.length := rfl
@[simp] theorem writeSO_boLen (vs : List Sample) (s : State) : (writeSO vs s).boLen = s.boLen := rfl
@[simp] theorem writeSO_host (vs : List Sample) (s : State) : (writeSO vs s).host = s.host := rfl

@[simp] theorem writeBO_engine (vs : List Bool) (s : State) : (writeBO vs s).engine = s.engine := rfl
@[simp] theorem writeBO_mem (vs : List Bool) (s : State) : (writeBO vs s).mem = s.mem.writeBits .bo 0 vs := rfl
@[simp] theorem writeBO_cmd (vs : List Bool) (s : State) : (writeBO vs s).cmd = s.cmd := rfl
@[simp] theorem writeBO_resp (vs : List Bool) (s : State) : (writeBO vs s).resp = s.resp := rfl
@[simp] theorem writeBO_soLen (vs : List Bool) (s : State) : (writeBO vs s).soLen = s.soLen := rfl
@[simp] theorem writeBO_boLen (vs : List Bool) (s : State) : (writeBO vs s).boLen = vs.length := rfl
@[simp] theorem writeBO_host (vs : List Bool) (s : State) : (writeBO vs s).host = s.host := rfl

@[simp] theorem takeCommand_engine (s : State) : (takeCommand s).engine = s.engine := rfl
@[simp] theorem takeCommand_mem (s : State) : (takeCommand s).mem = s.mem := rfl
@[simp] theorem takeCommand_cmd (s : State) : (takeCommand s).cmd = none := rfl
@[simp] theorem takeCommand_resp (s : State) : (takeCommand s).resp = s.resp := rfl
@[simp] theorem takeCommand_soLen (s : State) : (takeCommand s).soLen = s.soLen := rfl
@[simp] theorem takeCommand_boLen (s : State) : (takeCommand s).boLen = s.boLen := rfl
@[simp] theorem takeCommand_host (s : State) : (takeCommand s).host = s.host := rfl

@[simp] theorem placePacket_engine (p : Packet) (s : State) : (placePacket p s).engine = s.engine := rfl
@[simp] theorem placePacket_mem (p : Packet) (s : State) : (placePacket p s).mem = s.mem := rfl
@[simp] theorem placePacket_cmd (p : Packet) (s : State) : (placePacket p s).cmd = some p := rfl
@[simp] theorem placePacket_resp (p : Packet) (s : State) : (placePacket p s).resp = s.resp := rfl
@[simp] theorem placePacket_soLen (p : Packet) (s : State) : (placePacket p s).soLen = s.soLen := rfl
@[simp] theorem placePacket_boLen (p : Packet) (s : State) : (placePacket p s).boLen = s.boLen := rfl
@[simp] theorem placePacket_host (p : Packet) (s : State) : (placePacket p s).host = s.host := rfl

@[simp] theorem hostIssue_engine (p : Packet) (s : State) : (hostIssue p s).engine = s.engine := rfl
@[simp] theorem hostIssue_mem (p : Packet) (s : State) : (hostIssue p s).mem = s.mem := rfl
@[simp] theorem hostIssue_cmd (p : Packet) (s : State) : (hostIssue p s).cmd = some p := rfl
@[simp] theorem hostIssue_resp (p : Packet) (s : State) : (hostIssue p s).resp = none := rfl
@[simp] theorem hostIssue_soLen (p : Packet) (s : State) : (hostIssue p s).soLen = s.soLen := rfl
@[simp] theorem hostIssue_boLen (p : Packet) (s : State) : (hostIssue p s).boLen = s.boLen := rfl
@[simp] theorem hostIssue_host (p : Packet) (s : State) : (hostIssue p s).host = s.host := rfl

@[simp] theorem hostReset_engine (s : State) : (hostReset s).engine = State.reset.engine := rfl
@[simp] theorem hostReset_mem (s : State) : (hostReset s).mem = s.mem := rfl
@[simp] theorem hostReset_cmd (s : State) : (hostReset s).cmd = none := rfl
@[simp] theorem hostReset_resp (s : State) : (hostReset s).resp = none := rfl
@[simp] theorem hostReset_soLen (s : State) : (hostReset s).soLen = s.soLen := rfl
@[simp] theorem hostReset_boLen (s : State) : (hostReset s).boLen = s.boLen := rfl
@[simp] theorem hostReset_host (s : State) : (hostReset s).host = s.host := rfl

@[simp] theorem writeBits_bi_bi (m : Memory) (i : Nat) (vs : List Bool) : (m.writeBits .bi i vs).bi = writeRun blankBit i vs m.bi := rfl
@[simp] theorem writeBits_bi_bo (m : Memory) (i : Nat) (vs : List Bool) : (m.writeBits .bi i vs).bo = m.bo := rfl
@[simp] theorem writeBits_bi_si (m : Memory) (i : Nat) (vs : List Bool) : (m.writeBits .bi i vs).si = m.si := rfl
@[simp] theorem writeBits_bi_so (m : Memory) (i : Nat) (vs : List Bool) : (m.writeBits .bi i vs).so = m.so := rfl

@[simp] theorem writeBits_bo_bi (m : Memory) (i : Nat) (vs : List Bool) : (m.writeBits .bo i vs).bi = m.bi := rfl
@[simp] theorem writeBits_bo_bo (m : Memory) (i : Nat) (vs : List Bool) : (m.writeBits .bo i vs).bo = writeRun blankBit i vs m.bo := rfl
@[simp] theorem writeBits_bo_si (m : Memory) (i : Nat) (vs : List Bool) : (m.writeBits .bo i vs).si = m.si := rfl
@[simp] theorem writeBits_bo_so (m : Memory) (i : Nat) (vs : List Bool) : (m.writeBits .bo i vs).so = m.so := rfl

@[simp] theorem writeSamples_si_bi (m : Memory) (i : Nat) (vs : List Sample) : (m.writeSamples .si i vs).bi = m.bi := rfl
@[simp] theorem writeSamples_si_bo (m : Memory) (i : Nat) (vs : List Sample) : (m.writeSamples .si i vs).bo = m.bo := rfl
@[simp] theorem writeSamples_si_si (m : Memory) (i : Nat) (vs : List Sample) : (m.writeSamples .si i vs).si = writeRun blankSample i vs m.si := rfl
@[simp] theorem writeSamples_si_so (m : Memory) (i : Nat) (vs : List Sample) : (m.writeSamples .si i vs).so = m.so := rfl

@[simp] theorem writeSamples_so_bi (m : Memory) (i : Nat) (vs : List Sample) : (m.writeSamples .so i vs).bi = m.bi := rfl
@[simp] theorem writeSamples_so_bo (m : Memory) (i : Nat) (vs : List Sample) : (m.writeSamples .so i vs).bo = m.bo := rfl
@[simp] theorem writeSamples_so_si (m : Memory) (i : Nat) (vs : List Sample) : (m.writeSamples .so i vs).si = m.si := rfl
@[simp] theorem writeSamples_so_so (m : Memory) (i : Nat) (vs : List Sample) : (m.writeSamples .so i vs).so = writeRun blankSample i vs m.so := rfl

/-- A context that has just been written reads as written. -/
@[simp] theorem ctx_setCtx_same (e : EngineState) (c : BitVec 1) (k : Ctx) : (e.setCtx c k).ctx c = k := by
  unfold EngineState.setCtx EngineState.ctx
  split <;> rfl

/-- Writing one context leaves the other alone (10_state.md R20: "The two contexts share nothing"). -/
theorem ctx_setCtx_other (e : EngineState) (c d : BitVec 1) (k : Ctx) (h : d ≠ c) :
    (e.setCtx c k).ctx d = e.ctx d := by
  have hcd : c = 0#1 ∧ d = 1#1 ∨ c = 1#1 ∧ d = 0#1 := by
    revert h c d
    decide
  rcases hcd with ⟨rfl, rfl⟩ | ⟨rfl, rfl⟩ <;> rfl

@[simp] theorem withFetchWord_cmd (s : State) (nbits w : Nat) :
    (s.withFetchWord nbits w).cmd = some (packetOfTableWord nbits w) := rfl

end Sys2Proof.Machine
end

