-- ==== Sys2Proof/Laws/Memory.lean ====
section
/-! SUPPORT. Buffer spaces: a read after a write gives what was written, every other element is as it was,
and every write keeps the canonical form and the capacity (20_memory.md R50, R54). -/

namespace Sys2Proof.Machine

variable {α : Type}

@[simp] theorem readCell_nil (blank : α) (i : Nat) : readCell blank [] i = blank := rfl

theorem readCell_cons (blank : α) (j : Nat) (v : α) (m : Cells α) (i : Nat) :
    readCell blank ((j, v) :: m) i = if j = i then v else readCell blank m i := rfl

/-- A read that the front does not hold goes to the back. -/
theorem readCell_append_of_absent (blank : α) (m m' : Cells α) (i : Nat) (h : ∀ c ∈ m, c.1 ≠ i) :
    readCell blank (m ++ m') i = readCell blank m' i := by
  induction m with
  | nil => rfl
  | cons c m ih =>
    obtain ⟨j, v⟩ := c
    have hj : j ≠ i := h (j, v) (by simp)
    simp only [List.cons_append, readCell_cons, if_neg hj]
    exact ih fun c hc => h c (by simp [hc])

/-- A read that the back does not hold stops in the front. -/
theorem readCell_append_of_absent_right (blank : α) (m m' : Cells α) (i : Nat) (h : ∀ c ∈ m', c.1 ≠ i) :
    readCell blank (m ++ m') i = readCell blank m i := by
  induction m with
  | nil =>
    rw [List.nil_append]
    exact (List.append_nil m' ▸ readCell_append_of_absent blank m' [] i h)
  | cons c m ih =>
    obtain ⟨j, v⟩ := c
    simp only [List.cons_append, readCell_cons, ih]

/-- Cells of other indices may be taken out. -/
theorem readCell_filter (blank : α) (p : Nat → Bool) (m : Cells α) (i : Nat) (hi : p i = true) :
    readCell blank (m.filter fun c => p c.1) i = readCell blank m i := by
  induction m with
  | nil => rfl
  | cons c m ih =>
    obtain ⟨j, v⟩ := c
    by_cases hj : j = i
    · subst hj
      simp [hi, readCell_cons]
    · by_cases hp : p j = true
      · simp [hp, readCell_cons, hj, ih]
      · simp [hp, readCell_cons, hj, ih]

@[simp] theorem length_readRun (blank : α) (m : Cells α) (i n : Nat) : (readRun blank m i n).length = n := by
  simp [readRun]

theorem getElem_readRun (blank : α) (m : Cells α) (i n k : Nat) (hk : k < (readRun blank m i n).length) :
    (readRun blank m i n)[k] = readCell blank m (i + k) := by
  simp [readRun]

/-- Two spaces that agree on a run read the same run. -/
theorem readRun_congr (blank : α) (m m' : Cells α) (i n : Nat)
    (h : ∀ k < n, readCell blank m (i + k) = readCell blank m' (i + k)) :
    readRun blank m i n = readRun blank m' i n := by
  unfold readRun
  exact List.map_congr_left fun k hk => h k (List.mem_range.1 hk)

variable [DecidableEq α]

theorem cellsOf_bounds (blank : α) (vs : List α) (i : Nat) :
    ∀ c ∈ cellsOf blank i vs, i ≤ c.1 ∧ c.1 < i + vs.length := by
  induction vs generalizing i with
  | nil => simp [cellsOf]
  | cons v vs ih =>
    intro c hc
    have tail : ∀ c ∈ cellsOf blank (i + 1) vs, i ≤ c.1 ∧ c.1 < i + (v :: vs).length := by
      intro c hc
      have := ih (i + 1) c hc
      simp only [List.length_cons]
      omega
    unfold cellsOf at hc
    split at hc
    · exact tail c hc
    · rcases List.mem_cons.1 hc with rfl | hc
      · simp
      · exact tail c hc

theorem readCell_cellsOf (blank : α) (vs : List α) (i k : Nat) (hk : k < vs.length) :
    readCell blank (cellsOf blank i vs) (i + k) = vs[k] := by
  induction vs generalizing i k with
  | nil => simp at hk
  | cons v vs ih =>
    have absent : ∀ c ∈ cellsOf blank (i + 1) vs, c.1 ≠ i := fun c hc => by
      have := cellsOf_bounds blank vs (i + 1) c hc
      omega
    unfold cellsOf
    cases k with
    | zero =>
      split
      · rename_i hv
        have gone := readCell_append_of_absent blank _ [] i absent
        rw [List.append_nil] at gone
        simpa [hv] using gone
      · simp [readCell_cons]
    | succ k =>
      have step : readCell blank (cellsOf blank (i + 1) vs) (i + (k + 1)) = vs[k]'(by simpa using hk) := by
        have := ih (i + 1) k (by simpa using hk)
        rwa [show i + 1 + k = i + (k + 1) by omega] at this
      split
      · simpa using step
      · rw [readCell_cons, if_neg (by omega)]
        simpa using step

/-- An element that was written reads as written. -/
theorem readCell_writeRun_inside (blank : α) (i : Nat) (vs : List α) (m : Cells α) (k : Nat)
    (hk : k < vs.length) : readCell blank (writeRun blank i vs m) (i + k) = vs[k] := by
  unfold writeRun
  rw [readCell_append_of_absent_right, readCell_append_of_absent, readCell_cellsOf blank vs i k hk]
  · intro c hc
    have := (List.mem_filter.1 hc).2
    simp at this
    omega
  · intro c hc
    have := (List.mem_filter.1 hc).2
    simp at this
    omega

/-- Every other element reads as before (20_memory.md R54). -/
theorem readCell_writeRun_outside (blank : α) (i : Nat) (vs : List α) (m : Cells α) (j : Nat)
    (hj : j < i ∨ i + vs.length ≤ j) :
    readCell blank (writeRun blank i vs m) j = readCell blank m j := by
  have inside : ∀ c ∈ cellsOf blank i vs, c.1 ≠ j := fun c hc => by
    have := cellsOf_bounds blank vs i c hc
    omega
  unfold writeRun
  rcases hj with hj | hj
  · rw [readCell_append_of_absent_right, readCell_append_of_absent_right _ _ _ _ inside]
    · exact readCell_filter blank (fun n => decide (n < i)) m j (by simpa using hj)
    · intro c hc
      have := (List.mem_filter.1 hc).2
      simp at this
      omega
  · rw [readCell_append_of_absent]
    · exact readCell_filter blank (fun n => decide (i + vs.length ≤ n)) m j (by simpa using hj)
    · intro c hc
      rcases List.mem_append.1 hc with hc | hc
      · have := (List.mem_filter.1 hc).2
        simp at this
        omega
      · exact inside c hc

/-- What a write leaves, at every index. -/
theorem readCell_writeRun (blank : α) (i : Nat) (vs : List α) (m : Cells α) (j : Nat) :
    readCell blank (writeRun blank i vs m) j =
      if i ≤ j ∧ j < i + vs.length then vs.getD (j - i) blank else readCell blank m j := by
  split
  · rename_i h
    have hk : j - i < vs.length := by omega
    have := readCell_writeRun_inside blank i vs m (j - i) hk
    rw [show i + (j - i) = j by omega] at this
    rw [this]
    simp [List.getD, hk]
  · rename_i h
    exact readCell_writeRun_outside blank i vs m j (by omega)

/-- A run that was just written reads as written. -/
theorem readRun_writeRun (blank : α) (vs : List α) (m : Cells α) (i : Nat) :
    readRun blank (writeRun blank i vs m) i vs.length = vs := by
  apply List.ext_getElem (by simp)
  intro k h1 h2
  rw [getElem_readRun, readCell_writeRun_inside blank i vs m k h2]

/-- A canonical form from a higher index is one from a lower index. -/
theorem cellsWf_low (blank : α) (cap low low' : Nat) (m : Cells α) (h : low' ≤ low)
    (hm : cellsWf blank cap low m = true) : cellsWf blank cap low' m = true := by
  cases m with
  | nil => rfl
  | cons c m =>
    obtain ⟨j, v⟩ := c
    simp only [cellsWf, Bool.and_eq_true, decide_eq_true_eq] at hm ⊢
    exact ⟨⟨⟨by omega, hm.1.1.2⟩, hm.1.2⟩, hm.2⟩

/-- Two canonical forms, one ending where the other begins, make one. -/
theorem cellsWf_append (blank : α) (cap low mid : Nat) (m m' : Cells α) (hlow : low ≤ mid)
    (hm : cellsWf blank cap low m = true) (hmid : ∀ c ∈ m, c.1 < mid)
    (hm' : cellsWf blank cap mid m' = true) : cellsWf blank cap low (m ++ m') = true := by
  induction m generalizing low with
  | nil => exact cellsWf_low blank cap mid low m' hlow hm'
  | cons c m ih =>
    obtain ⟨j, v⟩ := c
    have hj : j < mid := hmid (j, v) (by simp)
    simp only [cellsWf, Bool.and_eq_true, decide_eq_true_eq, List.cons_append] at hm ⊢
    exact ⟨hm.1, ih (j + 1) (by omega) hm.2 fun c hc => hmid c (by simp [hc])⟩

theorem cellsWf_cellsOf (blank : α) (cap i : Nat) (vs : List α) (h : i + vs.length ≤ cap) :
    cellsWf blank cap i (cellsOf blank i vs) = true := by
  induction vs generalizing i with
  | nil => rfl
  | cons v vs ih =>
    have tail := ih (i + 1) (by simp only [List.length_cons] at h; omega)
    simp only [List.length_cons] at h
    unfold cellsOf
    split
    · exact cellsWf_low blank cap (i + 1) i _ (by omega) tail
    · rename_i hv
      simp only [cellsWf, Bool.and_eq_true, decide_eq_true_eq]
      exact ⟨⟨⟨le_refl _, by omega⟩, hv⟩, tail⟩

theorem cellsWf_filter_below (blank : α) (cap low : Nat) (p : Nat → Bool) (m : Cells α)
    (hm : cellsWf blank cap low m = true) : cellsWf blank cap low (m.filter fun c => p c.1) = true := by
  induction m generalizing low with
  | nil => rfl
  | cons c m ih =>
    obtain ⟨j, v⟩ := c
    simp only [cellsWf, Bool.and_eq_true, decide_eq_true_eq] at hm
    have tail := ih (j + 1) hm.2
    by_cases hp : p j = true
    · simp only [List.filter_cons, hp, if_true, cellsWf, Bool.and_eq_true, decide_eq_true_eq]
      exact ⟨hm.1, tail⟩
    · simp only [List.filter_cons, hp, Bool.false_eq_true, if_false]
      exact cellsWf_low blank cap (j + 1) low _ (by omega) tail

theorem cellsWf_filter_from (blank : α) (cap low from' : Nat) (m : Cells α)
    (hm : cellsWf blank cap low m = true) :
    cellsWf blank cap from' (m.filter fun c => decide (from' ≤ c.1)) = true := by
  induction m generalizing low with
  | nil => rfl
  | cons c m ih =>
    obtain ⟨j, v⟩ := c
    simp only [cellsWf, Bool.and_eq_true, decide_eq_true_eq] at hm
    by_cases hp : from' ≤ j
    · simp only [List.filter_cons, hp, decide_true, if_true, cellsWf, Bool.and_eq_true, decide_eq_true_eq]
      refine ⟨⟨⟨trivial, hm.1.1.2⟩, hm.1.2⟩, ?_⟩
      exact cellsWf_filter_below blank cap (j + 1) (fun n => decide (from' ≤ n)) m hm.2
    · simp only [List.filter_cons, hp, decide_false, Bool.false_eq_true, if_false]
      exact ih (j + 1) hm.2

/-- A write within the capacity keeps the canonical form. -/
theorem cellsWf_writeRun (blank : α) (cap i : Nat) (vs : List α) (m : Cells α) (h : i + vs.length ≤ cap)
    (hm : cellsWf blank cap 0 m = true) : cellsWf blank cap 0 (writeRun blank i vs m) = true := by
  have front : cellsWf blank cap 0 (m.filter fun c => decide (c.1 < i)) = true :=
    cellsWf_filter_below blank cap 0 (fun n => decide (n < i)) m hm
  have middle : cellsWf blank cap 0 ((m.filter fun c => decide (c.1 < i)) ++ cellsOf blank i vs) = true :=
    cellsWf_append blank cap 0 i _ _ (by omega) front
      (fun c hc => by simpa using (List.mem_filter.1 hc).2) (cellsWf_cellsOf blank cap i vs h)
  refine cellsWf_append blank cap 0 (i + vs.length) _ _ (by omega) middle ?_
    (cellsWf_filter_from blank cap 0 (i + vs.length) m hm)
  intro c hc
  rcases List.mem_append.1 hc with hc | hc
  · have := (List.mem_filter.1 hc).2
    simp at this
    omega
  · exact (cellsOf_bounds blank vs i c hc).2

theorem Memory.wfFor_iff {T : Type} (P : Params T) (m : Memory) : m.wfFor P = true ↔
    cellsWf blankBit P.bitbufCap 0 m.bi = true ∧ cellsWf blankBit P.bitbufCap 0 m.bo = true
      ∧ cellsWf blankSample P.sampbufCap 0 m.si = true ∧ cellsWf blankSample P.sampbufCap 0 m.so = true := by
  simp [Memory.wfFor, and_assoc]

/-- A write of bits within the capacity keeps the buffers canonical. -/
theorem Memory.wfFor_writeBits {T : Type} (P : Params T) (m : Memory) (space : BitSpace) (i : Nat)
    (vs : List Bool) (h : i + vs.length ≤ P.bitbufCap) (hm : m.wfFor P = true) :
    (m.writeBits space i vs).wfFor P = true := by
  rw [Memory.wfFor_iff] at hm ⊢
  cases space
  · exact ⟨cellsWf_writeRun _ _ _ _ _ h hm.1, hm.2⟩
  · exact ⟨hm.1, cellsWf_writeRun _ _ _ _ _ h hm.2.1, hm.2.2⟩

/-- A write of samples within the capacity keeps the buffers canonical. -/
theorem Memory.wfFor_writeSamples {T : Type} (P : Params T) (m : Memory) (space : SampleSpace) (i : Nat)
    (vs : List Sample) (h : i + vs.length ≤ P.sampbufCap) (hm : m.wfFor P = true) :
    (m.writeSamples space i vs).wfFor P = true := by
  rw [Memory.wfFor_iff] at hm ⊢
  cases space
  · exact ⟨hm.1, hm.2.1, cellsWf_writeRun _ _ _ _ _ h hm.2.2.1, hm.2.2.2⟩
  · exact ⟨hm.1, hm.2.1, hm.2.2.1, cellsWf_writeRun _ _ _ _ _ h hm.2.2.2⟩

/-- The buffers of reset are in canonical form. -/
theorem reset_memory_wf : State.reset.mem.wf = true := rfl

/-- Equal memories are equal data: canonical cells that read alike are alike. -/
theorem cellsWf_ext (blank : α) (cap low : Nat) (m m' : Cells α) (hm : cellsWf blank cap low m = true)
    (hm' : cellsWf blank cap low m' = true) (h : ∀ i, readCell blank m i = readCell blank m' i) : m = m' := by
  have below : ∀ (low i : Nat) (m : Cells α), cellsWf blank cap low m = true → i < low →
      readCell blank m i = blank := by
    intro low i m hm hi
    induction m generalizing low with
    | nil => rfl
    | cons c m ih =>
      obtain ⟨j, v⟩ := c
      simp only [cellsWf, Bool.and_eq_true, decide_eq_true_eq] at hm
      rw [readCell_cons, if_neg (by omega)]
      exact ih (j + 1) hm.2 (by omega)
  induction m generalizing low m' with
  | nil =>
    cases m' with
    | nil => rfl
    | cons c m' =>
      obtain ⟨j, v⟩ := c
      simp only [cellsWf, Bool.and_eq_true, decide_eq_true_eq] at hm'
      exact absurd (by simpa [readCell_cons] using (h j).symm) hm'.1.2
  | cons c m ih =>
    obtain ⟨j, v⟩ := c
    simp only [cellsWf, Bool.and_eq_true, decide_eq_true_eq] at hm
    cases m' with
    | nil => exact absurd (by simpa [readCell_cons] using h j) hm.1.2
    | cons c' m' =>
      obtain ⟨j', v'⟩ := c'
      simp only [cellsWf, Bool.and_eq_true, decide_eq_true_eq] at hm'
      have hjj : j = j' := by
        rcases Nat.lt_trichotomy j j' with hlt | heq | hgt
        · have := h j
          rw [readCell_cons, if_pos rfl, readCell_cons, if_neg (by omega),
            below (j' + 1) j m' hm'.2 (by omega)] at this
          exact absurd this hm.1.2
        · exact heq
        · have := h j'
          rw [readCell_cons, if_neg (by omega), below (j + 1) j' m hm.2 (by omega), readCell_cons,
            if_pos rfl] at this
          exact absurd this.symm hm'.1.2
      subst hjj
      have hv : v = v' := by simpa [readCell_cons] using h j
      subst hv
      rw [ih (j + 1) m' hm.2 hm'.2 fun i => ?_]
      by_cases hi : j = i
      · subst hi
        rw [below (j + 1) j m hm.2 (by omega), below (j + 1) j m' hm'.2 (by omega)]
      · simpa [readCell_cons, hi] using h i

end Sys2Proof.Machine
end

