-- ==== Sys2Proof/Laws/Layout.lean ====
section
/-! SUPPORT. Lengths and outcomes of the functions on sequences: bit groups, roles, frequency vectors,
provider answers, the cyclic prefix, demapping. -/

namespace Sys2Proof.Machine

variable {T : Type}

@[simp] theorem length_bitsOf (n i : Nat) : (bitsOf n i).length = n := by
  induction n generalizing i with
  | zero => rfl
  | succ n ih => simp [bitsOf, ih]

/-- The value of a group with one bit more at its end. -/
theorem valOf_append_bit (g : List Bool) (b : Bool) : valOf (g ++ [b]) = 2 * valOf g + b.toNat := by
  simp [valOf]

/-- The bit group of an index has that index as its value (41_constellation_mapper.md R112). -/
theorem valOf_bitsOf (n i : Nat) (h : i < 2 ^ n) : valOf (bitsOf n i) = i := by
  induction n generalizing i with
  | zero => simp_all [bitsOf, valOf]
  | succ n ih =>
    rw [bitsOf, valOf_append_bit, ih (i / 2) (by omega)]
    rcases Nat.mod_two_eq_zero_or_one i with hi | hi <;> simp [hi] <;> omega

/-- The value of a bit group of `n` bits is an index below 2^n. -/
theorem valOf_lt (g : List Bool) : valOf g < 2 ^ g.length := by
  induction g using List.reverseRecOn with
  | nil => simp [valOf]
  | append_singleton g b ih =>
    have : b.toNat ≤ 1 := by cases b <;> simp
    rw [valOf_append_bit, List.length_append, List.length_singleton, pow_succ]
    omega

/-- A bit group is the bit group of its value: `val` and `bitsOf` undo one another. -/
theorem bitsOf_valOf (g : List Bool) : bitsOf g.length (valOf g) = g := by
  induction g using List.reverseRecOn with
  | nil => rfl
  | append_singleton g b ih =>
    rw [valOf_append_bit, List.length_append, List.length_singleton, bitsOf]
    have hdiv : (2 * valOf g + b.toNat) / 2 = valOf g := by
      have : b.toNat ≤ 1 := by cases b <;> simp
      omega
    have hmod : ((2 * valOf g + b.toNat) % 2 == 1) = b := by
      cases b
      · simp
      · simp [Nat.add_mod]
    rw [hdiv, hmod, ih]

@[simp] theorem length_computeRoles (N P : Nat) : (computeRoles N P).length = N := by simp [computeRoles]

theorem getElem_computeRoles (N P k : Nat) (h : k < (computeRoles N P).length) :
    (computeRoles N P)[k] = computeRole N P k := by
  simp [computeRoles]

/-- Without pilots the role table is one Guard, N − 2 Data, one Guard. -/
theorem computeRoles_no_pilots (d : Nat) :
    computeRoles (d + 2) 0 = .guard :: (List.replicate d .data ++ [.guard]) := by
  apply List.ext_getElem
  · simp
  intro i h₁ h₂
  rw [getElem_computeRoles]
  cases i with
  | zero => rfl
  | succ i =>
    simp only [List.length_cons, List.length_append, List.length_replicate, List.length_nil] at h₂
    rw [List.getElem_cons_succ, computeRole, List.getElem_append]
    by_cases hi : i < d
    · rw [dif_pos (by simpa using hi), List.getElem_replicate, if_neg (by omega), if_neg (by omega)]
    · rw [dif_neg (by simpa using hi), if_pos (by omega)]
      simp

theorem count_no_pilots (d : Nat) :
    (computeRoles (d + 2) 0).count .pilot = 0 ∧ (computeRoles (d + 2) 0).count .data = d := by
  simp [computeRoles_no_pilots, List.count_replicate]

/-- There are as many indices of a role as entries that hold it. -/
@[simp] theorem length_roleIndices (r : Role) (k : Nat) (roles : List Role) :
    (roleIndices r k roles).length = roles.count r := by
  induction roles generalizing k with
  | nil => rfl
  | cons x xs ih =>
    unfold roleIndices
    split
    · rename_i h
      simp [h, ih]
    · rename_i h
      rw [List.count_cons_of_ne h, ih]

/-- The indices of a role are the places that hold it. -/
theorem mem_roleIndices (r : Role) (k : Nat) (roles : List Role) (d : Nat) :
    d ∈ roleIndices r k roles ↔ k ≤ d ∧ roles[d - k]? = some r := by
  induction roles generalizing k with
  | nil => simp [roleIndices]
  | cons x xs ih =>
    have tail : d ∈ roleIndices r (k + 1) xs ↔ k + 1 ≤ d ∧ xs[d - (k + 1)]? = some r := ih (k + 1)
    have shift : k + 1 ≤ d → (x :: xs)[d - k]? = xs[d - (k + 1)]? := fun h => by
      rw [show d - k = (d - (k + 1)) + 1 by omega]
      rfl
    unfold roleIndices
    split
    · rename_i hx
      rw [List.mem_cons, tail]
      constructor
      · rintro (rfl | ⟨h1, h2⟩)
        · simp [hx]
        · exact ⟨by omega, by rw [shift h1, h2]⟩
      · rintro ⟨h1, h2⟩
        by_cases hd : d = k
        · exact Or.inl hd
        · exact Or.inr ⟨by omega, by rw [← shift (by omega), h2]⟩
    · rename_i hx
      rw [tail]
      constructor
      · rintro ⟨h1, h2⟩
        exact ⟨by omega, by rw [shift h1, h2]⟩
      · rintro ⟨h1, h2⟩
        have hd : d ≠ k := by
          rintro rfl
          simp at h2
          exact hx h2
        exact ⟨by omega, by rw [← shift (by omega), h2]⟩

/-- The indices of a role ascend. -/
theorem roleIndices_sorted (r : Role) (k : Nat) (roles : List Role) :
    (roleIndices r k roles).Pairwise (· < ·) := by
  induction roles generalizing k with
  | nil => exact List.Pairwise.nil
  | cons x xs ih =>
    unfold roleIndices
    split
    · refine List.Pairwise.cons (fun d hd => ?_) (ih (k + 1))
      have := (mem_roleIndices r (k + 1) xs d).1 hd
      omega
    · exact ih (k + 1)

/-- What `map` answers: a point for exactly `bps` bits, else `InvalidBitGroupLength`. -/
theorem mapGroup_cases (P : Params T) (bps : Nat) (g : List Bool) :
    (g.length = bps ∧ mapGroup P bps g = .ok (P.point bps (valOf g))) ∨
      (g.length ≠ bps ∧ mapGroup P bps g = .error .invalidBitGroupLength) := by
  unfold mapGroup
  by_cases h : g.length = bps
  · exact Or.inl ⟨h, by simp [h]⟩
  · exact Or.inr ⟨h, by simp [h]⟩

/-- A frequency vector that is built has one entry per role. -/
theorem length_fillRoles (P : Params T) (bps : Nat) (roles : List Role) (b : List Bool) (V : List (Cx T))
    (h : fillRoles P bps roles b = .ok V) : V.length = roles.length := by
  induction roles generalizing b V with
  | nil =>
    simp only [fillRoles, Except.ok.injEq] at h
    simp [← h]
  | cons r rs ih =>
    have step : ∀ (b : List Bool) (z : Cx T), (fillRoles P bps rs b).map (z :: ·) = .ok V →
        V.length = (r :: rs).length := fun b z h => by
      cases hr : fillRoles P bps rs b with
      | error e => simp [hr, Except.map] at h
      | ok W =>
        simp only [hr, Except.map, Except.ok.injEq] at h
        simp [← h, ih b W hr]
    cases r with
    | guard => exact step b _ h
    | pilot => exact step b _ h
    | data =>
      rcases mapGroup_cases P bps (b.take bps) with ⟨_, hm⟩ | ⟨_, hm⟩
      · rw [fillRoles, hm] at h
        exact step (b.drop bps) _ h
      · rw [fillRoles, hm] at h
        simp at h

/-- With a bit group for each Data entry a frequency vector is built: the length check of `map` never
fails there (60_exceptions.md R233). -/
theorem fillRoles_ok (P : Params T) (bps : Nat) (roles : List Role) (b : List Bool)
    (h : b.length = roles.count .data * bps) : ∃ V, fillRoles P bps roles b = .ok V := by
  induction roles generalizing b with
  | nil => exact ⟨[], rfl⟩
  | cons r rs ih =>
    cases r with
    | guard =>
      obtain ⟨V, hV⟩ := ih b (by simpa using h)
      exact ⟨czero P.num :: V, by simp [fillRoles, hV, Except.map]⟩
    | pilot =>
      obtain ⟨V, hV⟩ := ih b (by simpa using h)
      exact ⟨P.pilotRef :: V, by simp [fillRoles, hV, Except.map]⟩
    | data =>
      rw [List.count_cons_self, Nat.add_mul, Nat.one_mul] at h
      obtain ⟨V, hV⟩ := ih (b.drop bps) (by simp [h])
      rcases mapGroup_cases P bps (b.take bps) with ⟨_, hm⟩ | ⟨hl, _⟩
      · exact ⟨P.point bps (valOf (b.take bps)) :: V, by simp [fillRoles, hm, hV, Except.map]⟩
      · exact absurd (by simp [h]) hl

/-- What `bitsToFreq` answers: a vector of one entry per role, or an error. -/
theorem length_bitsToFreq (P : Params T) (k : Ctx) (b : List Bool) (V : List (Cx T))
    (h : bitsToFreq P k b = .ok V) : V.length = k.roles.length := by
  unfold bitsToFreq at h
  split at h
  · simp at h
  · exact length_fillRoles P _ _ _ _ h

/-- `bitsToFreq` succeeds on exactly `CAPBITS` bits when `CAPBITS` = (Data entries) × bps. -/
theorem bitsToFreq_ok (P : Params T) (k : Ctx) (b : List Bool) (hb : b.length = k.capbits.toNat)
    (hk : k.capbits.toNat = k.roles.count .data * k.bits) : ∃ V, bitsToFreq P k b = .ok V := by
  obtain ⟨V, hV⟩ := fillRoles_ok P k.bits k.roles b (hb.trans hk)
  exact ⟨V, by simp [bitsToFreq, hb, hV]⟩

@[simp] theorem length_askProvider (p : Provider T) (dir : Dir) (x : List (Cx T)) :
    (askProvider p dir x).length = x.length := by simp [askProvider]

@[simp] theorem length_prepend {α : Type} (x : List α) (L : Nat) (h : L ≤ x.length) :
    (prepend x L).length = x.length + L := by
  simp [prepend]
  omega

@[simp] theorem length_strip {α : Type} (y : List α) (L : Nat) : (strip y L).length = y.length - L := by
  simp [strip]

/-- A symbol that MODULATE makes has one sample per role and the prefix. -/
theorem length_modulateSymbol (P : Params T) (k : Ctx) (b : List Bool) (y : List (Cx T))
    (h : modulateSymbol P k b = .ok y) (hcp : k.cp ≤ k.roles.length) :
    y.length = k.roles.length + k.cp := by
  unfold modulateSymbol at h
  cases hV : bitsToFreq P k b with
  | error e => simp [hV, Except.map] at h
  | ok V =>
    have hl := length_bitsToFreq P k b V hV
    simp only [hV, Except.map, Except.ok.injEq] at h
    rw [← h, length_prepend _ _ (by simp [hl, hcp])]
    simp [hl]

/-- `demap` always answers a bit group of `bps` bits (41_constellation_mapper.md R114). -/
@[simp] theorem length_demapBits (P : Params T) (bps : Nat) (z : Cx T) : (demapBits P bps z).length = bps := by
  simp [demapBits]

@[simp] theorem length_demapAll (P : Params T) (bps : Nat) (Y : List (Cx T)) :
    (demapAll P bps Y).length = Y.length * bps := by
  simp [demapAll, List.length_flatMap]

/-- One bit group per Data entry (43_frame_layout.md R147). -/
@[simp] theorem length_freqToBits (P : Params T) (k : Ctx) (V : List (Cx T)) :
    (freqToBits P k V).length = k.roles.count .data * k.bits := by
  simp [freqToBits, dataIndices]

/-- One equalized sample per Data entry, with pilots or without (47_demodulator.md R210). -/
@[simp] theorem length_equalized (P : Params T) (k : Ctx) (F2 : List (Cx T)) :
    (equalized P k F2).length = k.roles.count .data := by
  unfold equalized
  split <;> simp [dataIndices]

/-- DEMODULATE always answers one bit group per Data entry (47_demodulator.md R217). -/
@[simp] theorem length_demodulateSymbol (P : Params T) (k : Ctx) (y : List (Cx T)) :
    (demodulateSymbol P k y).length = k.roles.count .data * k.bits := by
  simp [demodulateSymbol]

end Sys2Proof.Machine
end

