-- ==== Sys2Proof/Laws/Commands.lean ====
section
/-! SUPPORT. What each shared operation of a command can do, said once: the two checks, building a
context, what every command can end as, and what a host move can do. -/

namespace Sys2Proof.Machine

variable {T : Type}

/-- The two contexts by their numbers. -/
@[simp] theorem EngineState.ctx_zero (e : EngineState) : e.ctx 0 = e.ctx0 := rfl
@[simp] theorem EngineState.ctx_one (e : EngineState) : e.ctx 1 = e.ctx1 := rfl

/-- An effect carried out, by how it ends. -/
@[simp] theorem deliver_fail (e : EngineError) (s : State) : deliver (.fail e) s = raiseError e s := rfl
@[simp] theorem deliver_answer (v : Word) (s : State) : deliver (.answer v) s = respond v s := rfl
@[simp] theorem deliver_context (c : BitVec 1) (k : Ctx) (s : State) :
    deliver (.context c k) s = respond 0 (setCtx c k s) := rfl
@[simp] theorem deliver_bits (v : Word) (vs : List Bool) (s : State) :
    deliver (.bits v vs) s = respond v (writeBO vs s) := rfl
@[simp] theorem deliver_samples (v : Word) (vs : List Sample) (s : State) :
    deliver (.samples v vs) s = respond v (writeSO vs s) := rfl

@[simp] theorem length_inputs_bits (inp : Inputs T) (n : Nat) : (inp.bits n).length = n := by
  simp [Inputs.bits]

@[simp] theorem length_inputs_samples (inp : Inputs T) (n : Nat) : (inp.samples n).length = n := by
  simp [Inputs.samples]

@[simp] theorem inputs_bit (s : State) : s.inputs.bit = s.mem.bit .bi := rfl
@[simp] theorem inputs_sample (s : State) : s.inputs.sample = s.mem.sample .si := rfl

/-- The first check: the command goes on with the context, or answers `NotConstructed`. -/
theorem withContext_cases (c : BitVec 1) (e : EngineState) (body : Ctx → Effect T) :
    ((e.ctx c).valid = true ∧ withContext c e body = body (e.ctx c)) ∨
      ((e.ctx c).valid = false ∧ withContext c e body = .fail .notConstructed) := by
  unfold withContext
  cases h : (e.ctx c).valid <;> simp

theorem withContext_valid (c : BitVec 1) (e : EngineState) (body : Ctx → Effect T)
    (h : (e.ctx c).valid = true) : withContext c e body = body (e.ctx c) := by
  simp [withContext, h]

theorem withContext_invalid (c : BitVec 1) (e : EngineState) (body : Ctx → Effect T)
    (h : (e.ctx c).valid = false) : withContext c e body = .fail .notConstructed := by
  simp [withContext, h]

/-- The length check: the command goes on, or answers `BufferSizeMismatch`. -/
theorem withLength_cases (ok : Bool) (body : Effect T) :
    (ok = true ∧ withLength ok body = body) ∨ (ok = false ∧ withLength ok body = .fail .bufferSizeMismatch) := by
  unfold withLength
  cases ok <;> simp

/-- CONSTRUCT's checks pass exactly on these configurations, and then the context is this one
(46_modulator.md R190). -/
theorem buildCtx_ok (P : Params T) (xsel : BitVec 1) (order : BitVec 8) (nsc cplen pevery : Word) (k : Ctx) :
    buildCtx P xsel order nsc cplen pevery = .ok k ↔
      4 ≤ nsc.toNat ∧ nsc.toNat ≤ P.nscMax ∧ cplen.toNat < nsc.toNat ∧
        (computeRoles nsc.toNat pevery.toNat).count .data ≠ 0 ∧
        k =
          { valid := true
            nsc := nsc
            cplen := cplen
            pevery := pevery
            order := order
            xsel := xsel
            bps := order
            symlen := BitVec.ofNat 32 (nsc.toNat + cplen.toNat)
            npilot := BitVec.ofNat 32 ((computeRoles nsc.toNat pevery.toNat).count .pilot)
            ndata := BitVec.ofNat 32 ((computeRoles nsc.toNat pevery.toNat).count .data)
            capbits :=
              BitVec.ofNat 32 ((computeRoles nsc.toNat pevery.toNat).count .data * order.toNat)
            roles := computeRoles nsc.toNat pevery.toNat } := by
  unfold buildCtx
  dsimp only
  split
  · simp; omega
  split
  · simp; omega
  split
  · simp; omega
  split
  · simp_all
  · rename_i h1 h2 h3 h4
    simp only [Except.ok.injEq]
    constructor
    · rintro rfl
      exact ⟨by omega, by omega, by omega, h4, rfl⟩
    · rintro ⟨-, -, -, -, rfl⟩
      rfl

/-- When CONSTRUCT's checks fail, the error is `ConfigurationError`. -/
theorem buildCtx_error (P : Params T) (xsel : BitVec 1) (order : BitVec 8) (nsc cplen pevery : Word)
    (e : EngineError) (h : buildCtx P xsel order nsc cplen pevery = .error e) : e = .configurationError := by
  unfold buildCtx at h
  dsimp only at h
  repeat' split at h
  all_goals first | (simp at h; done) | (simpa using h.symm)

/-- A constructed context in numbers (10_state.md R29): what the length lemmas below need. -/
theorem ctx_numbers (P : Params T) (k : Ctx) (hk : Ctx.InvFor P k) (hv : k.valid = true) :
    k.roles.length = k.n ∧ k.cp < k.n ∧ k.symlen.toNat = k.n + k.cp ∧
      k.capbits.toNat = k.roles.count .data * k.bits := by
  obtain ⟨_, _, hcp, _, _, hsym, hroles, _, hdata, _, hcap⟩ := hk hv
  exact ⟨by rw [hroles, length_computeRoles], hcp, hsym, by rw [hcap, hdata]⟩

/-- MODULATE's symbol has `SYMLEN` samples. -/
theorem length_modulateSymbol_inv (P : Params T) (k : Ctx) (hk : Ctx.InvFor P k) (hv : k.valid = true)
    (b : List Bool) (y : List (Cx T)) (h : modulateSymbol P k b = .ok y) : y.length = k.symlen.toNat := by
  obtain ⟨hr, hcp, hsym, _⟩ := ctx_numbers P k hk hv
  rw [length_modulateSymbol P k b y h (by omega), hr, hsym]

/-- What a command can end as: an error, an answer, an answer with samples in `SO` or with bits in `BO`
(from a constructed context, if it names one, and as many as 20_memory.md R53 says when the contexts meet
their invariant), or a constructed context. -/
theorem engineStep_cases (P : Params T) (i : Instr) (e : EngineState) (inp : Inputs T) :
    (∃ err, engineStep P i e inp = .fail err) ∨ (∃ v, engineStep P i e inp = .answer v) ∨
      (∃ v vs, (∀ c, usedContext i = some c → (e.ctx c).valid = true) ∧
        ((∀ c, Ctx.InvFor P (e.ctx c)) → vs.length = samplesWritten i e) ∧ writesSO i = true ∧
        engineStep P i e inp = .samples v vs) ∨
      (∃ v vs, (∀ c, usedContext i = some c → (e.ctx c).valid = true) ∧
        ((∀ c, Ctx.InvFor P (e.ctx c)) → vs.length = bitsWritten i e) ∧ writesBO i = true ∧
        engineStep P i e inp = .bits v vs) ∨
      ∃ c x o n l p k, i = .construct c x o n l p ∧ legalOrder o = true ∧
        buildCtx P x o n l p = .ok k ∧ engineStep P i e inp = .context c k := by
  have checked : ∀ (c : BitVec 1) (ok : Ctx → Bool) (body : Ctx → Effect T),
      ((e.ctx c).valid = true → (∃ err, body (e.ctx c) = .fail err) ∨
        (∃ v vs, (∀ c, usedContext i = some c → (e.ctx c).valid = true) ∧
          ((∀ c, Ctx.InvFor P (e.ctx c)) → vs.length = samplesWritten i e) ∧ writesSO i = true ∧
          body (e.ctx c) = .samples v vs) ∨
        (∃ v vs, (∀ c, usedContext i = some c → (e.ctx c).valid = true) ∧
          ((∀ c, Ctx.InvFor P (e.ctx c)) → vs.length = bitsWritten i e) ∧ writesBO i = true ∧
          body (e.ctx c) = .bits v vs)) →
      (∃ err, withContext c e (fun k => withLength (ok k) (body k)) = .fail err) ∨
        (∃ v vs, (∀ c, usedContext i = some c → (e.ctx c).valid = true) ∧
          ((∀ c, Ctx.InvFor P (e.ctx c)) → vs.length = samplesWritten i e) ∧ writesSO i = true ∧
          withContext c e (fun k => withLength (ok k) (body k)) = .samples v vs) ∨
        (∃ v vs, (∀ c, usedContext i = some c → (e.ctx c).valid = true) ∧
          ((∀ c, Ctx.InvFor P (e.ctx c)) → vs.length = bitsWritten i e) ∧ writesBO i = true ∧
          withContext c e (fun k => withLength (ok k) (body k)) = .bits v vs) := by
    intro c ok body h
    rcases withContext_cases c e (fun k => withLength (ok k) (body k)) with ⟨hv, hc⟩ | ⟨_, hc⟩
    · rcases withLength_cases (ok (e.ctx c)) (body (e.ctx c)) with ⟨_, hl⟩ | ⟨_, hl⟩
      · rw [hc, hl]
        exact h hv
      · exact Or.inl ⟨_, hc.trans hl⟩
    · exact Or.inl ⟨_, hc⟩
  have asked : ∀ (c : BitVec 1) (v : Ctx → Word),
      (∃ err, withContext (T := T) c e (fun k => .answer (v k)) = .fail err) ∨
        ∃ w, withContext (T := T) c e (fun k => .answer (v k)) = .answer w := by
    intro c v
    rcases withContext_cases (T := T) c e (fun k => .answer (v k)) with ⟨_, hc⟩ | ⟨_, hc⟩
    · exact Or.inr ⟨_, hc⟩
    · exact Or.inl ⟨_, hc⟩
  have widen : ∀ {A B C D E : Prop}, A ∨ B ∨ C → A ∨ D ∨ B ∨ C ∨ E := by tauto
  have used : ∀ c, (e.ctx c).valid = true → usedContext i = some c →
      ∀ c', usedContext i = some c' → (e.ctx c').valid = true := by
    intro c hv h c' h'
    rw [h, Option.some.injEq] at h'
    exact h' ▸ hv
  cases i with
  | construct c x o n l p =>
    simp only [engineStep, constructCmd]
    cases ho : legalOrder o with
    | false => exact Or.inl ⟨.illegalCommand, rfl⟩
    | true =>
      cases hk : buildCtx P x o n l p with
      | error err => exact Or.inl ⟨err, rfl⟩
      | ok k => exact Or.inr (Or.inr (Or.inr (Or.inr ⟨c, x, o, n, l, p, k, rfl, ho, hk, rfl⟩)))
  | getsymlen c => exact (asked c Ctx.symlen).imp id Or.inl
  | getcap c => exact (asked c Ctx.capbits).imp id Or.inl
  | modulate c a b =>
    dsimp only [engineStep, modulateCmd]
    refine widen (checked c (fun k => a == k.capbits && b == k.symlen) _ fun hv => ?_)
    split
    · exact Or.inl ⟨_, rfl⟩
    · rename_i hy
      exact Or.inr (Or.inl ⟨_, _, used c hv rfl, fun hk => length_modulateSymbol_inv _ _ (hk c) hv _ _ hy, rfl, rfl⟩)
  | demodulate c a =>
    dsimp only [engineStep, demodulateCmd]
    refine widen (checked c (fun k => a == k.symlen) _ fun hv =>
      Or.inr (Or.inr ⟨_, _, used c hv rfl, fun hk => ?_, rfl, rfl⟩))
    rw [length_demodulateSymbol]
    exact (ctx_numbers P _ (hk c) hv).2.2.2.symm
  | map o a =>
    refine widen ?_
    simp only [engineStep]
    unfold mapCmd
    split
    · exact Or.inl ⟨_, rfl⟩
    split
    · exact Or.inl ⟨_, rfl⟩
    split
    · exact Or.inl ⟨_, rfl⟩
    · exact Or.inr (Or.inl ⟨_, _, nofun, fun _ => rfl, rfl, rfl⟩)
  | demap o =>
    refine widen ?_
    simp only [engineStep]
    unfold demapCmd
    split
    · exact Or.inl ⟨_, rfl⟩
    · exact Or.inr (Or.inr ⟨_, _, nofun, fun _ => length_demapBits _ _ _, rfl, rfl⟩)
  | b2f c a =>
    dsimp only [engineStep, b2fCmd]
    refine widen (checked c (fun k => a == k.capbits) _ fun hv => ?_)
    split
    · exact Or.inl ⟨_, rfl⟩
    · rename_i hV
      refine Or.inr (Or.inl ⟨_, _, used c hv rfl, fun hk => ?_, rfl, rfl⟩)
      rw [length_bitsToFreq _ _ _ _ hV]
      exact (ctx_numbers P _ (hk c) hv).1
  | f2b c a =>
    dsimp only [engineStep, f2bCmd]
    refine widen (checked c (fun k => a == k.nsc) _ fun hv =>
      Or.inr (Or.inr ⟨_, _, used c hv rfl, fun hk => ?_, rfl, rfl⟩))
    rw [length_freqToBits]
    exact (ctx_numbers P _ (hk c) hv).2.2.2.symm
  | xfwd c a =>
    dsimp only [engineStep, wrapperCmd]
    refine widen (checked c (fun k => a == k.nsc) _ fun hv =>
      Or.inr (Or.inl ⟨_, _, used c hv rfl, fun hk => ?_, rfl, rfl⟩))
    simp [samplesWritten]
  | xinv c a =>
    dsimp only [engineStep, wrapperCmd]
    refine widen (checked c (fun k => a == k.nsc) _ fun hv =>
      Or.inr (Or.inl ⟨_, _, used c hv rfl, fun hk => ?_, rfl, rfl⟩))
    simp [samplesWritten]
  | cpadd c a =>
    dsimp only [engineStep, cpaddCmd]
    refine widen (checked c (fun k => a == k.nsc) _ fun hv =>
      Or.inr (Or.inl ⟨_, _, used c hv rfl, fun hk => ?_, rfl, rfl⟩))
    obtain ⟨_, hcp, hsym, _⟩ := ctx_numbers P _ (hk c) hv
    rw [length_prepend _ _ (by simp; omega)]
    simp [samplesWritten, hsym]
  | cpstrip c a =>
    dsimp only [engineStep, cpstripCmd]
    refine widen (checked c (fun k => a == k.symlen) _ fun hv =>
      Or.inr (Or.inl ⟨_, _, used c hv rfl, fun hk => ?_, rfl, rfl⟩))
    simp [samplesWritten]

/-- `exec` is the engine's step at the default parameters, and `step` the machine's. -/
theorem exec_eq_execWith (i : Instr) (s : State) : exec i s = execWith engineParams i s := by
  cases i <;> rfl

theorem step_eq_stepWith (s : State) : step s = stepWith engineParams s := by
  have : exec = execWith engineParams := funext fun i => funext fun s => exec_eq_execWith i s
  rw [step, stepWith, this]

/-- What a command does to the machine, by how it ends (`engineStep_cases`). -/
theorem execWith_cases (P : Params F64) (i : Instr) (s : State) :
    ∃ t, execWith P i s = .next t ∧
      ((∃ e, t = raiseError e s) ∨ (∃ v, t = respond v s) ∨
        (∃ v vs, (∀ c, usedContext i = some c → (s.engine.ctx c).valid = true) ∧
          ((∀ c, Ctx.InvFor P (s.engine.ctx c)) → vs.length = samplesWritten i s.engine) ∧ writesSO i = true ∧
          t = respond v (writeSO vs s)) ∨
        (∃ v vs, (∀ c, usedContext i = some c → (s.engine.ctx c).valid = true) ∧
          ((∀ c, Ctx.InvFor P (s.engine.ctx c)) → vs.length = bitsWritten i s.engine) ∧ writesBO i = true ∧
          t = respond v (writeBO vs s)) ∨
        ∃ c x o n l p k, i = .construct c x o n l p ∧ legalOrder o = true ∧
          buildCtx P x o n l p = .ok k ∧ t = respond 0 (setCtx c k s)) := by
  refine ⟨_, rfl, ?_⟩
  rcases engineStep_cases P i s.engine s.inputs with
    ⟨e, h⟩ | ⟨v, h⟩ | ⟨v, vs, h1, h2, h3, h⟩ | ⟨v, vs, h1, h2, h3, h⟩ | ⟨c, x, o, n, l, p, k, h1, h2, h3, h⟩ <;>
    rw [h]
  · exact Or.inl ⟨e, rfl⟩
  · exact Or.inr (Or.inl ⟨v, rfl⟩)
  · exact Or.inr (Or.inr (Or.inl ⟨v, vs, h1, h2, h3, rfl⟩))
  · exact Or.inr (Or.inr (Or.inr (Or.inl ⟨v, vs, h1, h2, h3, rfl⟩)))
  · exact Or.inr (Or.inr (Or.inr (Or.inr ⟨c, x, o, n, l, p, k, h1, h2, h3, rfl⟩)))

/-- The same for `exec`. -/
theorem exec_cases (i : Instr) (s : State) :
    ∃ t, exec i s = .next t ∧
      ((∃ e, t = raiseError e s) ∨ (∃ v, t = respond v s) ∨
        (∃ v vs, (∀ c, usedContext i = some c → (s.engine.ctx c).valid = true) ∧
          ((∀ c, Ctx.Inv (s.engine.ctx c)) → vs.length = samplesWritten i s.engine) ∧ writesSO i = true ∧
          t = respond v (writeSO vs s)) ∨
        (∃ v vs, (∀ c, usedContext i = some c → (s.engine.ctx c).valid = true) ∧
          ((∀ c, Ctx.Inv (s.engine.ctx c)) → vs.length = bitsWritten i s.engine) ∧ writesBO i = true ∧
          t = respond v (writeBO vs s)) ∨
        ∃ c x o n l p k, i = .construct c x o n l p ∧ legalOrder o = true ∧
          buildCtx engineParams x o n l p = .ok k ∧ t = respond 0 (setCtx c k s)) := by
  rw [exec_eq_execWith]
  exact execWith_cases engineParams i s

/-- The host's write of bits: done within the capacity, a fault beyond it. -/
theorem hostBits_cases (P : Params F64) (space : BitSpace) (start : Nat) (vs : List Bool) (s : State) :
    (start + vs.length ≤ P.bitbufCap ∧
        hostBits P space start vs s = .next { s with mem := s.mem.writeBits space start vs }) ∨
      (P.bitbufCap < start + vs.length ∧
        hostBits P space start vs s = .fault (.noSuchBit space (max start P.bitbufCap))) := by
  unfold hostBits
  split
  · rename_i h
    exact Or.inl ⟨h, rfl⟩
  · rename_i h
    exact Or.inr ⟨by omega, rfl⟩

/-- The host's write of samples: done within the capacity, a fault beyond it. -/
theorem hostSamples_cases (P : Params F64) (space : SampleSpace) (start : Nat) (vs : List Sample) (s : State) :
    (start + vs.length ≤ P.sampbufCap ∧
        hostSamples P space start vs s = .next { s with mem := s.mem.writeSamples space start vs }) ∨
      (P.sampbufCap < start + vs.length ∧
        hostSamples P space start vs s = .fault (.noSuchSample space (max start P.sampbufCap))) := by
  unfold hostSamples
  split
  · rename_i h
    exact Or.inl ⟨h, rfl⟩
  · rename_i h
    exact Or.inr ⟨by omega, rfl⟩

/-- What a step is: the packet's command, or the host's turn. -/
theorem step_cmd (s : State) (p : Packet) (h : s.cmd = some p) : step s = runPacket exec p (takeCommand s) := by
  simp [step, stepOf, h]

theorem step_host (s : State) (h : s.cmd = none) : step s = hostTurn engineParams s := by
  simp [step, stepOf, h]

theorem stepWith_cmd (P : Params F64) (s : State) (p : Packet) (h : s.cmd = some p) :
    stepWith P s = runPacket (execWith P) p (takeCommand s) := by
  simp [stepWith, stepOf, h]

theorem stepWith_host (P : Params F64) (s : State) (h : s.cmd = none) : stepWith P s = hostTurn P s := by
  simp [stepWith, stepOf, h]

/-- A packet that decodes runs its command; any other answers `IllegalCommand`. -/
theorem runPacket_ok (run : Instr → State → Host.Outcome State Fault Refusal) (p : Packet) (i : Instr) (s : State)
    (h : decode p = .ok i) : runPacket run p s = run i s := by
  simp [runPacket, h]

theorem runPacket_error (run : Instr → State → Host.Outcome State Fault Refusal) (p : Packet) (e : DecodeError)
    (s : State) (h : decode p = .error e) : runPacket run p s = .next (raiseError .illegalCommand s) := by
  simp [runPacket, h]

end Sys2Proof.Machine
end

