-- ==== Sys2Proof/Laws/Packet.lean ====
section
/-! SUPPORT. Cutting a packet into fields and joining fields into a packet undo one another
(30_encoding.md R80, R81). -/

namespace Sys2Proof

theorem getLsbD_packetOf (f : PacketFields) (i : Nat) :
    (packetOf f).getLsbD i =
      if i < 32 then f.w3.getLsbD i
      else if i < 64 then f.w2.getLsbD (i - 32)
      else if i < 96 then f.w1.getLsbD (i - 64)
      else if i < 104 then f.rsvLo.getLsbD (i - 96)
      else if i < 112 then f.order.getLsbD (i - 104)
      else if i < 113 then f.xsel.getLsbD (i - 112)
      else if i < 119 then f.rsvHi.getLsbD (i - 113)
      else if i < 120 then f.ctx.getLsbD (i - 119)
      else f.opc.getLsbD (i - 120) := by
  rw [packetOf, BitVec.getLsbD_cast]
  simp only [joinedFields, BitVec.getLsbD_append]
  refine if_congr Iff.rfl rfl (if_congr (by omega) rfl (if_congr (by omega) (congrArg _ (by omega))
    (if_congr (by omega) (congrArg _ (by omega)) (if_congr (by omega) (congrArg _ (by omega))
    (if_congr (by omega) (congrArg _ (by omega)) (if_congr (by omega) (congrArg _ (by omega))
    (if_congr (by omega) (congrArg _ (by omega)) (congrArg _ (by omega)))))))))

/-- The fields of a packet made of fields are those fields. -/
theorem fieldsOf_packetOf (f : PacketFields) : fieldsOf (packetOf f) = f := by
  have key : ∀ (s n : Nat) (v : BitVec n), (∀ i < n, (packetOf f).getLsbD (s + i) = v.getLsbD i) →
      (packetOf f).extractLsb' s n = v := fun s n v h => by
    apply BitVec.eq_of_getLsbD_eq
    intro i hi
    rw [BitVec.getLsbD_extractLsb', h i hi]
    simp [hi]
  obtain ⟨opc, ctx, rsvHi, xsel, order, rsvLo, w1, w2, w3⟩ := f
  rw [fieldsOf]
  rw [key 120 8 opc, key 119 1 ctx, key 113 6 rsvHi, key 112 1 xsel, key 104 8 order, key 96 8 rsvLo,
    key 64 32 w1, key 32 32 w2, key 0 32 w3]
  all_goals
    intro i hi
    rw [getLsbD_packetOf]
    repeat rw [if_neg (by omega)]
    try rw [if_pos (by omega)]
    dsimp only
    congr 1
    omega

/-- The packet made of a packet's fields is that packet: no bit of it is dropped. -/
theorem packetOf_fieldsOf (p : Packet) : packetOf (fieldsOf p) = p := by
  have slice : ∀ s n i : Nat, s ≤ i → i < s + n → (p.extractLsb' s n).getLsbD (i - s) = p.getLsbD i :=
    fun s n i h1 h2 => by
      rw [BitVec.getLsbD_extractLsb', decide_eq_true (by omega), Bool.true_and]
      congr 1
      omega
  apply BitVec.eq_of_getLsbD_eq
  intro i hi
  rw [getLsbD_packetOf]
  repeat' split
  · exact slice 0 32 i (by omega) (by omega)
  · exact slice 32 32 i (by omega) (by omega)
  · exact slice 64 32 i (by omega) (by omega)
  · exact slice 96 8 i (by omega) (by omega)
  · exact slice 104 8 i (by omega) (by omega)
  · exact slice 112 1 i (by omega) (by omega)
  · exact slice 113 6 i (by omega) (by omega)
  · exact slice 119 1 i (by omega) (by omega)
  · exact slice 120 8 i (by omega) (by omega)

/-- A packet is its fields. -/
theorem fieldsOf_injective (p q : Packet) (h : fieldsOf p = fieldsOf q) : p = q := by
  rw [← packetOf_fieldsOf p, h, packetOf_fieldsOf]

/-- What `accept` can answer. -/
theorem accept_ok (mnemonic : String) (f : PacketFields) (clean : Bool) (i j : Instr) :
    accept mnemonic f clean i = .ok j ↔ clean = true ∧ i.wellFormed = true ∧ i = j := by
  unfold accept
  cases clean <;> cases h : i.wellFormed <;> simp

/-- The fields of a masked packet are the masked fields. -/
theorem fieldsOf_and (p q : Packet) :
    fieldsOf (p &&& q) =
      ⟨(fieldsOf p).opc &&& (fieldsOf q).opc, (fieldsOf p).ctx &&& (fieldsOf q).ctx,
        (fieldsOf p).rsvHi &&& (fieldsOf q).rsvHi, (fieldsOf p).xsel &&& (fieldsOf q).xsel,
        (fieldsOf p).order &&& (fieldsOf q).order, (fieldsOf p).rsvLo &&& (fieldsOf q).rsvLo,
        (fieldsOf p).w1 &&& (fieldsOf q).w1, (fieldsOf p).w2 &&& (fieldsOf q).w2,
        (fieldsOf p).w3 &&& (fieldsOf q).w3⟩ := by
  simp only [fieldsOf, BitVec.extractLsb'_and]

/-- A row of the opcode map selects a packet when each field of the packet does so under its part of the
mask (30_encoding.md R85). -/
theorem selects_iff_fields (r : OpcodeRow) (p : Packet) :
    r.selects p = true ↔
      (fieldsOf p).opc &&& (fieldsOf r.mask).opc = (fieldsOf r.pattern).opc ∧
      (fieldsOf p).ctx &&& (fieldsOf r.mask).ctx = (fieldsOf r.pattern).ctx ∧
      (fieldsOf p).rsvHi &&& (fieldsOf r.mask).rsvHi = (fieldsOf r.pattern).rsvHi ∧
      (fieldsOf p).xsel &&& (fieldsOf r.mask).xsel = (fieldsOf r.pattern).xsel ∧
      (fieldsOf p).order &&& (fieldsOf r.mask).order = (fieldsOf r.pattern).order ∧
      (fieldsOf p).rsvLo &&& (fieldsOf r.mask).rsvLo = (fieldsOf r.pattern).rsvLo ∧
      (fieldsOf p).w1 &&& (fieldsOf r.mask).w1 = (fieldsOf r.pattern).w1 ∧
      (fieldsOf p).w2 &&& (fieldsOf r.mask).w2 = (fieldsOf r.pattern).w2 ∧
      (fieldsOf p).w3 &&& (fieldsOf r.mask).w3 = (fieldsOf r.pattern).w3 := by
  have ext : ∀ f g : PacketFields, f = g ↔ f.opc = g.opc ∧ f.ctx = g.ctx ∧ f.rsvHi = g.rsvHi ∧
      f.xsel = g.xsel ∧ f.order = g.order ∧ f.rsvLo = g.rsvLo ∧ f.w1 = g.w1 ∧ f.w2 = g.w2 ∧ f.w3 = g.w3 :=
    fun f g => by
      cases f
      cases g
      simp
  have whole : r.selects p = true ↔ fieldsOf (p &&& r.mask) = fieldsOf r.pattern := by
    unfold OpcodeRow.selects
    rw [beq_iff_eq]
    exact ⟨congrArg fieldsOf, fieldsOf_injective _ _⟩
  rw [whole, fieldsOf_and, ext]

/-- What decoding on fields can do: one case per opcode of 30_encoding.md R85, and the case of none. -/
theorem decodeFields_cases (f : PacketFields) :
    (f.opc = 0x01#8 ∧ decodeFields f = accept "CONSTRUCT" f (cleanK f) (.construct f.ctx f.xsel f.order f.w1 f.w2 f.w3)) ∨
    (f.opc = 0x02#8 ∧ decodeFields f = accept "GETSYMLEN" f (cleanQ f) (.getsymlen f.ctx)) ∨
    (f.opc = 0x03#8 ∧ decodeFields f = accept "GETCAP" f (cleanQ f) (.getcap f.ctx)) ∨
    (f.opc = 0x04#8 ∧ decodeFields f = accept "MODULATE" f (cleanB2 f) (.modulate f.ctx f.w1 f.w2)) ∨
    (f.opc = 0x05#8 ∧ decodeFields f = accept "DEMODULATE" f (cleanB1 f) (.demodulate f.ctx f.w1)) ∨
    (f.opc = 0x10#8 ∧ decodeFields f = accept "MAP" f (cleanM1 f) (.map f.order f.w1)) ∨
    (f.opc = 0x11#8 ∧ decodeFields f = accept "DEMAP" f (cleanM0 f) (.demap f.order)) ∨
    (f.opc = 0x20#8 ∧ decodeFields f = accept "B2F" f (cleanB1 f) (.b2f f.ctx f.w1)) ∨
    (f.opc = 0x21#8 ∧ decodeFields f = accept "F2B" f (cleanB1 f) (.f2b f.ctx f.w1)) ∨
    (f.opc = 0x28#8 ∧ decodeFields f = accept "XFWD" f (cleanB1 f) (.xfwd f.ctx f.w1)) ∨
    (f.opc = 0x29#8 ∧ decodeFields f = accept "XINV" f (cleanB1 f) (.xinv f.ctx f.w1)) ∨
    (f.opc = 0x30#8 ∧ decodeFields f = accept "CPADD" f (cleanB1 f) (.cpadd f.ctx f.w1)) ∨
    (f.opc = 0x31#8 ∧ decodeFields f = accept "CPSTRIP" f (cleanB1 f) (.cpstrip f.ctx f.w1)) ∨
    (f.opc ∉ [0x01#8, 0x02#8, 0x03#8, 0x04#8, 0x05#8, 0x10#8, 0x11#8, 0x20#8, 0x21#8, 0x28#8, 0x29#8, 0x30#8, 0x31#8] ∧
      decodeFields f = .error (.unassignedOpcode f.opc)) := by
  unfold decodeFields
  by_cases h0 : f.opc = 0x01#8
  · rw [if_pos h0]
    exact Or.inl ⟨h0, rfl⟩
  by_cases h1 : f.opc = 0x02#8
  · rw [if_neg h0, if_pos h1]
    exact Or.inr (Or.inl ⟨h1, rfl⟩)
  by_cases h2 : f.opc = 0x03#8
  · rw [if_neg h0, if_neg h1, if_pos h2]
    exact Or.inr (Or.inr (Or.inl ⟨h2, rfl⟩))
  by_cases h3 : f.opc = 0x04#8
  · rw [if_neg h0, if_neg h1, if_neg h2, if_pos h3]
    exact Or.inr (Or.inr (Or.inr (Or.inl ⟨h3, rfl⟩)))
  by_cases h4 : f.opc = 0x05#8
  · rw [if_neg h0, if_neg h1, if_neg h2, if_neg h3, if_pos h4]
    exact Or.inr (Or.inr (Or.inr (Or.inr (Or.inl ⟨h4, rfl⟩))))
  by_cases h5 : f.opc = 0x10#8
  · rw [if_neg h0, if_neg h1, if_neg h2, if_neg h3, if_neg h4, if_pos h5]
    exact Or.inr (Or.inr (Or.inr (Or.inr (Or.inr (Or.inl ⟨h5, rfl⟩)))))
  by_cases h6 : f.opc = 0x11#8
  · rw [if_neg h0, if_neg h1, if_neg h2, if_neg h3, if_neg h4, if_neg h5, if_pos h6]
    exact Or.inr (Or.inr (Or.inr (Or.inr (Or.inr (Or.inr (Or.inl ⟨h6, rfl⟩))))))
  by_cases h7 : f.opc = 0x20#8
  · rw [if_neg h0, if_neg h1, if_neg h2, if_neg h3, if_neg h4, if_neg h5, if_neg h6, if_pos h7]
    exact Or.inr (Or.inr (Or.inr (Or.inr (Or.inr (Or.inr (Or.inr (Or.inl ⟨h7, rfl⟩)))))))
  by_cases h8 : f.opc = 0x21#8
  · rw [if_neg h0, if_neg h1, if_neg h2, if_neg h3, if_neg h4, if_neg h5, if_neg h6, if_neg h7, if_pos h8]
    exact Or.inr (Or.inr (Or.inr (Or.inr (Or.inr (Or.inr (Or.inr (Or.inr (Or.inl ⟨h8, rfl⟩))))))))
  by_cases h9 : f.opc = 0x28#8
  · rw [if_neg h0, if_neg h1, if_neg h2, if_neg h3, if_neg h4, if_neg h5, if_neg h6, if_neg h7, if_neg h8, if_pos h9]
    exact Or.inr (Or.inr (Or.inr (Or.inr (Or.inr (Or.inr (Or.inr (Or.inr (Or.inr (Or.inl ⟨h9, rfl⟩)))))))))
  by_cases h10 : f.opc = 0x29#8
  · rw [if_neg h0, if_neg h1, if_neg h2, if_neg h3, if_neg h4, if_neg h5, if_neg h6, if_neg h7, if_neg h8, if_neg h9, if_pos h10]
    exact Or.inr (Or.inr (Or.inr (Or.inr (Or.inr (Or.inr (Or.inr (Or.inr (Or.inr (Or.inr (Or.inl ⟨h10, rfl⟩))))))))))
  by_cases h11 : f.opc = 0x30#8
  · rw [if_neg h0, if_neg h1, if_neg h2, if_neg h3, if_neg h4, if_neg h5, if_neg h6, if_neg h7, if_neg h8, if_neg h9, if_neg h10, if_pos h11]
    exact Or.inr (Or.inr (Or.inr (Or.inr (Or.inr (Or.inr (Or.inr (Or.inr (Or.inr (Or.inr (Or.inr (Or.inl ⟨h11, rfl⟩)))))))))))
  by_cases h12 : f.opc = 0x31#8
  · rw [if_neg h0, if_neg h1, if_neg h2, if_neg h3, if_neg h4, if_neg h5, if_neg h6, if_neg h7, if_neg h8, if_neg h9, if_neg h10, if_neg h11, if_pos h12]
    exact Or.inr (Or.inr (Or.inr (Or.inr (Or.inr (Or.inr (Or.inr (Or.inr (Or.inr (Or.inr (Or.inr (Or.inr (Or.inl ⟨h12, rfl⟩))))))))))))
  rw [if_neg h0, if_neg h1, if_neg h2, if_neg h3, if_neg h4, if_neg h5, if_neg h6, if_neg h7, if_neg h8, if_neg h9, if_neg h10, if_neg h11, if_neg h12]
  exact Or.inr (Or.inr (Or.inr (Or.inr (Or.inr (Or.inr (Or.inr (Or.inr (Or.inr (Or.inr (Or.inr (Or.inr (Or.inr (⟨by simp only [List.mem_cons, List.not_mem_nil, or_false, not_or]; exact ⟨h0, h1, h2, h3, h4, h5, h6, h7, h8, h9, h10, h11, h12⟩, rfl⟩)))))))))))))

end Sys2Proof
end

