-- ==== Sys2Proof/Laws/Params.lean ====
section
/-! SUPPORT. What each field of the two engines' parameters is, once, by rfl, for simp: no later proof unfolds
`engineParams`, `numF64` or `exactParams` (unfolding them lets the elaborator compute with 2^1074). -/

namespace Sys2Proof

@[simp] theorem numF64_add : numF64.add = F64.add := rfl
@[simp] theorem numF64_sub : numF64.sub = F64.sub := rfl
@[simp] theorem numF64_mul : numF64.mul = F64.mul := rfl
@[simp] theorem numF64_div : numF64.div = F64.div := rfl
@[simp] theorem numF64_lt : numF64.lt = F64.lt := rfl
@[simp] theorem numF64_eq : numF64.eq = F64.eq := rfl
@[simp] theorem numF64_ofInt : numF64.ofInt = F64.ofInt := rfl
@[simp] theorem numF64_ofReal (x : ℝ) : numF64.ofReal x = F64.ofReal x := by simp [Num.ofReal, numF64]

/-- What `F64.ofReal` does, in steps of 2^−1076: on a whole number of them, and between two. -/
theorem F64.ofReal_of_steps (x : ℝ) (s : Nat) (h : (s : ℝ) = |x| * 2 ^ 1076) :
    F64.ofReal x = F64.pack (decide (x < 0)) (F64.roundBits (2 * s) 8) := by
  rw [F64.ofReal, ← h, Nat.floor_natCast]
  rw [if_pos rfl]

theorem F64.ofReal_between_steps (x : ℝ) (s : Nat) (h₁ : (s : ℝ) < |x| * 2 ^ 1076)
    (h₂ : |x| * 2 ^ 1076 < s + 1) :
    F64.ofReal x = F64.pack (decide (x < 0)) (F64.roundBits (2 * s + 1) 8) := by
  have hs : ⌊|x| * 2 ^ 1076⌋₊ = s := (Nat.floor_eq_iff (s.cast_nonneg.trans h₁.le)).2 ⟨h₁.le, h₂⟩
  rw [F64.ofReal, hs]
  rw [if_neg h₁.ne]

@[simp] theorem engineParams_nctx : engineParams.nctx = 2 := rfl
@[simp] theorem engineParams_fieldW : engineParams.fieldW = 32 := rfl
@[simp] theorem engineParams_orders : engineParams.orders = [4, 16, 64, 256] := rfl
@[simp] theorem engineParams_num : engineParams.num = numF64 := rfl
@[simp] theorem engineParams_nscMax : engineParams.nscMax = 4096 := rfl
@[simp] theorem engineParams_point : engineParams.point = defaultPoint := rfl
@[simp] theorem engineParams_txScale : engineParams.txScale = F64.sqrtNat := rfl
@[simp] theorem engineParams_xd : engineParams.xd = directProvider numF64 twiddle := rfl
@[simp] theorem engineParams_xp : engineParams.xp = Config.xp := rfl
@[simp] theorem engineParams_openDemap : engineParams.openDemap = openGroup := rfl
@[simp] theorem engineParams_bitbufCap : engineParams.bitbufCap = 32752 := rfl
@[simp] theorem engineParams_sampbufCap : engineParams.sampbufCap = 8191 := rfl

namespace Machine

@[simp] theorem numExact_add (a b : ℝ) : numExact.add a b = a + b := rfl
@[simp] theorem numExact_sub (a b : ℝ) : numExact.sub a b = a - b := rfl
@[simp] theorem numExact_mul (a b : ℝ) : numExact.mul a b = a * b := rfl
theorem numExact_div (a b : ℝ) : numExact.div a b = if b = 0 then Config.exactDivByZero a else a / b := rfl
@[simp] theorem numExact_div_of_ne (a b : ℝ) (hb : b ≠ 0) : numExact.div a b = a / b := if_neg hb
@[simp] theorem numExact_lt (a b : ℝ) : numExact.lt a b = true ↔ a < b := by simp [numExact]
@[simp] theorem numExact_eq (a b : ℝ) : numExact.eq a b = true ↔ a = b := by simp [numExact]
@[simp] theorem numExact_ofInt (n : Int) : numExact.ofInt n = (n : ℝ) := rfl
@[simp] theorem numExact_ofReal (x : ℝ) : numExact.ofReal x = x := by simp [Num.ofReal, numExact]
@[simp] theorem numExact_zero : numExact.zero = 0 := by simp [Num.zero]

variable (nscMax : Nat) (pilotRef : Cx ℝ) (txScale : Nat → ℝ) (xp : Provider ℝ)

@[simp] theorem exactParams_nctx : (exactParams nscMax pilotRef txScale xp).nctx = 2 := rfl
@[simp] theorem exactParams_fieldW : (exactParams nscMax pilotRef txScale xp).fieldW = 32 := rfl
@[simp] theorem exactParams_orders : (exactParams nscMax pilotRef txScale xp).orders = [4, 16, 64, 256] := rfl
@[simp] theorem exactParams_num : (exactParams nscMax pilotRef txScale xp).num = numExact := rfl
@[simp] theorem exactParams_nscMax : (exactParams nscMax pilotRef txScale xp).nscMax = nscMax := rfl
@[simp] theorem exactParams_point : (exactParams nscMax pilotRef txScale xp).point = exactPoint := rfl
@[simp] theorem exactParams_pilotRef : (exactParams nscMax pilotRef txScale xp).pilotRef = pilotRef := rfl
@[simp] theorem exactParams_txScale : (exactParams nscMax pilotRef txScale xp).txScale = txScale := rfl
@[simp] theorem exactParams_xd : (exactParams nscMax pilotRef txScale xp).xd = exactProvider := rfl
@[simp] theorem exactParams_xp : (exactParams nscMax pilotRef txScale xp).xp = xp := rfl
@[simp] theorem exactParams_openDemap (bps : Nat) (z : Cx ℝ) :
    (exactParams nscMax pilotRef txScale xp).openDemap bps z = none := rfl

/-- The syntax and the decoder use the parameters fixed by decision: `CTX` tells `NCTX` contexts apart, a count
field has `FIELD_W` bits, and the legal `ORDER` fields are those of `ORDERS`. -/
theorem Params.Legal.ctx_field {T : Type} {P : Params T} {R : Reading T} (h : P.Legal R) : 2 ^ 1 = P.nctx := by
  simp [h.nctx]

theorem Params.Legal.count_field {T : Type} {P : Params T} {R : Reading T} (h : P.Legal R) :
    Word = BitVec P.fieldW := by rw [h.fieldW]

theorem Params.Legal.order_field {T : Type} {P : Params T} {R : Reading T} (h : P.Legal R) (order : BitVec 8) :
    legalOrder order = true ↔ 2 ^ order.toNat ∈ P.orders := by
  rw [h.orders]
  revert order
  decide +kernel

end Machine

end Sys2Proof
end

