-- ==== Sys2Proof/Laws/PerInstr.lean ====
section
/-! SUPPORT. One lemma per command: the packet of a command selects the row of the opcode map that bears
its mnemonic, whatever its operands (30_encoding.md R85). -/

namespace Sys2Proof

/-- The row of a mnemonic in the opcode map, the empty row for any other string. -/
def rowOf (mnemonic : String) : OpcodeRow :=
  (opcodeTable.find? fun r => r.mnemonic == mnemonic).getD ⟨"", 0, 0⟩

/-- An encoded packet selects a row when its fields do. -/
theorem selects_encode (r : OpcodeRow) (i : Instr) (m f : PacketFields) (hm : fieldsOf r.mask = m)
    (hf : fieldsOf r.pattern = f)
    (h : (encodeFields i).opc &&& m.opc = f.opc ∧ (encodeFields i).ctx &&& m.ctx = f.ctx ∧
      (encodeFields i).rsvHi &&& m.rsvHi = f.rsvHi ∧ (encodeFields i).xsel &&& m.xsel = f.xsel ∧
      (encodeFields i).order &&& m.order = f.order ∧ (encodeFields i).rsvLo &&& m.rsvLo = f.rsvLo ∧
      (encodeFields i).w1 &&& m.w1 = f.w1 ∧ (encodeFields i).w2 &&& m.w2 = f.w2 ∧
      (encodeFields i).w3 &&& m.w3 = f.w3) : r.selects (encode i) = true := by
  subst hm hf
  rw [selects_iff_fields, encode, fieldsOf_packetOf]
  exact h

namespace Laws.TableRow

/-- The packet of the command selects the row of its mnemonic. -/
def Statement (i : Instr) : Prop := (rowOf i.mnemonic).selects (encode i) = true

theorem construct (c x : BitVec 1) (o : BitVec 8) (n l p : Word) : Statement (.construct c x o n l p) :=
  selects_encode (rowOf "CONSTRUCT") _ ⟨0xFF, 0, 0x3F, 0, 0, 0xFF, 0, 0, 0⟩ ⟨0x01, 0, 0, 0, 0, 0, 0, 0, 0⟩
    (by decide +kernel) (by decide +kernel) (by simp [encodeFields])

theorem getsymlen (c : BitVec 1) : Statement (.getsymlen c) :=
  selects_encode (rowOf "GETSYMLEN") _ ⟨0xFF, 0, 0x3F, 1, 0xFF, 0xFF, 0xFFFFFFFF, 0xFFFFFFFF, 0xFFFFFFFF⟩ ⟨0x02, 0, 0, 0, 0, 0, 0, 0, 0⟩
    (by decide +kernel) (by decide +kernel) (by simp [encodeFields])

theorem getcap (c : BitVec 1) : Statement (.getcap c) :=
  selects_encode (rowOf "GETCAP") _ ⟨0xFF, 0, 0x3F, 1, 0xFF, 0xFF, 0xFFFFFFFF, 0xFFFFFFFF, 0xFFFFFFFF⟩ ⟨0x03, 0, 0, 0, 0, 0, 0, 0, 0⟩
    (by decide +kernel) (by decide +kernel) (by simp [encodeFields])

theorem modulate (c : BitVec 1) (a b : Word) : Statement (.modulate c a b) :=
  selects_encode (rowOf "MODULATE") _ ⟨0xFF, 0, 0x3F, 1, 0xFF, 0xFF, 0, 0, 0xFFFFFFFF⟩ ⟨0x04, 0, 0, 0, 0, 0, 0, 0, 0⟩
    (by decide +kernel) (by decide +kernel) (by simp [encodeFields])

theorem demodulate (c : BitVec 1) (a : Word) : Statement (.demodulate c a) :=
  selects_encode (rowOf "DEMODULATE") _ ⟨0xFF, 0, 0x3F, 1, 0xFF, 0xFF, 0, 0xFFFFFFFF, 0xFFFFFFFF⟩ ⟨0x05, 0, 0, 0, 0, 0, 0, 0, 0⟩
    (by decide +kernel) (by decide +kernel) (by simp [encodeFields])

theorem map (o : BitVec 8) (a : Word) : Statement (.map o a) :=
  selects_encode (rowOf "MAP") _ ⟨0xFF, 1, 0x3F, 1, 0, 0xFF, 0, 0xFFFFFFFF, 0xFFFFFFFF⟩ ⟨0x10, 0, 0, 0, 0, 0, 0, 0, 0⟩
    (by decide +kernel) (by decide +kernel) (by simp [encodeFields])

theorem demap (o : BitVec 8) : Statement (.demap o) :=
  selects_encode (rowOf "DEMAP") _ ⟨0xFF, 1, 0x3F, 1, 0, 0xFF, 0xFFFFFFFF, 0xFFFFFFFF, 0xFFFFFFFF⟩ ⟨0x11, 0, 0, 0, 0, 0, 0, 0, 0⟩
    (by decide +kernel) (by decide +kernel) (by simp [encodeFields])

theorem b2f (c : BitVec 1) (a : Word) : Statement (.b2f c a) :=
  selects_encode (rowOf "B2F") _ ⟨0xFF, 0, 0x3F, 1, 0xFF, 0xFF, 0, 0xFFFFFFFF, 0xFFFFFFFF⟩ ⟨0x20, 0, 0, 0, 0, 0, 0, 0, 0⟩
    (by decide +kernel) (by decide +kernel) (by simp [encodeFields])

theorem f2b (c : BitVec 1) (a : Word) : Statement (.f2b c a) :=
  selects_encode (rowOf "F2B") _ ⟨0xFF, 0, 0x3F, 1, 0xFF, 0xFF, 0, 0xFFFFFFFF, 0xFFFFFFFF⟩ ⟨0x21, 0, 0, 0, 0, 0, 0, 0, 0⟩
    (by decide +kernel) (by decide +kernel) (by simp [encodeFields])

theorem xfwd (c : BitVec 1) (a : Word) : Statement (.xfwd c a) :=
  selects_encode (rowOf "XFWD") _ ⟨0xFF, 0, 0x3F, 1, 0xFF, 0xFF, 0, 0xFFFFFFFF, 0xFFFFFFFF⟩ ⟨0x28, 0, 0, 0, 0, 0, 0, 0, 0⟩
    (by decide +kernel) (by decide +kernel) (by simp [encodeFields])

theorem xinv (c : BitVec 1) (a : Word) : Statement (.xinv c a) :=
  selects_encode (rowOf "XINV") _ ⟨0xFF, 0, 0x3F, 1, 0xFF, 0xFF, 0, 0xFFFFFFFF, 0xFFFFFFFF⟩ ⟨0x29, 0, 0, 0, 0, 0, 0, 0, 0⟩
    (by decide +kernel) (by decide +kernel) (by simp [encodeFields])

theorem cpadd (c : BitVec 1) (a : Word) : Statement (.cpadd c a) :=
  selects_encode (rowOf "CPADD") _ ⟨0xFF, 0, 0x3F, 1, 0xFF, 0xFF, 0, 0xFFFFFFFF, 0xFFFFFFFF⟩ ⟨0x30, 0, 0, 0, 0, 0, 0, 0, 0⟩
    (by decide +kernel) (by decide +kernel) (by simp [encodeFields])

theorem cpstrip (c : BitVec 1) (a : Word) : Statement (.cpstrip c a) :=
  selects_encode (rowOf "CPSTRIP") _ ⟨0xFF, 0, 0x3F, 1, 0xFF, 0xFF, 0, 0xFFFFFFFF, 0xFFFFFFFF⟩ ⟨0x31, 0, 0, 0, 0, 0, 0, 0, 0⟩
    (by decide +kernel) (by decide +kernel) (by simp [encodeFields])

end Laws.TableRow

end Sys2Proof
end

