-- ==== Sys2Proof/Laws/Sequences.lean ====
section
/-! SUPPORT. The functions on sequences element by element: the entries of a frequency vector, the bit groups of
a demapped sequence, provider answers, the cyclic prefix, the nearest pilot; and what the checks of a
command on a context answer in each of their three cases. -/

namespace Sys2Proof.Machine

variable {T : Type}

/-- The entries of the vector that `bitsToFreq` builds, by role (43_frame_layout.md R145's closed form). -/
theorem fillRoles_entry (P : Params T) (bps : Nat) (roles : List Role) (b : List Bool) (V : List (Cx T))
    (h : fillRoles P bps roles b = .ok V) (d : Nat) (hd : d < roles.length) :
    (roles[d]? = some .guard → V[d]? = some (czero P.num)) ∧
    (roles[d]? = some .pilot → V[d]? = some P.pilotRef) ∧
    (roles[d]? = some .data →
      V[d]? = some (P.point bps (valOf ((b.drop (rankOf .data roles d * bps)).take bps)))) := by
  induction roles generalizing b V d with
  | nil => simp at hd
  | cons r rs ih =>
    have uncons : ∀ {x : Except EngineError (List (Cx T))} {z : Cx T},
        x.map (z :: ·) = .ok V → ∃ W, x = .ok W ∧ V = z :: W := by
      intro x z h
      cases x with
      | error e => simp [Except.map] at h
      | ok W => exact ⟨W, rfl, by simpa [Except.map] using h.symm⟩
    cases r with
    | guard =>
      obtain ⟨W, hW, rfl⟩ := uncons h
      cases d with
      | zero => simp
      | succ d => simpa [rankOf] using ih b W hW d (by simpa using hd)
    | pilot =>
      obtain ⟨W, hW, rfl⟩ := uncons h
      cases d with
      | zero => simp
      | succ d => simpa [rankOf] using ih b W hW d (by simpa using hd)
    | data =>
      rw [fillRoles] at h
      rcases mapGroup_cases P bps (b.take bps) with ⟨_, hm⟩ | ⟨_, hm⟩ <;> rw [hm] at h
      · obtain ⟨W, hW, rfl⟩ := uncons h
        cases d with
        | zero => simp [rankOf]
        | succ d =>
          have := ih (b.drop bps) W hW d (by simpa using hd)
          simp only [List.getElem?_cons_succ, List.drop_drop, rankOf, List.take_succ_cons,
            List.count_cons_self] at this ⊢
          rwa [show (List.count Role.data (List.take d rs) + 1) * bps =
            bps + List.count Role.data (List.take d rs) * bps by ring]
      · cases h

/-- A whole prefix of `BI` as a bit group. -/
theorem inputGroup_eq (s : State) (n : Nat) : inputGroup s 0 n = s.inputs.bits n := by
  simp [inputGroup, Inputs.bits]

/-- A bit group cut out of a prefix of `BI`. -/
theorem inputGroup_sub (s : State) (n a m : Nat) (h : a + m ≤ n) :
    ((s.inputs.bits n).drop a).take m = inputGroup s a m := by
  apply List.ext_getElem
  · simp [inputGroup, Inputs.bits]
    omega
  · intro i h1 h2
    simp [inputGroup, Inputs.bits]

/-- An index of a role comes before all indices of that role are used up. -/
theorem rankOf_lt_count (r : Role) (roles : List Role) (d : Nat) (h : roles[d]? = some r) :
    rankOf r roles d < roles.count r := by
  unfold rankOf
  conv_rhs => rw [← List.take_append_drop d roles, List.count_append]
  have : roles.drop d = r :: roles.drop (d + 1) := by
    have hd : d < roles.length := (List.getElem?_eq_some_iff.1 h).1
    rw [List.drop_eq_getElem_cons hd]
    congr 1
    exact (List.getElem?_eq_some_iff.1 h).2
  simp [this]

/-- The index at its own rank. -/
theorem roleIndices_rankOf (r : Role) (roles : List Role) (d k : Nat) (h : roles[d]? = some r) :
    (roleIndices r k roles)[rankOf r roles d]? = some (k + d) := by
  induction roles generalizing d k with
  | nil => simp at h
  | cons x xs ih =>
    cases d with
    | zero =>
      simp only [List.getElem?_cons_zero, Option.some.injEq] at h
      simp [h, roleIndices, rankOf]
    | succ d =>
      have := ih d (k + 1) (by simpa using h)
      unfold roleIndices
      simp only [rankOf, List.take_succ_cons] at this ⊢
      split
      · rename_i hx
        rw [hx, List.count_cons_self, List.getElem?_cons_succ, this]
        congr 1
        omega
      · rename_i hx
        rw [List.count_cons_of_ne hx, this]
        congr 1
        omega

/-- Bit `b` of group `j` of a concatenation of groups of one length. -/
theorem getElem?_flatMap_group {α : Type} (f : α → List Bool) (n : Nat) (hf : ∀ a, (f a).length = n)
    (l : List α) (j b : Nat) (hb : b < n) (z : α) (hz : l[j]? = some z) :
    (l.flatMap f)[j * n + b]? = (f z)[b]? := by
  induction l generalizing j with
  | nil => simp at hz
  | cons a l ih =>
    rw [List.flatMap_cons]
    cases j with
    | zero =>
      simp only [List.getElem?_cons_zero, Option.some.injEq] at hz
      rw [List.getElem?_append_left (by rw [hf]; omega), hz, Nat.zero_mul, Nat.zero_add]
    | succ j =>
      rw [List.getElem?_append_right (by rw [hf]; nlinarith), hf]
      rw [show (j + 1) * n + b - n = j * n + b by rw [Nat.succ_mul]; omega]
      exact ih j (by simpa using hz)

/-- The scan of 47_demodulator.md R214 keeps the least distance and the lowest position. -/
theorem nearestFrom_spec (d : Nat) (all : List Nat) (i best pbest : Nat) (rest : List Nat)
    (hb : all[best]? = some pbest) (hbi : best < i) (hr : all.drop i = rest)
    (h1 : ∀ j q : Nat, j < i → all[j]? = some q → absDiff d pbest ≤ absDiff d q)
    (h2 : ∀ j q : Nat, j < best → all[j]? = some q → absDiff d pbest < absDiff d q) :
    ∃ p, all[nearestFrom d i best pbest rest]? = some p ∧
      (∀ j q : Nat, all[j]? = some q → absDiff d p ≤ absDiff d q) ∧
      ∀ j q : Nat, j < nearestFrom d i best pbest rest → all[j]? = some q → absDiff d p < absDiff d q := by
  induction rest generalizing i best pbest with
  | nil =>
    refine ⟨pbest, hb, fun j q hq => h1 j q ?_ hq, h2⟩
    have := (List.getElem?_eq_some_iff.1 hq).1
    have := List.drop_eq_nil_iff.1 hr
    omega
  | cons p ps ih =>
    have hp : all[i]? = some p := by
      have : (all.drop i)[0]? = some p := by rw [hr]; rfl
      simpa using this
    have hps : all.drop (i + 1) = ps := by rw [← List.drop_drop (i := 1) (j := i), hr]; rfl
    unfold nearestFrom
    split
    · rename_i hlt
      apply ih (i + 1) i p hp (by omega) hps
      · intro j q hj hq
        rcases Nat.lt_succ_iff_lt_or_eq.1 hj with hj | rfl
        · have := h1 j q hj hq
          omega
        · rw [hp, Option.some.injEq] at hq
          rw [hq]
      · intro j q hj hq
        have := h1 j q hj hq
        omega
    · rename_i hlt
      apply ih (i + 1) best pbest hb (by omega) hps _ h2
      intro j q hj hq
      rcases Nat.lt_succ_iff_lt_or_eq.1 hj with hj | rfl
      · exact h1 j q hj hq
      · rw [hp, Option.some.injEq] at hq
        rw [← hq]
        omega

/-- Entry `j` of a provider's answer. -/
theorem getElem?_askProvider (p : Provider T) (dir : Dir) (x : List (Cx T)) (N : Nat) (hx : x.length = N) (j : Nat)
    (hj : j < N) : (askProvider p dir x)[j]? = some (p dir N x j) := by
  subst hx
  simp [askProvider, hj]

/-- Sample `i` of a prefixed sequence (45_cyclic_prefix.md R180). -/
theorem getElem?_prepend {α : Type} (x : List α) (L i : Nat) (hL : L ≤ x.length) :
    (prepend x L)[i]? = if i < L then x[x.length - L + i]? else x[i - L]? := by
  unfold prepend
  rw [List.getElem?_append]
  have : (x.drop (x.length - L)).length = L := by
    rw [List.length_drop]
    omega
  rw [this]
  split
  · rw [List.getElem?_drop]
  · rfl

/-- Bits and samples handed over as a list are the list. -/
theorem inputs_bits_getD (l : List Bool) (f : Nat → Cx T) :
    (Inputs.bits ⟨fun j => l.getD j false, f⟩ l.length) = l := by
  apply List.ext_getElem
  · simp
  · intro i h1 h2
    simp [Inputs.bits, List.getElem?_eq_getElem h2]

theorem inputs_samples_getD (f : Nat → Bool) (l : List (Cx T)) (z : Cx T) :
    (Inputs.samples ⟨f, fun j => l.getD j z⟩ l.length) = l := by
  apply List.ext_getElem
  · simp
  · intro i h1 h2
    simp [Inputs.samples, List.getElem?_eq_getElem h2]

/-- CPADD's VALUE is `SYMLEN`. -/
theorem nsc_add_cplen (P : Params T) (k : Ctx) (hk : Ctx.InvFor P k) (hv : k.valid = true) : k.nsc + k.cplen = k.symlen := by
  obtain ⟨h4, hmax, hcp, ho, hb, hsym, hroles, _, hdata, _, hcap⟩ := hk hv
  apply BitVec.eq_of_toNat_eq
  rw [hsym, BitVec.toNat_add, Nat.mod_eq_of_lt]
  · rfl
  · unfold Ctx.n Ctx.cp at *
    omega

/-- A command on a constructed context whose lengths are right goes on. -/
theorem checks_pass (c : BitVec 1) (e : EngineState) (ok : Ctx → Bool) (body : Ctx → Effect T)
    (h : ok (e.ctx c) = true) (hv : (e.ctx c).valid = true) :
    withContext c e (fun k => withLength (ok k) (body k)) = body (e.ctx c) := by
  rw [withContext_valid _ _ _ hv]
  simp [withLength, h]

/-- A wrong length is `BufferSizeMismatch`. -/
theorem checks_length (c : BitVec 1) (e : EngineState) (ok : Ctx → Bool) (body : Ctx → Effect T)
    (h : ok (e.ctx c) = false) (hv : (e.ctx c).valid = true) :
    withContext c e (fun k => withLength (ok k) (body k)) = .fail .bufferSizeMismatch := by
  rw [withContext_valid _ _ _ hv]
  simp [withLength, h]

/-- The responses of the two checks, written out. -/
theorem deliver_bufferSizeMismatch (s : State) :
    deliver (.fail .bufferSizeMismatch) s = { s with resp := some ⟨2, 0⟩ } := rfl

theorem deliver_notConstructed (s : State) :
    deliver (.fail .notConstructed) s = { s with resp := some ⟨4, 0⟩ } := rfl

end Sys2Proof.Machine
end

