-- ==== Sys2Proof/Tests/Slice0.lean ====
section
/-! SUPPORT. The model's own tests, each on one step of a small machine, their expected results taken from the
vectors of spec/95_test_vectors.md and the worked encodings of 30_encoding.md R92; and for each statement
with hypotheses a witness that meets them. -/

namespace Sys2Proof.Tests

-- One theorem at a time: these are evaluated by the kernel, and waiting ones would each hold a thread.
set_option Elab.async false

open Sys2Proof.Machine

/-! ### Helpers -/

/-- The machine with a packet at its port. -/
def issue (p : Packet) (s : State) : State := { s with cmd := some p }

/-- The machine after one step, if it goes on. -/
def after (s : State) : Option State :=
  match step s with
  | .next t => some t
  | .fault _ => none
  | .refused _ => none

/-- What one packet answers, `STATUS` and `VALUE`. -/
def answer (p : Packet) (s : State) : Option (Nat × Nat) :=
  ((after (issue p s)).bind (·.resp)).map fun r => (r.status.toNat, r.value.toNat)

/-- The first `n` samples of `SO` after one packet. -/
def samplesOut (n : Nat) (p : Packet) (s : State) : Option (List Sample) :=
  (after (issue p s)).map fun t => (List.range n).map (t.mem.sample .so)

/-- The first `n` bits of `BO` after one packet. -/
def bitsOut (n : Nat) (p : Packet) (s : State) : Option (List Bool) :=
  (after (issue p s)).map fun t => (List.range n).map (t.mem.bit .bo)

/-- Bits in `BI`, first bit on the left. -/
def withBits (vs : List Bool) (s : State) : State := { s with mem := s.mem.writeBits .bi 0 vs }

/-- Samples in `SI`. -/
def withSamples (vs : List Sample) (s : State) : State := { s with mem := s.mem.writeSamples .si 0 vs }

/-- Bits written as 0 and 1. -/
def bitList (vs : List Nat) : List Bool := vs.map (· == 1)

/-- A sample of two integers. -/
def whole (re im : Int) : Sample := ⟨F64.ofInt re, F64.ofInt im⟩

/-- Equal as numbers, part by part: the two zeros are not told apart. -/
def sameNumbers (x : Option (List Sample)) (y : List Sample) : Bool :=
  match x with
  | none => false
  | some l => l.length == y.length &&
      (l.zip y).all fun p => F64.eq p.1.re p.2.re && F64.eq p.1.im p.2.im

/-- The machine after one CONSTRUCT from reset. -/
def built (c x : BitVec 1) (order : BitVec 8) (nsc cplen pevery : Word) : State :=
  deliver (constructCmd engineParams c x order nsc cplen pevery) State.reset

/-- Context 0 of 95_test_vectors.md section 3: N = 4, CP = 1, P = 0, QAM4. -/
def small : State := built 0 0 2 4 1 0

/-- Context 0 of 95_test_vectors.md section 2.8: N = 8, CP = 2, P = 3, QAM16. -/
def piloted : State := built 0 0 4 8 2 3

/-- a = 1/sqrt(2), 1/sqrt(10) and 3/sqrt(10) in binary64, and their negatives. -/
def a2 : F64 := 0x3FE6A09E667F3BCD#64
def n2 : F64 := 0xBFE6A09E667F3BCD#64
def a10 : F64 := 0x3FD43D136248490F#64
def n10 : F64 := 0xBFD43D136248490F#64
def b10 : F64 := 0x3FEE5B9D136C6D96#64
def m10 : F64 := 0xBFEE5B9D136C6D96#64

/-! ### Well-formedness: the one check, on each command that has it (30_encoding.md R88) -/

theorem test_illformed_construct : (Instr.construct 0 0 3 8 2 0).wellFormed = false := by decide
theorem test_illformed_map : (Instr.map 9 2).wellFormed = false := by decide
theorem test_illformed_demap : (Instr.demap 0).wellFormed = false := by decide
theorem test_orders_wellformed :
    [2#8, 4#8, 6#8, 8#8].map legalOrder = [true, true, true, true] := by decide

/-! ### Decoding: the packets of 30_encoding.md R92 -/

theorem test_decode_construct :
    decode 0x01000400000000400000000400000004#128 = .ok (.construct 0 0 4 64 4 4) ∧
    decode 0x01800400000000400000000400000004#128 = .ok (.construct 1 0 4 64 4 4) ∧
    decode 0x01810200000000080000000200000000#128 = .ok (.construct 1 1 2 8 2 0) := by decide +kernel
theorem test_decode_getsymlen :
    decode 0x02000000000000000000000000000000#128 = .ok (.getsymlen 0) := by decide +kernel
theorem test_decode_getcap :
    decode 0x03800000000000000000000000000000#128 = .ok (.getcap 1) := by decide +kernel
theorem test_decode_modulate :
    decode 0x04000000000000BC0000004400000000#128 = .ok (.modulate 0 188 68) := by decide +kernel
theorem test_decode_demodulate :
    decode 0x05800000000000440000000000000000#128 = .ok (.demodulate 1 68) := by decide +kernel
theorem test_decode_map :
    decode 0x10000400000000040000000000000000#128 = .ok (.map 4 4) := by decide +kernel
theorem test_decode_demap :
    decode 0x11000800000000000000000000000000#128 = .ok (.demap 8) := by decide +kernel
theorem test_decode_b2f :
    decode 0x20000000000000BC0000000000000000#128 = .ok (.b2f 0 188) := by decide +kernel
theorem test_decode_f2b :
    decode 0x21800000000000400000000000000000#128 = .ok (.f2b 1 64) := by decide +kernel
theorem test_decode_xfwd :
    decode 0x28800000000000400000000000000000#128 = .ok (.xfwd 1 64) := by decide +kernel
theorem test_decode_xinv :
    decode 0x29000000000000400000000000000000#128 = .ok (.xinv 0 64) := by decide +kernel
theorem test_decode_cpadd :
    decode 0x30000000000000400000000000000000#128 = .ok (.cpadd 0 64) := by decide +kernel
theorem test_decode_cpstrip :
    decode 0x31800000000000440000000000000000#128 = .ok (.cpstrip 1 68) := by decide +kernel

/-- The legal packets with extreme fields of 95_test_vectors.md section 2.1. -/
theorem test_decode_extremes :
    decode 0x01810800FFFFFFFFFFFFFFFFFFFFFFFF#128 =
      .ok (.construct 1 1 8 0xFFFFFFFF 0xFFFFFFFF 0xFFFFFFFF) ∧
    decode 0x04800000FFFFFFFFFFFFFFFF00000000#128 = .ok (.modulate 1 0xFFFFFFFF 0xFFFFFFFF) ∧
    decode 0x10000200000000000000000000000000#128 = .ok (.map 2 0) := by decide +kernel

/-- The illegal packets of 95_test_vectors.md section 2.1. -/
def illegalPackets : List Packet :=
  [0x00000000000000000000000000000000, 0x06000000000000000000000000000000,
   0xFF000000000000000000000000000000, 0x01000300000000080000000200000000,
   0x01000000000000080000000200000000, 0x01000401000000080000000200000000,
   0x01020400000000080000000200000000, 0x04000000000000040000000500000001,
   0x05000000000000050000000100000000, 0x02000000000000010000000000000000,
   0x10800200000000020000000000000000, 0x11000200000000010000000000000000,
   0x04010000000000040000000500000000, 0x04000400000000040000000500000000,
   0x10000900000000020000000000000000, 0x10010200000000020000000000000000]

/-- "Every IllegalCommand above responds 5/0." -/
theorem test_illegal_packets :
    (illegalPackets.all fun p => answer p small == some (5, 0)) = true := by decide +kernel

/-! ### The scalar format: results known from IEEE 754 and from the spec -/

/-- 0.1 + 0.2 = 0.30000000000000004; 1 − 1 = +0; 1/3; the largest value doubled overflows. -/
theorem test_scalar :
    F64.add 0x3FB999999999999A#64 0x3FC999999999999A#64 = 0x3FD3333333333334#64 ∧
    F64.sub 0x3FF0000000000000#64 0x3FF0000000000000#64 = 0#64 ∧
    F64.div 0x3FF0000000000000#64 0x4008000000000000#64 = 0x3FD5555555555555#64 ∧
    F64.add 0x7FEFFFFFFFFFFFFF#64 0x7FEFFFFFFFFFFFFF#64 = 0x7FF0000000000000#64 := by decide +kernel

/-- A product of two subnormal halves: the smallest subnormal times one half is a tie, to even, which is 0;
three of them times one half is a tie that goes up to 2. -/
theorem test_scalar_subnormal_ties :
    F64.mul 0x0000000000000001#64 0x3FE0000000000000#64 = 0#64 ∧
    F64.mul 0x0000000000000003#64 0x3FE0000000000000#64 = 2#64 := by decide +kernel

/-- sqrt(8) = 2.8284271247461903 (95_test_vectors.md program 5) and sqrt(4) = 2. -/
theorem test_scale : F64.sqrtNat 8 = 0x4006A09E667F3BCD#64 ∧ F64.sqrtNat 4 = 0x4000000000000000#64 := by
  decide +kernel

/-! ### The commands, one step each -/

/-- 95_test_vectors.md 2.2: `CONSTRUCT 1, 4, 3, 2, QAM256, external`. -/
theorem test_construct :
    (after (issue 0x01810800000000040000000300000002#128 State.reset)).map
      (fun t => (t.resp, t.engine.ctx1, t.engine.ctx0.valid)) =
    some (some ⟨0, 0⟩,
      ⟨true, 4, 3, 2, 8, 1, 8, 7, 1, 1, 8, [.guard, .data, .pilot, .guard]⟩, false) := by decide +kernel

/-- 95_test_vectors.md 2.2: after a failed CONSTRUCT the old instance stands. -/
theorem test_construct_fails :
    (after (issue 0x01000400000000080000000800000003#128 piloted)).map (fun t => (t.resp, t.engine)) =
    some (some ⟨1, 0⟩, piloted.engine) := by decide +kernel

/-- 95_test_vectors.md 2.2: 10 after `CONSTRUCT 0, 8, 2, 3, QAM16`; `NotConstructed` from reset. -/
theorem test_getsymlen :
    answer 0x02000000000000000000000000000000#128 piloted = some (0, 10) ∧
    answer 0x02000000000000000000000000000000#128 State.reset = some (4, 0) := by decide +kernel

theorem test_getcap :
    answer 0x03000000000000000000000000000000#128 piloted = some (0, 16) ∧
    answer 0x03800000000000000000000000000000#128 piloted = some (4, 0) := by decide +kernel

/-- 95_test_vectors.md section 3: `MODULATE 0, 4, 5` of 0 0 1 1. -/
theorem test_modulate :
    answer 0x04000000000000040000000500000000#128 (withBits (bitList [0, 0, 1, 1]) small) = some (0, 0) ∧
    sameNumbers (samplesOut 5 0x04000000000000040000000500000000#128 (withBits (bitList [0, 0, 1, 1]) small))
      [⟨n2, 0⟩, ⟨0, 0⟩, ⟨0, n2⟩, ⟨a2, a2⟩, ⟨n2, 0⟩] = true := by decide +kernel

/-- 95_test_vectors.md 2.8: the errors of MODULATE in their order. -/
theorem test_modulate_errors :
    answer 0x040000000000000F0000000A00000000#128 piloted = some (2, 0) ∧
    answer 0x04000000000000100000000B00000000#128 piloted = some (2, 0) ∧
    answer 0x04800000000000050000000500000000#128 piloted = some (4, 0) ∧
    answer 0x04800000000000050000000500000001#128 piloted = some (5, 0) := by decide +kernel

/-- 95_test_vectors.md section 3: the symbol demodulates to 0 0 1 1. -/
theorem test_demodulate :
    answer 0x05000000000000050000000000000000#128 small = some (0, 4) ∧
    bitsOut 4 0x05000000000000050000000000000000#128
      (withSamples [⟨n2, 0⟩, ⟨0, 0⟩, ⟨0, n2⟩, ⟨a2, a2⟩, ⟨n2, 0⟩] small) =
      some (bitList [0, 0, 1, 1]) := by decide +kernel

/-- 95_test_vectors.md 2.10: an all-zero symbol with pilots falls back to index 5 in every group. -/
theorem test_demodulate_zero_gain :
    bitsOut 16 0x050000000000000A0000000000000000#128 piloted =
      some (bitList [0, 1, 0, 1, 0, 1, 0, 1, 0, 1, 0, 1, 0, 1, 0, 1]) := by decide +kernel

/-- 95_test_vectors.md 2.3: `MAP QAM16, 4` of 1011, from reset. -/
theorem test_map :
    answer 0x10000400000000040000000000000000#128 (withBits (bitList [1, 0, 1, 1]) State.reset) = some (0, 1) ∧
    samplesOut 1 0x10000400000000040000000000000000#128 (withBits (bitList [1, 0, 1, 1]) State.reset) =
      some [⟨b10, a10⟩] := by decide +kernel

theorem test_map_length : answer 0x10000400000000030000000000000000#128 State.reset = some (3, 0) := by
  decide +kernel

/-- 95_test_vectors.md 2.4: a two-way tie between 7 and 15, and a four-way tie of QAM4 with a −0. -/
theorem test_demap_ties :
    bitsOut 4 0x11000400000000000000000000000000#128 (withSamples [⟨0, a10⟩] State.reset) =
      some (bitList [0, 1, 1, 1]) ∧
    bitsOut 2 0x11000200000000000000000000000000#128
      (withSamples [⟨0x8000000000000000#64, 0⟩] State.reset) = some (bitList [0, 0]) := by decide +kernel

/-- 95_test_vectors.md 2.4: (10, −10) in QAM16 is the corner of index 8. -/
theorem test_demap_corner :
    bitsOut 4 0x11000400000000000000000000000000#128 (withSamples [whole 10 (-10)] State.reset) =
      some (bitList [1, 0, 0, 0]) := by decide +kernel

/-- 95_test_vectors.md 2.5: `B2F 0, 16` of 1011 0010 0111 1100. -/
theorem test_b2f :
    samplesOut 8 0x20000000000000100000000000000000#128
      (withBits (bitList [1, 0, 1, 1, 0, 0, 1, 0, 0, 1, 1, 1, 1, 1, 0, 0]) piloted) =
    some [⟨0, 0⟩, ⟨b10, a10⟩, ⟨m10, b10⟩, whole 1 0, ⟨n10, a10⟩, ⟨a10, m10⟩, whole 1 0, ⟨0, 0⟩] := by
  decide +kernel

theorem test_b2f_errors :
    answer 0x200000000000000F0000000000000000#128 piloted = some (2, 0) ∧
    answer 0x20800000000000100000000000000000#128 piloted = some (4, 0) := by decide +kernel

/-- 95_test_vectors.md 2.5: F2B reads only the Data entries. -/
theorem test_f2b :
    bitsOut 16 0x21000000000000080000000000000000#128
      (withSamples [whole 99 (-99), ⟨b10, a10⟩, ⟨m10, b10⟩, whole 99 (-99), ⟨n10, a10⟩, ⟨a10, m10⟩,
        whole 99 (-99), whole 99 (-99)] piloted) =
    some (bitList [1, 0, 1, 1, 0, 0, 1, 0, 0, 1, 1, 1, 1, 1, 0, 0]) := by decide +kernel

/-- 95_test_vectors.md 2.5: F2B does not equalize. -/
theorem test_f2b_quarter_turn :
    bitsOut 16 0x21000000000000080000000000000000#128
      (withSamples [whole 0 0, ⟨n10, b10⟩, ⟨m10, m10⟩, whole 0 1, ⟨n10, n10⟩, ⟨b10, a10⟩, whole 0 1,
        whole 0 0] piloted) =
    some (bitList [0, 1, 1, 0, 0, 0, 0, 0, 0, 1, 0, 1, 1, 0, 1, 1]) := by decide +kernel

/-- 95_test_vectors.md 2.6: `XFWD 0, 4` of 1, 2, 3, 4. -/
theorem test_xfwd :
    sameNumbers (samplesOut 4 0x28000000000000040000000000000000#128
      (withSamples [whole 1 0, whole 2 0, whole 3 0, whole 4 0] small))
      [whole 10 0, whole (-2) 2, whole (-2) 0, whole (-2) (-2)] = true := by decide +kernel

/-- 95_test_vectors.md 2.6: `XINV 0, 4` brings it back. -/
theorem test_xinv :
    sameNumbers (samplesOut 4 0x29000000000000040000000000000000#128
      (withSamples [whole 10 0, whole (-2) 2, whole (-2) 0, whole (-2) (-2)] small))
      [whole 1 0, whole 2 0, whole 3 0, whole 4 0] = true := by decide +kernel

/-- 95_test_vectors.md 2.7: CPADD with N = 4, CP = 3: b c d a b c d. -/
theorem test_cpadd :
    samplesOut 7 0x30000000000000040000000000000000#128
      (withSamples [whole 1 0, whole 2 0, whole 3 0, whole 4 0] (built 0 0 2 4 3 0)) =
    some [whole 2 0, whole 3 0, whole 4 0, whole 1 0, whole 2 0, whole 3 0, whole 4 0] := by decide +kernel

/-- 95_test_vectors.md 2.7: CPSTRIP with a NaN and an infinity copies bit for bit. -/
theorem test_cpstrip :
    samplesOut 4 0x31000000000000060000000000000000#128
      (withSamples [⟨0x7FF0000000000000#64, 0⟩, whole 9 9, ⟨0x7FF8000000000001#64, 0⟩, whole 2 0, whole 3 0,
        whole 4 0] (built 0 0 2 4 2 0)) =
    some [⟨0x7FF8000000000001#64, 0⟩, whole 2 0, whole 3 0, whole 4 0] := by decide +kernel

/-! ### The host -/

/-- 30_encoding.md R91: `.channel gain` multiplies, (0, 1) being a quarter turn. -/
theorem test_channel_gain :
    (after { State.reset with
        mem := State.reset.mem.writeSamples .so 0 [whole 3 4], soLen := 1,
        host := [.channelGain (whole 0 1)] }).map (fun t => t.mem.sample .si 0) =
      some (whole (-4) 3) := by decide +kernel

/-- 30_encoding.md R91: CONSTRUCT2 is the two packets of 95_test_vectors.md T1. -/
theorem test_construct2 :
    construct2 0 4 64 4 4 =
      [.issue 0x01000400000000400000000400000004#128, .issue 0x01800400000000400000000400000004#128] := by
  decide +kernel

/-! ### Witnesses: for each statement with hypotheses, a state and operands that meet all of them, and for a
statement of several clauses each clause at a boundary of its range -/

theorem witness_DecodeEncodeIdentity : (Instr.construct 1 1 8 0xFFFFFFFF 0xFFFFFFFF 0xFFFFFFFF).wellFormed = true := by
  decide

theorem witness_EncodeDecodeIdentity :
    decode 0x01810800FFFFFFFFFFFFFFFFFFFFFFFF#128 =
      .ok (.construct 1 1 8 0xFFFFFFFF 0xFFFFFFFF 0xFFFFFFFF) := by decide +kernel

/-- A packet of one row with a legal order; the same row with the order 0. -/
theorem witness_OpcodeTableDecides :
    (opcodeTable.filter fun r => r.selects 0x10000400000000040000000000000000#128).map (·.mnemonic) = ["MAP"] ∧
    decode 0x10000400000000040000000000000000#128 = .ok (.map 4 4) ∧
    decode 0x10000000000000040000000000000000#128 = .error (.reservedOrder "MAP" 0) ∧
    (fieldsOf 0x10000000000000040000000000000000#128).order ∉ [2#8, 4#8, 6#8, 8#8] := by decide +kernel

/-- The least and the greatest unassigned opcode, and those beside the assigned ranges. -/
theorem witness_UnassignedOpcodesAnswered :
    (∀ o ∈ [0x00#8, 0x06#8, 0x0F#8, 0x12#8, 0x1F#8, 0x22#8, 0x27#8, 0x2A#8, 0x2F#8, 0x32#8, 0xFF#8],
      o ∉ assignedOpcodes) ∧
    (issue 0xFF000000000000000000000000000000#128 small).cmd = some 0xFF000000000000000000000000000000#128 ∧
    (fieldsOf 0xFF000000000000000000000000000000#128).opc ∉ assignedOpcodes := by decide +kernel

/-- One packet for each line of `IllegalFields`, each wrong in one bit or in its order alone. -/
theorem witness_IllegalFieldsAnswered :
    (issue 0x05000000000000050000000100000000#128 small).cmd = some 0x05000000000000050000000100000000#128 ∧
    IllegalFields (fieldsOf 0x01000401000000080000000200000000#128) ∧
    IllegalFields (fieldsOf 0x02000000000000000000000000000001#128) ∧
    IllegalFields (fieldsOf 0x04000000000000040000000500000001#128) ∧
    IllegalFields (fieldsOf 0x05000000000000050000000100000000#128) ∧
    IllegalFields (fieldsOf 0x10000900000000020000000000000000#128) ∧
    IllegalFields (fieldsOf 0x11000200000000010000000000000000#128) :=
  ⟨rfl, .inl (by decide +kernel), .inr (.inl (by decide +kernel)), .inr (.inr (.inl (by decide +kernel))),
    .inr (.inr (.inr (.inl (by decide +kernel)))), .inr (.inr (.inr (.inr (.inl (by decide +kernel))))),
    .inr (.inr (.inr (.inr (.inr (by decide +kernel)))))⟩

theorem witness_StepRunsDecodedCommand :
    (issue 0x30000000000000040000000000000000#128 small).cmd = some 0x30000000000000040000000000000000#128 ∧
    decode 0x30000000000000040000000000000000#128 = .ok (.cpadd 0 4) ∧
    decodeTableWord 128 0x30000000000000040000000000000000 = some (.cpadd 0 4) := by decide +kernel

theorem witness_HostActsBetweenCommands :
    (small.cmd = none ∧ small.host = []) ∧
    ({ small with host := [.loopBits] }.cmd = none ∧
      { small with host := [.loopBits] }.host = HostMove.loopBits :: []) ∧
    { small with host := [.issue 0] }.host = HostMove.issue 0 :: [] ∧
    ((issue 0x03000000000000000000000000000000#128 small).cmd = some 0x03000000000000000000000000000000#128 ∧
      (after (issue 0x03000000000000000000000000000000#128 small)).isSome = true) := by decide +kernel

/-- A write of the last element of a space lands, and a fill of all of it; one element further each faults. -/
theorem witness_HostWritesLand :
    small.cmd = none ∧ 32751 + [true].length ≤ engineParams.bitbufCap ∧
    engineParams.bitbufCap < 32752 + [true].length ∧
    8190 + [whole 1 0].length ≤ engineParams.sampbufCap ∧
    engineParams.sampbufCap < 8191 + [whole 1 0].length ∧
    32752 ≤ engineParams.bitbufCap ∧ engineParams.bitbufCap < 32753 ∧
    8191 ≤ engineParams.sampbufCap ∧ engineParams.sampbufCap < 8192 ∧
    { small with host := [.fillBits .bo 32752 true] }.host = HostMove.fillBits .bo 32752 true :: [] ∧
    { small with host := [.fillSamples .so 8191 (whole 1 0)] }.host =
      HostMove.fillSamples .so 8191 (whole 1 0) :: [] := by decide +kernel

/-- The records at the capacities. -/
theorem witness_ChannelCopies :
    let s : State := { small with soLen := 8191, boLen := 32752 }
    s.cmd = none ∧ s.soLen ≤ engineParams.sampbufCap ∧ s.boLen ≤ engineParams.bitbufCap ∧
      { s with host := [.channelGain (whole 0 1)] }.host = HostMove.channelGain (whole 0 1) :: [] := by
  decide +kernel

theorem witness_ResetLeavesUnconfigured :
    small.cmd = none ∧ { small with host := [.reset] }.host = HostMove.reset :: [] := by decide +kernel

/-- A machine with an instance, data in `SI` and a command at its port. -/
theorem witness_StepKeepsInvariant :
    State.Inv (issue 0x30000000000000040000000000000000#128 (withSamples [whole 1 0, whole 2 0] small)) ∧
    (after (issue 0x30000000000000040000000000000000#128 (withSamples [whole 1 0, whole 2 0] small))).isSome =
      true ∧
    4 ≤ engineParams.nscMax ∧ engineParams.nscMax ≤ 2 ^ 28 := by decide +kernel

/-- An engine of another size: with `NSC_MAX` = 4, CONSTRUCT of N = 4 succeeds and of N = 5 is refused. -/
theorem test_other_engine :
    ((execWith { engineParams with nscMax := 4 } (.construct 0 0 2 4 3 0) State.reset) =
      .next (deliver (constructCmd engineParams 0 0 2 4 3 0) State.reset)) ∧
    ((execWith { engineParams with nscMax := 4 } (.construct 0 0 2 5 3 0) State.reset) =
      .next { State.reset with resp := some ⟨1, 0⟩ }) := ⟨rfl, rfl⟩

/-- Each of the three outcomes: nothing changes; a reset; a CONSTRUCT. -/
theorem witness_ContextsChangeOnlyByConstruct :
    (after (issue 0x03000000000000000000000000000000#128 small)).map (·.engine) = some small.engine ∧
    (after { small with host := [.reset] }).map (·.engine) = some State.reset.engine ∧
    (after (issue 0x01000200000000040000000100000000#128 State.reset)).map (·.engine) = some small.engine := by
  decide +kernel

/-- N at 4 and 4096 with CP = N − 1 passes; N at 3 and 4097, CP = N and P = 1 fail. -/
theorem witness_ConstructWritesContext :
    legalOrder 8#8 = true ∧ engineParams.nscMax = 4096 ∧
    (4 ≤ (4 : Word).toNat ∧ (3 : Word).toNat < (4 : Word).toNat ∧
      (computeRoles (4 : Word).toNat (2 : Word).toNat).count .data ≠ 0) ∧
    ((4096 : Word).toNat ≤ 4096 ∧ (4095 : Word).toNat < (4096 : Word).toNat ∧
      (computeRoles (4096 : Word).toNat (0 : Word).toNat).count .data ≠ 0) ∧
    (3 : Word).toNat < 4 ∧ 4096 < (4097 : Word).toNat ∧ (4 : Word).toNat ≤ (4 : Word).toNat ∧
    (computeRoles (8 : Word).toNat (1 : Word).toNat).count .data = 0 := by decide +kernel

theorem witness_RoleTableByIndex : 4 ≤ 8 ∧ (computeRoles 8 3)[7]? = some .guard ∧ (computeRoles 8 3)[6]? = some .pilot ∧
    (computeRoles 8 3)[5]? = some .data ∧ (computeRoles 4 0)[3]? = some .guard := by decide +kernel

/-- P at N − 2, the last that places a pilot, and at N − 1, the first that places none. -/
theorem witness_RoleCounts : 4 ≤ 8 ∧ 0 < 6 ∧ pilotIndices (computeRoles 8 6) = [6] ∧
    pilotIndices (computeRoles 8 7) = [] ∧ (computeRoles 8 0).count .data = 6 := by decide +kernel

theorem witness_ZeroDataOnlyAtPeriodOne :
    4 ≤ 4 ∧ (computeRoles 4 1).count .data = 0 ∧ (computeRoles 4 2).count .data = 1 ∧ legalOrder 2#8 = true ∧
      (4 : Word).toNat ≤ engineParams.nscMax ∧ (3 : Word).toNat < (4 : Word).toNat ∧ (2 : Word) ≠ 1 := by
  decide +kernel

theorem witness_AccessorsAnswer : Ready small 0 ∧ ¬ Ready small 1 ∧ State.Inv small := by decide +kernel

/-- Lengths at and beside the order. -/
theorem witness_MapAnswersPoint :
    [true, false].length = 2 ∧ [true].length ≠ 2 ∧ legalOrder 2#8 = true ∧
      (2 : Word).toNat = (2#8).toNat ∧ (3 : Word).toNat ≠ (2#8).toNat := by decide +kernel

theorem witness_PointIndexIsGroupValue : 11 < 2 ^ 4 ∧ valOf [true, false, true, true] = 11 ∧
    bitsOf 4 11 = [true, false, true, true] := by decide +kernel

theorem witness_DemapAnswersGroup : legalOrder 8#8 = true := by decide

theorem witness_DemapScanIsLeast :
    legalOrder 4#8 = true ∧ F64.isFinite 0x7FEFFFFFFFFFFFFF#64 = true ∧ F64.isFinite a10 = true := by
  decide +kernel

/-- The sample is the table point itself. -/
theorem witness_DemapWithinRadiusExact :
    legalOrder 2#8 = true ∧ 3 < 2 ^ (2#8).toNat ∧
      distance (exactPoint (2#8).toNat 3) (exactPoint (2#8).toNat 3) < 1 / Real.sqrt (energyOf (2#8).toNat) := by
  refine ⟨by decide, by decide, ?_⟩
  have he : energyOf (2#8).toNat = 2 := by decide
  have hd : distance (exactPoint (2#8).toNat 3) (exactPoint (2#8).toNat 3) = 0 := by simp [distance]
  rw [hd, he]
  positivity

/-- A comparison of binary64 values never holds both ways. -/
theorem F64_lt_asymmetric (x y : F64) (h : F64.lt x y = true) : F64.lt y x = false := by
  simp only [F64.lt, Bool.and_eq_true, Bool.not_eq_true', decide_eq_true_eq] at h
  have hk : ¬ F64.orderKey y < F64.orderKey x := by omega
  simp [F64.lt, hk]

/-- The premises of the bijection law, met by the default table of QAM4. -/
theorem premises_qam4 : DemapPremises engineParams 2 where
  same := by decide +kernel
  apart := by decide +kernel
  asymmetric x y h := by
    simp only [engineParams_num, numF64_lt] at h ⊢
    exact F64_lt_asymmetric x y h
  decided := by decide +kernel

theorem witness_MapDemapBijection : DemapPremises engineParams 2 ∧ [true, false].length = 2 ∧ 3 < 2 ^ 2 :=
  ⟨premises_qam4, rfl, by decide⟩

theorem witness_DefaultTableMeetsPremises : legalOrder 2#8 = true ∧ legalOrder 8#8 = true := by decide

/-- Two neighbours at the least distance: indices 0 and 1 of QAM4; and parameters of `NUM_EXACT` in range. -/
theorem witness_DefaultTableContract :
    (4 ≤ 4 ∧ 4 ≤ 2 ^ 28 ∧ (⟨1, 0⟩ : Cx ℝ) ≠ ⟨0, 0⟩ ∧ ∀ N : Nat, 4 ≤ N → N ≤ 4 → 0 < (fun _ => (1 : ℝ)) N) ∧
    legalOrder 2#8 = true ∧ 0 < 2 ^ (2#8).toNat ∧ 1 < 2 ^ (2#8).toNat ∧ (0 : Nat) ≠ 1 ∧
      pointLevels 2 0 = (-1, -1) ∧ pointLevels 2 1 = (-1, 1) :=
  ⟨⟨by decide, by decide, by simp, fun _ _ _ => one_pos⟩, by decide⟩

theorem witness_RomHoldsNearestScalars :
    ((8, 15) : Nat × Nat) ∈ [((2 : Nat), (1 : Nat)), (8, 15)] ∧ 8 ∈ [2, 4, 6, 8] ∧ 255 < 2 ^ 8 := by decide

/-- A constructed context with a Guard, a Pilot and a Data entry, its right length and a wrong one, and an
unconstructed context. -/
theorem witness_B2fBuildsFrequencyVector :
    Ctx.Inv (piloted.engine.ctx 0) ∧ Ready piloted 0 ∧ ¬ Ready piloted 1 ∧
      (16 : Word) = (piloted.engine.ctx 0).capbits ∧ (17 : Word) ≠ (piloted.engine.ctx 0).capbits ∧
      (piloted.engine.ctx 0).roles[7]? = some .guard ∧ (piloted.engine.ctx 0).roles[6]? = some .pilot ∧
      (piloted.engine.ctx 0).roles[5]? = some .data ∧ 7 < (piloted.engine.ctx 0).nsc.toNat := by decide +kernel

theorem witness_F2bReadsDataEntries :
    Ctx.Inv (piloted.engine.ctx 0) ∧ Ready piloted 0 ∧ ¬ Ready piloted 1 ∧
      (8 : Word) = (piloted.engine.ctx 0).nsc ∧ (9 : Word) ≠ (piloted.engine.ctx 0).nsc ∧
      (piloted.engine.ctx 0).roles[5]? = some .data ∧ 3 < (piloted.engine.ctx 0).bits := by decide +kernel

/-- The default engine with the greatest NSC_MAX, and the context its CONSTRUCT writes for N = 5000, CP = 1, QAM4
without pilots, which no engine of the default NSC_MAX has. -/
abbrev largestParams : Params F64 := { engineParams with nscMax := 2 ^ 28 }

def wideCtx : Ctx where
  valid := true
  nsc := 5000
  cplen := 1
  pevery := 0
  order := 2
  xsel := 0
  bps := 2
  symlen := 5001
  npilot := 0
  ndata := 4998
  capbits := 9996
  roles := computeRoles 5000 0

theorem wideCtx_inv : Ctx.InvFor largestParams wideCtx := by
  have hr : wideCtx.roles = computeRoles 5000 0 := by rw [wideCtx]
  have hn : wideCtx.n = 5000 := by decide
  have hpe : wideCtx.pevery.toNat = 0 := by decide
  have hc := count_no_pilots 4998
  simp only [Nat.reduceAdd] at hc
  refine fun _ => ⟨by decide, by decide, by decide, by decide, rfl, by decide, ?_, ?_, ?_, by decide, by decide⟩
  · rw [hr, hn, hpe]
  · rw [hr, hc.1]
    decide
  · rw [hr, hc.2]
    decide

/-- A context beyond the default NSC_MAX, and one within. -/
theorem witness_LayoutRoundTrip :
    (Ctx.InvFor largestParams wideCtx ∧ wideCtx.valid = true ∧ ¬ Ctx.Inv wideCtx ∧
      DemapPremises largestParams wideCtx.bits ∧ (List.replicate 9996 true).length = wideCtx.capbits.toNat) ∧
    Ctx.Inv (small.engine.ctx 0) ∧ (small.engine.ctx 0).valid = true ∧
      DemapPremises engineParams (small.engine.ctx 0).bits ∧
      [true, false, true, true].length = (small.engine.ctx 0).capbits.toNat :=
  ⟨⟨wideCtx_inv, rfl, fun h => absurd (h rfl).2.1 (by decide),
      ⟨premises_qam4.same, premises_qam4.apart, premises_qam4.asymmetric, premises_qam4.decided⟩,
      List.length_replicate⟩,
    by decide +kernel, by decide +kernel, premises_qam4, by decide +kernel⟩

theorem witness_WrapperAnswersProvider :
    Ready small 0 ∧ ¬ Ready small 1 ∧ (4 : Word) = (small.engine.ctx 0).nsc ∧ (5 : Word) ≠ (small.engine.ctx 0).nsc ∧
      3 < (small.engine.ctx 0).nsc.toNat := by decide +kernel

theorem witness_ExactDefaultProviderIsDft :
    1 ≤ 1 ∧ ([⟨1, 0⟩] : List (Cx ℝ)).length = 1 ∧ 0 < 1 := ⟨by decide, rfl, by decide⟩

/-- An index in the prefix, the first and the last one after it. -/
theorem witness_CpaddCopies :
    Ctx.Inv (piloted.engine.ctx 0) ∧ Ready piloted 0 ∧ ¬ Ready piloted 1 ∧
      (8 : Word) = (piloted.engine.ctx 0).nsc ∧ (10 : Word) ≠ (piloted.engine.ctx 0).nsc ∧
      1 < (piloted.engine.ctx 0).cplen.toNat ∧ (piloted.engine.ctx 0).cplen.toNat ≤ 2 ∧
      9 < (piloted.engine.ctx 0).nsc.toNat + (piloted.engine.ctx 0).cplen.toNat := by decide +kernel

theorem witness_CpstripCopies :
    Ctx.Inv (piloted.engine.ctx 0) ∧ Ready piloted 0 ∧ ¬ Ready piloted 1 ∧
      (10 : Word) = (piloted.engine.ctx 0).symlen ∧ (8 : Word) ≠ (piloted.engine.ctx 0).symlen ∧
      7 < (piloted.engine.ctx 0).nsc.toNat := by decide +kernel

/-- A prefix of the whole length; and one where `2 L` is the length and the halves are equal. -/
theorem witness_PrefixLaws :
    [1, 2, 3].length ≤ [1, 2, 3].length ∧ 2 * 1 ≤ [7, 7].length ∧ [7, 7].take 1 = [7, 7].drop ([7, 7].length - 1) := by
  decide

theorem witness_ModulateComposes :
    Ctx.Inv (piloted.engine.ctx 0) ∧ Ready piloted 0 ∧ ¬ Ready piloted 1 ∧
      (16 : Word) = (piloted.engine.ctx 0).capbits ∧ (10 : Word) = (piloted.engine.ctx 0).symlen ∧
      (15 : Word) ≠ (piloted.engine.ctx 0).capbits ∧ (11 : Word) ≠ (piloted.engine.ctx 0).symlen ∧
      1 < (piloted.engine.ctx 0).cplen.toNat ∧ (piloted.engine.ctx 0).cplen.toNat ≤ 2 := by decide +kernel

/-- The least and the greatest length, and the four factors on the axes. -/
theorem witness_ScaleAndTwiddlesAreRounded :
    1 ≤ 1 ∧ 1 ≤ 4096 ∧ 4096 ≤ 4096 ∧ 4095 < 4096 ∧ 4 * 1024 = 4096 ∧ 2 * 2048 = 4096 ∧ 4 * 3072 = 3 * 4096 := by
  decide

/-- Two contexts of one configuration, and a command on each that answers 0. -/
theorem witness_ModulateIsDeterministic :
    Ctx.Inv (small.engine.ctx 0) ∧ small.engine.ctx 0 = (built 1 0 2 4 1 0).engine.ctx 1 ∧
      (∀ j, j < (4 : Word).toNat → small.mem.bit .bi j = (built 1 0 2 4 1 0).mem.bit .bi j) ∧
      answer 0x04000000000000040000000500000000#128 small = some (0, 0) ∧
      answer 0x04800000000000040000000500000000#128 (built 1 0 2 4 1 0) = some (0, 0) := by decide +kernel

theorem witness_ModulateIsLevelTwoSequence : Ctx.Inv (piloted.engine.ctx 0) ∧ Ready piloted 0 := by decide +kernel

/-- With pilots (`piloted`) and without (`small`). -/
theorem witness_DemodulateAnswers :
    Ctx.Inv (piloted.engine.ctx 0) ∧ Ready piloted 0 ∧ ¬ Ready piloted 1 ∧
      (10 : Word) = (piloted.engine.ctx 0).symlen ∧ (16 : Word) ≠ (piloted.engine.ctx 0).symlen ∧
      (piloted.engine.ctx 0).roles[5]? = some .data ∧ 3 < (piloted.engine.ctx 0).bits ∧
      (piloted.engine.ctx 0).npilot ≠ 0 ∧
      Ctx.Inv (small.engine.ctx 0) ∧ Ready small 0 ∧ (5 : Word) = (small.engine.ctx 0).symlen ∧
      (small.engine.ctx 0).roles[2]? = some .data ∧ 1 < (small.engine.ctx 0).bits ∧
      (small.engine.ctx 0).npilot = 0 := by decide +kernel

theorem witness_NearestPilotIsNearest : ∃ q : Nat, (computeRoles 8 3)[q]? = some .pilot := ⟨3, by decide⟩

/-- 95_test_vectors.md 2.9: a Data index before the first pilot, a tie, one nearer to the next pilot, and one
after the last pilot. -/
theorem witness_NearestPilotClosedForm :
    4 ≤ 16 ∧ 1 ≤ 4 ∧ 4 ≤ 16 - 2 ∧ (computeRoles 16 4)[1]? = some .data ∧ (computeRoles 16 4)[6]? = some .data ∧
      (computeRoles 16 4)[7]? = some .data ∧ (computeRoles 16 4)[14]? = some .data ∧
      [1, 6, 7, 14].map (fun d => (pilotIndices (computeRoles 16 4)).getD
        (nearestPilot (pilotIndices (computeRoles 16 4)) d) 0) = [4, 4, 8, 12] := by decide +kernel

/-- An external provider that answers its request: one convention, both directions. -/
def echo : Provider ℝ := fun _ _ x k => x.getD k ⟨0, 0⟩

theorem askProvider_echo (dir : Dir) (x : List (Cx ℝ)) : askProvider echo dir x = x := by
  apply List.ext_getElem
  · simp [askProvider]
  · intro i h1 h2
    simp [askProvider, echo, h2]

/-- The discrete Fourier transform pair with the factors 1 and 1/N, entry by entry. -/
noncomputable def fourierProvider : Provider ℝ
  | .forward, N, x, k => ⟨(fourierSum .forward N x k).re, (fourierSum .forward N x k).im⟩
  | .inverse, N, x, k => ⟨1 / N * (fourierSum .inverse N x k).re, 1 / N * (fourierSum .inverse N x k).im⟩

/-- A convention, at every length: the hypotheses of the last two clauses. -/
theorem witness_DftProvidersMeetContract (N : Nat) (hN : 1 ≤ N) :
    ProviderConvention fourierProvider N 1 (1 / N) ∧ ProviderDft fourierProvider N := by
  have h : ProviderConvention fourierProvider N 1 (1 / N) := by
    refine ⟨one_pos, by positivity, by ring, fun x _ k _ => ⟨?_, ?_⟩⟩
    · simp [complexOf, fourierProvider]
    · apply Complex.ext <;> simp [complexOf, fourierProvider]
  exact ⟨h, _, _, h⟩

/-- The configuration of the exact witnesses, N = 4, CP = 3, P = 2 and QAM256 (95_test_vectors.md 2.2): one
Pilot, one Data entry. -/
noncomputable def exactEcho : Params ℝ := exactParams 4096 ⟨0, 2⟩ (fun _ => 2) echo

theorem exists_exact_ctx :
    ∃ k, buildCtx exactEcho 1 8 4 3 2 = .ok k ∧ k.xsel = 1 ∧ k.capbits.toNat = 8 ∧ k.npilot ≠ 0 := by
  refine ⟨_, (buildCtx_ok exactEcho 1 8 4 3 2 _).2 ⟨by decide, ?_, by decide, by decide, rfl⟩, rfl, rfl, ?_⟩
  · simp [exactEcho]
  · decide

/-- The hypotheses of the round-trip statements, those of the flat and the zero channel among them. -/
theorem witness_RoundTripIdealChannel :
    ∃ (k : Ctx) (bits : List Bool),
      4096 ≤ 2 ^ 28 ∧ legalOrder 8 = true ∧ (⟨0, 2⟩ : Cx ℝ) ≠ ⟨0, 0⟩ ∧ (0 : ℝ) < (fun _ : Nat => (2 : ℝ)) 4 ∧
      buildCtx exactEcho 1 8 4 3 2 = .ok k ∧
      (∀ X : List (Cx ℝ), X.length = 4 →
        askProvider (providerOf exactEcho k) .forward (askProvider (providerOf exactEcho k) .inverse X) = X) ∧
      ProviderScales (providerOf exactEcho k) 4 ∧ bits.length = k.capbits.toNat ∧
      (⟨0, 1⟩ : Cx ℝ) ≠ ⟨0, 0⟩ ∧ k.npilot ≠ 0 := by
  obtain ⟨k, hk, hx, hc, hp⟩ := exists_exact_ctx
  have hprov : providerOf exactEcho k = echo := by simp [providerOf, hx, exactEcho]
  refine ⟨k, List.replicate 8 true, by norm_num, by decide, by simp, by norm_num, hk, ?_, ?_, by simp [hc], by simp, hp⟩
  · intro X _
    simp only [hprov, askProvider_echo]
  · intro dir h X _
    simp only [hprov, askProvider_echo]

/-- The witness of the flat channel is that of the round trip: its last two parts are the further hypotheses. -/
theorem witness_FlatChannelRecovered :
    ∃ k : Ctx, buildCtx exactEcho 1 8 4 3 2 = .ok k ∧ ProviderScales (providerOf exactEcho k) 4 ∧
      (⟨0, 1⟩ : Cx ℝ) ≠ ⟨0, 0⟩ ∧ k.npilot ≠ 0 := by
  obtain ⟨k, _, _, _, _, _, hk, _, hs, _, hh, hp⟩ := witness_RoundTripIdealChannel
  exact ⟨k, hk, hs, hh, hp⟩

/-- The configuration, and a vector whose Pilot entries are zero and whose Data entry is not, with its zero gain. -/
theorem witness_ZeroChannelFallsBack :
    (∃ F2 : List (Cx ℝ), (∀ p ∈ pilotIndices (computeRoles 4 2), entryAt exactEcho F2 p = ⟨0, 0⟩) ∧
      entryAt exactEcho F2 1 = ⟨3, 0⟩) ∧ iszero numExact ⟨0, 0⟩ = true ∧
    ∃ k : Ctx, 4096 ≤ 2 ^ 28 ∧ legalOrder 8 = true ∧ (⟨0, 2⟩ : Cx ℝ) ≠ ⟨0, 0⟩ ∧
      buildCtx exactEcho 1 8 4 3 2 = .ok k ∧ ProviderScales (providerOf exactEcho k) 4 ∧ k.npilot ≠ 0 := by
  obtain ⟨k, _, h1, h2, h3, _, hk, _, hs, _, _, hp⟩ := witness_RoundTripIdealChannel
  refine ⟨⟨[⟨0, 0⟩, ⟨3, 0⟩, ⟨0, 0⟩, ⟨0, 0⟩], ?_, rfl⟩, by simp [iszero, Num.zero], k, h1, h2, h3, hk, hs, hp⟩
  have hpil : pilotIndices (computeRoles 4 2) = [2] := by decide
  simp [hpil, entryAt]

theorem witness_NotConstructedRefused :
    ¬ Ready small 1 ∧ (after (issue 0x11000200000000000000000000000000#128 small)).isSome = true := by
  decide +kernel

/-- A length one below the required one, for each of the three lengths. -/
theorem witness_BufferSizeMismatchRefused :
    Ready piloted 0 ∧ (15 : Word) ≠ (piloted.engine.ctx 0).capbits ∧ (9 : Word) ≠ (piloted.engine.ctx 0).symlen ∧
      (7 : Word) ≠ (piloted.engine.ctx 0).nsc := by decide +kernel

theorem witness_ErrorsChangeNothing :
    exec (.getcap 1) small = .next { small with resp := some ⟨4, 0⟩ } ∧ (4#8) ≠ 0 ∧
    (issue 0x03800000000000000000000000000000#128 small).cmd = some 0x03800000000000000000000000000000#128 := by
  refine ⟨?_, by decide, rfl⟩
  have hv : (small.engine.ctx 1).valid = false := by decide +kernel
  rw [exec, execGetcap, getcapCmd, withContext_invalid 1 _ _ hv, deliver_notConstructed]

/-- All three levels: an illegal packet, an unconstructed context, a ready one. -/
theorem witness_ErrorPriority :
    State.Inv (issue 0x04800000000000050000000500000001#128 piloted) ∧
    (decode 0x04800000000000050000000500000001#128).toOption = none ∧
    decode 0x04800000000000050000000500000000#128 = .ok (.modulate 1 5 5) ∧
    usedContext (.modulate 1 5 5) = some 1 ∧ ¬ Ready piloted 1 ∧
    decode 0x040000000000000F0000000A00000000#128 = .ok (.modulate 0 15 10) ∧
    usedContext (.modulate 0 15 10) = some 0 ∧ Ready piloted 0 := by decide +kernel

theorem witness_ResponsesCarryValue :
    State.Inv piloted ∧ (Instr.getcap 0).wellFormed = true ∧
      answer 0x03000000000000000000000000000000#128 piloted = some (0, 16) := by decide +kernel

theorem witness_SampleWritersFrame :
    0 < [whole 1 0].length ∧ (∀ c, Ctx.Inv (small.engine.ctx c)) ∧
      (after (issue 0x30000000000000040000000000000000#128 small)).map (·.resp) = some (some ⟨0, 5⟩) := by
  decide +kernel

theorem witness_BitWritersFrame :
    0 < [true].length ∧ (∀ c, Ctx.Inv (small.engine.ctx c)) ∧
      (after (issue 0x21000000000000040000000000000000#128 small)).map (·.resp) = some (some ⟨0, 4⟩) := by
  decide +kernel

theorem witness_ConstructAndQueriesFrame :
    (after (issue 0x01000200000000040000000100000000#128 State.reset)).map (·.resp) = some (some ⟨0, 0⟩) ∧
    (after (issue 0x02000000000000000000000000000000#128 small)).map (·.resp) = some (some ⟨0, 5⟩) := by
  decide +kernel

/-- A success, an error, and lengths just beyond the capacities. -/
theorem witness_ReadsOnlyDeclared :
    (∀ c, Ctx.Inv (small.engine.ctx c)) ∧ (Instr.cpadd 0 4).wellFormed = true ∧
    answer 0x30000000000000040000000000000000#128 small = some (0, 5) ∧
    answer 0x30000000000000050000000000000000#128 small = some (2, 0) ∧
    engineParams.bitbufCap < declaredBits (.b2f 0 32753) ∧
    engineParams.sampbufCap < declaredSamples (.cpadd 0 8192) := by decide +kernel

theorem witness_CapacitiesSuffice :
    Ctx.Inv (small.engine.ctx 0) ∧ (small.engine.ctx 0).valid = true := by decide +kernel

/-- Finite operands, a divisor that is a zero and one that is not, a NaN. -/
theorem witness_ArithmeticIsNearest :
    [a2, a10, 0#64, 0x8000000000000000#64].all F64.isFinite = true ∧ F64.isZero a10 = false ∧
      F64.isZero 0x8000000000000000#64 = true ∧ F64.isNaN 0x7FF8000000000000#64 = true := by decide +kernel

/-- IEEE 754 by hand: the greatest finite value doubled is +∞, and the difference of two opposite ones the same;
1 / −0 is −∞; +∞ less than nothing finite. -/
theorem test_overflow :
    F64.add 0x7FEFFFFFFFFFFFFF#64 0x7FEFFFFFFFFFFFFF#64 = 0x7FF0000000000000#64 ∧
      F64.sub 0x7FEFFFFFFFFFFFFF#64 0xFFEFFFFFFFFFFFFF#64 = 0x7FF0000000000000#64 ∧
      F64.div 0x3FF0000000000000#64 0x8000000000000000#64 = 0xFFF0000000000000#64 ∧
      F64.lt 0x7FF0000000000000#64 0x7FEFFFFFFFFFFFFF#64 = false := by decide +kernel

/-- The two ranges of `RoundsTo` at their common bound, and a finite value that is not zero. -/
theorem witness_ArithmeticIsNearest_ofReal :
    |(0 : ℝ)| < 2 ^ 1024 - 2 ^ 970 ∧ (2 : ℝ) ^ 1024 - 2 ^ 970 ≤ |(2 : ℝ) ^ 1024 - 2 ^ 970| ∧
      F64.isFinite a2 = true ∧ F64.isZero a2 = false := by
  refine ⟨?_, le_abs_self _, by decide +kernel, by decide +kernel⟩
  rw [abs_zero, sub_pos]
  exact pow_lt_pow_right₀ one_lt_two (by decide)

/-- 00_scope.md R13, R15: zero is +0; one is IEEE 754's pattern of it, exponent field 1023 and fraction 0. -/
theorem test_ofReal_zero_one : numF64.ofReal 0 = 0#64 ∧ numF64.ofReal 1 = 0x3FF0000000000000#64 := by
  rw [numF64_ofReal, numF64_ofReal,
    F64.ofReal_of_steps 0 0 (by rw [abs_zero, zero_mul, Nat.cast_zero]),
    F64.ofReal_of_steps 1 (2 ^ 1076) (by rw [abs_one, one_mul, Nat.cast_pow, Nat.cast_ofNat]),
    decide_eq_false (lt_irrefl 0), decide_eq_false (not_lt_of_gt one_pos)]
  decide +kernel

/-- Finite operands, the two zeros among them, and a NaN. -/
theorem witness_ComparisonsFollowValues :
    F64.isFinite 0x8000000000000000#64 = true ∧ F64.isFinite 0#64 = true ∧
      F64.isNaN 0x7FF8000000000000#64 = true := by decide +kernel

end Sys2Proof.Tests
end

namespace Sys2Proof

/-! ### The bit pattern of a scalar: its sign and the 63 bits below it -/

/-- The 63 bits below the sign bit. -/
def F64.low (x : F64) : Nat := x.toNat % 2 ^ 63

theorem F64.expField_eq_low (x : F64) : F64.expField x = F64.low x / 2 ^ 52 := by
  unfold F64.expField F64.low
  omega

theorem F64.fraction_eq_low (x : F64) : F64.fraction x = F64.low x % 2 ^ 52 := by
  unfold F64.fraction F64.low
  omega

theorem F64.low_lt (x : F64) : F64.low x < 2 ^ 63 := Nat.mod_lt _ (by decide)

theorem F64.isFinite_iff (x : F64) : F64.isFinite x = true ↔ F64.low x < F64.infBits := by
  have := F64.low_lt x
  simp only [F64.isFinite, F64.expField_eq_low, F64.infBits, bne_iff_ne]
  omega

theorem F64.isInf_iff (x : F64) : F64.isInf x = true ↔ F64.low x = F64.infBits := by
  simp only [F64.isInf, F64.expField_eq_low, F64.fraction_eq_low, F64.infBits, Bool.and_eq_true, beq_iff_eq]
  omega

theorem F64.isNaN_iff (x : F64) : F64.isNaN x = true ↔ F64.infBits < F64.low x := by
  have := F64.low_lt x
  simp only [F64.isNaN, F64.expField_eq_low, F64.fraction_eq_low, F64.infBits, Bool.and_eq_true, beq_iff_eq,
    bne_iff_ne]
  omega

theorem F64.isZero_iff (x : F64) : F64.isZero x = true ↔ F64.low x = 0 := beq_iff_eq

theorem F64.toNat_pack {neg : Bool} {bits : Nat} (h : bits < 2 ^ 63) :
    (F64.pack neg bits).toNat = (if neg then 2 ^ 63 else 0) + bits := by
  rw [F64.pack, BitVec.toNat_ofNat]
  split <;> omega

@[simp] theorem F64.low_pack {neg : Bool} {bits : Nat} (h : bits < 2 ^ 63) : F64.low (F64.pack neg bits) = bits := by
  rw [F64.low, F64.toNat_pack h]
  split <;> omega

@[simp] theorem F64.sign_pack {neg : Bool} {bits : Nat} (h : bits < 2 ^ 63) : F64.sign (F64.pack neg bits) = neg := by
  rw [F64.sign, F64.toNat_pack h]
  cases neg
  · simp only [Bool.false_eq_true, if_false, beq_eq_false_iff_ne]
    omega
  · simp only [if_true, beq_iff_eq]
    omega

theorem F64.pack_sign_low (x : F64) : F64.pack (F64.sign x) (F64.low x) = x := by
  have hx := x.isLt
  apply BitVec.eq_of_toNat_eq
  rw [F64.toNat_pack (F64.low_lt x), F64.low]
  by_cases hs : F64.sign x = true
  · rw [if_pos hs]
    rw [F64.sign, beq_iff_eq] at hs
    omega
  · rw [if_neg hs]
    rw [F64.sign, beq_iff_eq] at hs
    omega

/-! ### The classes of values: finite, infinite, NaN -/

theorem F64.isNaN_of_isFinite {x : F64} (h : F64.isFinite x = true) : F64.isNaN x = false := by
  rw [F64.isFinite_iff] at h
  rw [Bool.eq_false_iff, Ne, F64.isNaN_iff]
  exact h.not_gt

theorem F64.isInf_of_isFinite {x : F64} (h : F64.isFinite x = true) : F64.isInf x = false := by
  rw [F64.isFinite_iff] at h
  rw [Bool.eq_false_iff, Ne, F64.isInf_iff]
  exact h.ne

@[simp] theorem F64.low_inf (neg : Bool) : F64.low (F64.inf neg) = F64.infBits := F64.low_pack (by decide)

@[simp] theorem F64.sign_inf (neg : Bool) : F64.sign (F64.inf neg) = neg := F64.sign_pack (by decide)

@[simp] theorem F64.isInf_inf (neg : Bool) : F64.isInf (F64.inf neg) = true := by
  rw [F64.isInf_iff, F64.low_inf]

@[simp] theorem F64.isNaN_inf (neg : Bool) : F64.isNaN (F64.inf neg) = false := by
  rw [Bool.eq_false_iff, Ne, F64.isNaN_iff, F64.low_inf]
  exact lt_irrefl _

@[simp] theorem F64.isZero_inf (neg : Bool) : F64.isZero (F64.inf neg) = false := by
  rw [Bool.eq_false_iff, Ne, F64.isZero_iff, F64.low_inf]
  decide

@[simp] theorem F64.isNaN_nan (op : ArithOp) (a b : F64) : F64.isNaN (F64.nan op a b) = true := by
  rw [F64.isNaN_iff, F64.nan, F64.low_pack] <;> unfold F64.infBits <;> omega

@[simp] theorem F64.low_negate (x : F64) : F64.low (F64.negate x) = F64.low x := F64.low_pack (F64.low_lt x)

@[simp] theorem F64.sign_negate (x : F64) : F64.sign (F64.negate x) = !F64.sign x := F64.sign_pack (F64.low_lt x)

@[simp] theorem F64.negate_inf (neg : Bool) : F64.negate (F64.inf neg) = F64.inf (!neg) := by
  rw [F64.negate, ← F64.low, F64.low_inf, F64.sign_inf, F64.inf]

@[simp] theorem F64.isFinite_negate (x : F64) : F64.isFinite (F64.negate x) = F64.isFinite x := by
  rw [Bool.eq_iff_iff, F64.isFinite_iff, F64.isFinite_iff, F64.low_negate]

/-! ### The magnitude that the 63 bits encode -/

/-- The magnitude, in units of 2^−1074, of the 63 bits below a sign. It goes on beyond the greatest finite value
as if there were exponents for it: the pattern of infinity stands for 2^1024. -/
def F64.bitsMagnitude (bits : Nat) : Nat :=
  if bits / 2 ^ 52 = 0 then bits % 2 ^ 52 else (2 ^ 52 + bits % 2 ^ 52) * 2 ^ (bits / 2 ^ 52 - 1)

theorem F64.magnitude_eq_bitsMagnitude (x : F64) : F64.magnitude x = F64.bitsMagnitude (F64.low x) := by
  rw [F64.magnitude, F64.expField_eq_low, F64.fraction_eq_low, F64.bitsMagnitude]

/-- A significand `q` with `k` bits dropped below it is encoded by `k · 2^52 + q`, the carry `q = 2^53` included. -/
theorem F64.bitsMagnitude_significand {k q : Nat} (hk : k = 0 ∨ 2 ^ 52 ≤ q) (hq : q ≤ 2 ^ 53) :
    F64.bitsMagnitude (k * 2 ^ 52 + q) = q * 2 ^ k := by
  obtain h | h | rfl : q < 2 ^ 52 ∨ (2 ^ 52 ≤ q ∧ q < 2 ^ 53) ∨ q = 2 ^ 53 := by omega
  · obtain rfl : k = 0 := by omega
    rw [F64.bitsMagnitude, if_pos (by omega)]
    omega
  · have hdiv : (k * 2 ^ 52 + q) / 2 ^ 52 = k + 1 := by omega
    have hmod : (k * 2 ^ 52 + q) % 2 ^ 52 = q - 2 ^ 52 := by omega
    rw [F64.bitsMagnitude, hdiv, hmod, if_neg k.succ_ne_zero, Nat.add_sub_cancel' h.1, Nat.add_sub_cancel]
  · have hdiv : (k * 2 ^ 52 + 2 ^ 53) / 2 ^ 52 = k + 1 + 1 := by omega
    have hmod : (k * 2 ^ 52 + 2 ^ 53) % 2 ^ 52 = 0 := by omega
    rw [F64.bitsMagnitude, hdiv, hmod, if_neg (k + 1).succ_ne_zero, Nat.add_sub_cancel, pow_succ 2 k]
    ring

theorem F64.bitsMagnitude_succ_significand {k q : Nat} (hk : k = 0 ∨ 2 ^ 52 ≤ q) (hq : q < 2 ^ 53) :
    F64.bitsMagnitude (k * 2 ^ 52 + q + 1) = (q + 1) * 2 ^ k := by
  rw [add_assoc, F64.bitsMagnitude_significand (hk.imp_right Nat.le_succ_of_le) hq]

theorem F64.exists_significand (n : Nat) : ∃ k q, n = k * 2 ^ 52 + q ∧ (k = 0 ∨ 2 ^ 52 ≤ q) ∧ q < 2 ^ 53 :=
  ⟨n / 2 ^ 52 - 1, n - (n / 2 ^ 52 - 1) * 2 ^ 52, by omega, by omega, by omega⟩

theorem F64.bitsMagnitude_strictMono : StrictMono F64.bitsMagnitude := by
  refine strictMono_nat_of_lt_succ fun n => ?_
  obtain ⟨k, q, rfl, hk, hq⟩ := F64.exists_significand n
  rw [F64.bitsMagnitude_significand hk hq.le, F64.bitsMagnitude_succ_significand hk hq]
  exact Nat.mul_lt_mul_of_pos_right q.lt_succ_self (by positivity)

theorem F64.bitsMagnitude_eq_zero_iff {n : Nat} : F64.bitsMagnitude n = 0 ↔ n = 0 :=
  F64.bitsMagnitude_strictMono.injective.eq_iff (b := 0)

/-! ### Comparisons -/

theorem F64.orderKey_eq_low (x : F64) :
    F64.orderKey x = if F64.sign x then -(F64.low x : Int) else (F64.low x : Int) := rfl

theorem F64.units_eq_bitsMagnitude (x : F64) : F64.units x =
    if F64.sign x then -(F64.bitsMagnitude (F64.low x) : Int) else (F64.bitsMagnitude (F64.low x) : Int) := by
  rw [F64.units, F64.magnitude_eq_bitsMagnitude]

/-- Magnitudes keep the order of the patterns, so the values have the order of the keys. -/
theorem F64.units_lt_units_iff (a b : F64) : F64.units a < F64.units b ↔ F64.orderKey a < F64.orderKey b := by
  have hab := F64.bitsMagnitude_strictMono.lt_iff_lt (a := F64.low a) (b := F64.low b)
  have hba := F64.bitsMagnitude_strictMono.lt_iff_lt (a := F64.low b) (b := F64.low a)
  have ha := F64.bitsMagnitude_eq_zero_iff (n := F64.low a)
  have hb := F64.bitsMagnitude_eq_zero_iff (n := F64.low b)
  rw [F64.units_eq_bitsMagnitude, F64.units_eq_bitsMagnitude, F64.orderKey_eq_low, F64.orderKey_eq_low]
  cases F64.sign a <;> cases F64.sign b <;> simp only [if_true, Bool.false_eq_true, if_false] <;> omega

theorem F64.orderKey_inf (neg : Bool) :
    F64.orderKey (F64.inf neg) = if neg then -(F64.infBits : Int) else (F64.infBits : Int) := by
  rw [F64.orderKey_eq_low, F64.sign_inf, F64.low_inf]

theorem F64.abs_orderKey_lt_infBits {x : F64} (h : F64.isFinite x = true) : |F64.orderKey x| < F64.infBits := by
  rw [F64.isFinite_iff] at h
  rw [F64.orderKey_eq_low]
  split
  · rwa [abs_neg, Nat.abs_cast, Nat.cast_lt]
  · rwa [Nat.abs_cast, Nat.cast_lt]

theorem F64.lt_of_not_isNaN {a b : F64} (ha : F64.isNaN a = false) (hb : F64.isNaN b = false) :
    F64.lt a b = decide (F64.orderKey a < F64.orderKey b) := by
  simp [F64.lt, ha, hb]

theorem F64.eq_of_not_isNaN {a b : F64} (ha : F64.isNaN a = false) (hb : F64.isNaN b = false) :
    F64.eq a b = decide (F64.orderKey a = F64.orderKey b) := by
  simp [F64.eq, ha, hb]

theorem F64.compare_of_isNaN {a b : F64} (h : F64.isNaN a = true ∨ F64.isNaN b = true) :
    F64.lt a b = false ∧ F64.eq a b = false := by
  obtain h | h := h <;> simp [F64.lt, F64.eq, h]

theorem F64.compare_finite_inf (neg : Bool) {a : F64} (ha : F64.isFinite a = true) :
    F64.lt a (F64.inf neg) = !neg ∧ F64.lt (F64.inf neg) a = neg ∧
      F64.eq a (F64.inf neg) = false ∧ F64.eq (F64.inf neg) a = false := by
  obtain ⟨hlo, hhi⟩ := abs_lt.1 (F64.abs_orderKey_lt_infBits ha)
  have hnan := F64.isNaN_of_isFinite ha
  have hinf := F64.isNaN_inf neg
  rw [F64.lt_of_not_isNaN hnan hinf, F64.lt_of_not_isNaN hinf hnan, F64.eq_of_not_isNaN hnan hinf,
    F64.eq_of_not_isNaN hinf hnan, F64.orderKey_inf]
  cases neg
  · simp [hhi, hhi.le, hhi.ne, hhi.ne']
  · simp [hlo, hlo.le, hlo.ne, hlo.ne']

theorem F64.compare_inf_inf (neg neg' : Bool) :
    F64.lt (F64.inf neg) (F64.inf neg') = (neg && !neg') ∧ F64.eq (F64.inf neg) (F64.inf neg') = (neg == neg') := by
  rw [F64.lt_of_not_isNaN (F64.isNaN_inf _) (F64.isNaN_inf _), F64.eq_of_not_isNaN (F64.isNaN_inf _) (F64.isNaN_inf _),
    F64.orderKey_inf, F64.orderKey_inf]
  revert neg neg'
  decide

namespace Machine

theorem realOf_lt_realOf_iff (a b : F64) : realOf a < realOf b ↔ F64.orderKey a < F64.orderKey b := by
  rw [realOf, realOf, div_lt_div_iff_of_pos_right (by positivity), Int.cast_lt, F64.units_lt_units_iff]

theorem realOf_eq_realOf_iff (a b : F64) : realOf a = realOf b ↔ F64.orderKey a = F64.orderKey b := by
  simp only [le_antisymm_iff, ← not_lt, realOf_lt_realOf_iff]

end Machine

/-- Settles O60: the order of the finite values is that of `F64.orderKey`, whose bounds are the infinities' keys. -/
theorem comparisonsFollowValues : Obligations.ComparisonsFollowValues := by
  unfold Obligations.ComparisonsFollowValues
  refine ⟨fun a b ha hb => ?_, fun neg a ha => F64.compare_finite_inf neg ha, F64.compare_inf_inf,
    fun a b h => F64.compare_of_isNaN h⟩
  have ha := F64.isNaN_of_isFinite ha
  have hb := F64.isNaN_of_isFinite hb
  rw [F64.lt_of_not_isNaN ha hb, F64.eq_of_not_isNaN ha hb, decide_eq_true_iff, decide_eq_true_iff,
    Machine.realOf_lt_realOf_iff, Machine.realOf_eq_realOf_iff]
  exact ⟨Iff.rfl, Iff.rfl⟩

/-! ### Rounding to nearest, ties to even -/

/-- Twice the midpoint between the magnitudes of two neighbouring patterns. -/
def F64.twiceMidpoint (n : Nat) : Nat := F64.bitsMagnitude n + F64.bitsMagnitude (n + 1)

theorem F64.twiceMidpoint_strictMono : StrictMono F64.twiceMidpoint := fun _ _ h =>
  Nat.add_lt_add (F64.bitsMagnitude_strictMono h) (F64.bitsMagnitude_strictMono (Nat.succ_lt_succ h))

theorem F64.bitsMagnitude_add_le_twiceMidpoint {m n k : Nat} (hm : m ≤ k) (hn : n ≤ k + 1) :
    F64.bitsMagnitude m + F64.bitsMagnitude n ≤ F64.twiceMidpoint k :=
  Nat.add_le_add (F64.bitsMagnitude_strictMono.monotone hm) (F64.bitsMagnitude_strictMono.monotone hn)

theorem F64.twiceMidpoint_le_bitsMagnitude_add {m n k : Nat} (hm : k ≤ m) (hn : k + 1 ≤ n) :
    F64.twiceMidpoint k ≤ F64.bitsMagnitude m + F64.bitsMagnitude n :=
  Nat.add_le_add (F64.bitsMagnitude_strictMono.monotone hm) (F64.bitsMagnitude_strictMono.monotone hn)

theorem F64.twiceMidpoint_lt_two_mul_bitsMagnitude {m n : Nat} (h : m < n) :
    F64.twiceMidpoint m < 2 * F64.bitsMagnitude n := by
  rw [two_mul]
  exact Nat.add_lt_add_of_lt_of_le (F64.bitsMagnitude_strictMono h) (F64.bitsMagnitude_strictMono.monotone h)

theorem F64.two_mul_bitsMagnitude_lt_twiceMidpoint {m n : Nat} (h : n ≤ m) :
    2 * F64.bitsMagnitude n < F64.twiceMidpoint m := by
  rw [two_mul]
  exact Nat.add_lt_add_of_le_of_lt (F64.bitsMagnitude_strictMono.monotone h)
    (F64.bitsMagnitude_strictMono (Nat.lt_succ_of_le h))

theorem F64.twiceMidpoint_significand {k q : Nat} (hk : k = 0 ∨ 2 ^ 52 ≤ q) (hq : q < 2 ^ 53) :
    F64.twiceMidpoint (k * 2 ^ 52 + q) = (2 * q + 1) * 2 ^ k := by
  rw [F64.twiceMidpoint, F64.bitsMagnitude_significand hk hq.le, F64.bitsMagnitude_succ_significand hk hq]
  ring

/-- `r` is the pattern to which the magnitude `v`, in units, rounds when exponents have no bound: `v` lies between
the midpoints on the two sides of `r`, and is a midpoint only if `r` is even. -/
structure F64.IsRounding (v : ℝ) (r : Nat) : Prop where
  below : ∀ n < r, (F64.twiceMidpoint n : ℝ) ≤ 2 * v
  above : ∀ n ≥ r, 2 * v ≤ F64.twiceMidpoint n
  even : ∀ n, (F64.twiceMidpoint n : ℝ) = 2 * v → r % 2 = 0

/-- Two roundings one below the other would leave a midpoint between them that is `v` itself, hence the neighbour of
two even patterns. -/
theorem F64.IsRounding.le {v : ℝ} {r r' : Nat} (h : F64.IsRounding v r) (h' : F64.IsRounding v r') : r' ≤ r := by
  by_contra! hlt
  have hr : (F64.twiceMidpoint r : ℝ) = 2 * v := le_antisymm (h'.below r hlt) (h.above r le_rfl)
  have htop : F64.twiceMidpoint (r' - 1) ≤ F64.twiceMidpoint r := by
    exact_mod_cast (h'.below (r' - 1) (by omega)).trans hr.ge
  have hnext := F64.twiceMidpoint_strictMono.le_iff_le.1 htop
  have := h.even r hr
  have := h'.even r hr
  omega

theorem F64.IsRounding.unique {v : ℝ} {r r' : Nat} (h : F64.IsRounding v r) (h' : F64.IsRounding v r') : r = r' :=
  le_antisymm (h'.le h) (h.le h')

/-- Rounding asks only how twice the magnitude compares with whole numbers of units. -/
theorem F64.IsRounding.congr {v w : ℝ} {r : Nat} (h : F64.IsRounding v r)
    (hle : ∀ m : Nat, (m : ℝ) ≤ 2 * v ↔ (m : ℝ) ≤ 2 * w) (hge : ∀ m : Nat, 2 * v ≤ m ↔ 2 * w ≤ m) :
    F64.IsRounding w r where
  below n hn := (hle _).1 (h.below n hn)
  above n hn := (hge _).1 (h.above n hn)
  even n hn := h.even n (le_antisymm ((hle _).2 hn.le) ((hge _).2 hn.ge))

/-- No pattern's magnitude is nearer to `v` than that of its rounding. -/
theorem F64.IsRounding.nearest {v : ℝ} {r : Nat} (h : F64.IsRounding v r) (n : Nat) :
    |(F64.bitsMagnitude r : ℝ) - v| ≤ |(F64.bitsMagnitude n : ℝ) - v| := by
  obtain hlt | rfl | hgt := lt_trichotomy n r
  · have hmid : (F64.bitsMagnitude n + F64.bitsMagnitude r : ℝ) ≤ F64.twiceMidpoint (r - 1) := by
      exact_mod_cast F64.bitsMagnitude_add_le_twiceMidpoint (by omega) (by omega)
    have hv := h.below (r - 1) (by omega)
    have hmono : (F64.bitsMagnitude n : ℝ) < F64.bitsMagnitude r := by
      exact_mod_cast F64.bitsMagnitude_strictMono hlt
    rw [abs_sub_comm _ v, abs_sub_comm _ v]
    exact (abs_le.2 ⟨by linarith, by linarith⟩).trans (le_abs_self _)
  · exact le_rfl
  · have hmid : (F64.twiceMidpoint r : ℝ) ≤ F64.bitsMagnitude r + F64.bitsMagnitude n := by
      exact_mod_cast F64.twiceMidpoint_le_bitsMagnitude_add le_rfl hgt
    have hv := h.above r le_rfl
    have hmono : (F64.bitsMagnitude r : ℝ) < F64.bitsMagnitude n := by
      exact_mod_cast F64.bitsMagnitude_strictMono hgt
    exact (abs_le.2 ⟨by linarith, by linarith⟩).trans (le_abs_self _)

/-- Another pattern is as near only when `v` is the midpoint of the two. -/
theorem F64.IsRounding.even_of_tie {v : ℝ} {r n : Nat} (h : F64.IsRounding v r) (hne : n ≠ r)
    (htie : |(F64.bitsMagnitude n : ℝ) - v| = |(F64.bitsMagnitude r : ℝ) - v|) : r % 2 = 0 := by
  have hne' : (F64.bitsMagnitude n : ℝ) ≠ F64.bitsMagnitude r := by
    exact_mod_cast F64.bitsMagnitude_strictMono.injective.ne hne
  have hsum : (F64.bitsMagnitude n + F64.bitsMagnitude r : ℝ) = 2 * v := by
    obtain heq | heq := abs_eq_abs.1 htie
    · exact absurd (sub_left_injective heq) hne'
    · linarith
  obtain hlt | hgt := hne.lt_or_gt
  · have hmid : (F64.bitsMagnitude n + F64.bitsMagnitude r : ℝ) ≤ F64.twiceMidpoint (r - 1) := by
      exact_mod_cast F64.bitsMagnitude_add_le_twiceMidpoint (by omega) (by omega)
    exact h.even (r - 1) (le_antisymm (h.below _ (by omega)) (hsum.ge.trans hmid))
  · have hmid : (F64.twiceMidpoint r : ℝ) ≤ F64.bitsMagnitude r + F64.bitsMagnitude n := by
      exact_mod_cast F64.twiceMidpoint_le_bitsMagnitude_add le_rfl hgt
    exact h.even r (le_antisymm (by linarith) (h.above _ le_rfl))

/-- Between two neighbouring magnitudes the rounding is the upper one exactly beyond the midpoint, and on the
midpoint when the lower one is odd. -/
theorem F64.isRounding_between {v : ℝ} {n : Nat} {up : Bool} (hlo : (F64.bitsMagnitude n : ℝ) ≤ v)
    (hhi : v < F64.bitsMagnitude (n + 1))
    (hup : up = true ↔ (F64.twiceMidpoint n : ℝ) < 2 * v ∨ ((F64.twiceMidpoint n : ℝ) = 2 * v ∧ n % 2 = 1)) :
    F64.IsRounding v (n + up.toNat) := by
  have hbelow : ∀ m < n, (F64.twiceMidpoint m : ℝ) < 2 * v := fun m hm => by
    have hmid : (F64.twiceMidpoint m : ℝ) < 2 * F64.bitsMagnitude n := by
      exact_mod_cast F64.twiceMidpoint_lt_two_mul_bitsMagnitude hm
    linarith
  have habove : ∀ m > n, 2 * v < F64.twiceMidpoint m := fun m hm => by
    have hmid : (2 * F64.bitsMagnitude (n + 1) : ℝ) < F64.twiceMidpoint m := by
      exact_mod_cast F64.two_mul_bitsMagnitude_lt_twiceMidpoint hm
    linarith
  have htie : ∀ m, (F64.twiceMidpoint m : ℝ) = 2 * v → m = n := fun m hm => by
    obtain hlt | heq | hgt := lt_trichotomy m n
    · exact absurd hm (hbelow m hlt).ne
    · exact heq
    · exact absurd hm (habove m hgt).ne'
  cases up with
  | true =>
    have hmid : (F64.twiceMidpoint n : ℝ) ≤ 2 * v := (hup.1 rfl).elim le_of_lt fun h => h.1.le
    refine ⟨fun m hm => ?_, fun m hm => (habove m hm).le, fun m hm => ?_⟩
    · obtain hlt | rfl := Nat.lt_succ_iff_lt_or_eq.1 hm
      · exact (hbelow m hlt).le
      · exact hmid
    · obtain rfl := htie m hm
      obtain hlt | ⟨-, hodd⟩ := hup.1 rfl
      · exact absurd hm hlt.ne
      · exact Nat.succ_mod_two_eq_zero_iff.2 hodd
  | false =>
    obtain ⟨hmid, heven⟩ := not_or.1 (mt hup.2 Bool.false_ne_true)
    refine ⟨fun m hm => (hbelow m hm).le, fun m hm => ?_, fun m hm => ?_⟩
    · obtain heq | hgt := Nat.eq_or_lt_of_le hm
      · exact heq ▸ not_lt.1 hmid
      · exact (habove m hgt).le
    · obtain rfl := htie m hm
      exact Nat.mod_two_ne_one.1 fun hodd => heven ⟨hm, hodd⟩

/-! ### What `F64.roundBits` does -/

/-- The magnitude pattern `bits` is `v` rounded, with infinity at the end of the patterns. -/
def F64.RoundsBits (v : ℝ) (bits : Nat) : Prop := ∃ r, F64.IsRounding v r ∧ bits = min r F64.infBits

theorem F64.RoundsBits.unique {v : ℝ} {b b' : Nat} (h : F64.RoundsBits v b) (h' : F64.RoundsBits v b') : b = b' := by
  obtain ⟨r, hr, rfl⟩ := h
  obtain ⟨r', hr', rfl⟩ := h'
  rw [hr.unique hr']

/-- The number `k` of dropped bits leaves a significand of 53 bits, or of fewer when none is dropped. -/
theorem F64.significand_of_log2 (m : Nat) :
    (m.log2 - 52 = 0 ∨ 2 ^ 52 ≤ m / 2 ^ (m.log2 - 52)) ∧ m / 2 ^ (m.log2 - 52) < 2 ^ 53 := by
  obtain rfl | hm := eq_or_ne m 0
  · simp
  have hlt := Nat.lt_log2_self (n := m)
  have hle := Nat.log2_self_le hm
  constructor
  · obtain hk | hk := Nat.le_total m.log2 52
    · exact .inl (Nat.sub_eq_zero_of_le hk)
    · rw [Nat.le_div_iff_mul_le (by positivity), ← pow_add, Nat.add_sub_cancel' hk]
      exact .inr hle
  · rw [Nat.div_lt_iff_lt_mul (by positivity), ← pow_add]
    exact hlt.trans_le (Nat.pow_le_pow_right (by decide) (by omega))

/-- Whether a remainder `r` of the divisor `d` takes the quotient `q` up: past the half, or at it from an odd one. -/
def F64.roundsUp (d q r : Nat) : Bool := decide (d < 2 * r ∨ (d = 2 * r ∧ q % 2 = 1))

theorem F64.roundBits_eq {num den k : Nat} (hk : (num / den).log2 - 52 = k) :
    F64.roundBits num den = min (k * 2 ^ 52 + num / (den * 2 ^ k) +
      (F64.roundsUp (den * 2 ^ k) (num / (den * 2 ^ k)) (num % (den * 2 ^ k))).toNat) F64.infBits := by
  subst hk
  rw [F64.roundsUp, Bool.toNat, Bool.cond_decide, add_assoc]
  rfl

/-- `num / den` lies between the neighbours `k · 2^52 + q` and the next; the remainder decides between them. -/
theorem F64.roundsBits_roundBits {num den : Nat} (hden : 0 < den) :
    F64.RoundsBits (num / den) (F64.roundBits num den) := by
  obtain ⟨hk, hq⟩ := F64.significand_of_log2 (num / den)
  rw [Nat.div_div_eq_div_mul] at hk hq
  generalize hlog : (num / den).log2 - 52 = k at hk hq
  refine ⟨_, ?_, F64.roundBits_eq hlog⟩
  have hd : 0 < den * 2 ^ k := by positivity
  have hdiv := Nat.div_add_mod num (den * 2 ^ k)
  have hmod := Nat.mod_lt num hd
  generalize num / (den * 2 ^ k) = q at *
  generalize num % (den * 2 ^ k) = r at *
  have hden' : (0 : ℝ) < den := Nat.cast_pos.2 hden
  have hmid : F64.twiceMidpoint (k * 2 ^ 52 + q) * den = 2 * (den * 2 ^ k * q) + den * 2 ^ k := by
    rw [F64.twiceMidpoint_significand hk hq]
    ring
  refine F64.isRounding_between ?_ ?_ ?_
  · rw [le_div_iff₀ hden', F64.bitsMagnitude_significand hk hq.le]
    norm_cast
    linarith
  · rw [div_lt_iff₀ hden', F64.bitsMagnitude_succ_significand hk hq]
    norm_cast
    linarith
  · rw [F64.roundsUp, decide_eq_true_iff, mul_div_assoc', lt_div_iff₀ hden', eq_div_iff hden'.ne']
    norm_cast
    rw [hmid]
    omega

section
open Machine

/-! ### From patterns to real numbers -/

/-- Half a step above the greatest finite value, in units. -/
theorem F64.twiceMidpoint_below_infBits :
    (F64.twiceMidpoint (F64.infBits - 1) : ℝ) = 2 * ((2 ^ 1024 - 2 ^ 970) * 2 ^ 1074) := by
  have h₁ : (2 : ℝ) ^ 1024 = 2 ^ 54 * 2 ^ 970 := by rw [← pow_add]
  have h₂ : (2 : ℝ) ^ 2045 = 2 * 2 ^ 970 * 2 ^ 1074 := by rw [← pow_succ', ← pow_add]
  rw [show F64.infBits - 1 = 2045 * 2 ^ 52 + (2 ^ 53 - 1) by decide,
    F64.twiceMidpoint_significand (.inr (by decide)) (by decide), Nat.cast_mul, Nat.cast_pow, Nat.cast_ofNat, h₁, h₂]
  generalize (2 : ℝ) ^ 970 = a
  generalize (2 : ℝ) ^ 1074 = u
  push_cast
  ring

theorem F64.abs_realOf (a : F64) : |realOf a| = (F64.bitsMagnitude (F64.low a) : ℝ) / 2 ^ 1074 := by
  rw [realOf, F64.units_eq_bitsMagnitude, abs_div, abs_of_pos (by positivity : (0 : ℝ) < 2 ^ 1074)]
  split
  · rw [Int.cast_neg, Int.cast_natCast, abs_neg, Nat.abs_cast]
  · rw [Int.cast_natCast, Nat.abs_cast]

theorem F64.realOf_of_sign {a : F64} {neg : Bool} (h : F64.sign a = neg) :
    realOf a = if neg then -|realOf a| else |realOf a| := by
  rw [F64.abs_realOf, realOf, F64.units_eq_bitsMagnitude, h]
  split
  · rw [Int.cast_neg, Int.cast_natCast, neg_div]
  · rw [Int.cast_natCast]

theorem F64.realOf_eq_zero_iff (a : F64) : realOf a = 0 ↔ F64.low a = 0 := by
  rw [← abs_eq_zero, F64.abs_realOf, div_eq_zero_iff, Nat.cast_eq_zero, F64.bitsMagnitude_eq_zero_iff]
  exact or_iff_left (by positivity)

/-- The sign bit of a value that is not zero is the number's sign. -/
theorem F64.sign_eq_decide {a : F64} (h : realOf a ≠ 0) : F64.sign a = decide (realOf a < 0) := by
  rw [F64.realOf_of_sign rfl]
  cases F64.sign a <;> simp [h]

theorem F64.abs_abs_realOf_sub (a : F64) (x : ℝ) :
    |(|realOf a| - |x|)| = |(F64.bitsMagnitude (F64.low a) : ℝ) - |x| * 2 ^ 1074| / 2 ^ 1074 := by
  have hu : (0 : ℝ) < 2 ^ 1074 := by positivity
  rw [F64.abs_realOf, ← abs_of_pos hu, ← abs_div, abs_of_pos hu, sub_div, mul_div_cancel_right₀ _ hu.ne']

/-- The rounding is finite exactly below the midpoint before infinity, the last finite pattern being odd. -/
theorem F64.IsRounding.lt_infBits_iff {x : ℝ} {r : Nat} (h : F64.IsRounding (|x| * 2 ^ 1074) r) :
    r < F64.infBits ↔ |x| < 2 ^ 1024 - 2 ^ 970 := by
  have hu : (0 : ℝ) < 2 ^ 1074 := by positivity
  rw [← mul_lt_mul_iff_left₀ hu, ← mul_lt_mul_iff_right₀ (two_pos (α := ℝ)), ← F64.twiceMidpoint_below_infBits]
  constructor
  · intro hlt
    refine (h.above _ (Nat.le_sub_one_of_lt hlt)).lt_of_ne fun htie => ?_
    have heven := h.even _ htie.symm
    have hle : F64.twiceMidpoint (F64.infBits - 1) ≤ F64.twiceMidpoint r := by
      exact_mod_cast htie.symm.le.trans (h.above r le_rfl)
    have := F64.twiceMidpoint_strictMono.le_iff_le.1 hle
    unfold F64.infBits at *
    omega
  · intro hv
    by_contra! hle
    exact absurd (h.below (F64.infBits - 1) (by unfold F64.infBits at *; omega)) hv.not_ge

theorem F64.abs_realOf_sub_of_sign {x : ℝ} {c : F64} (hsign : x ≠ 0 → F64.sign c = decide (x < 0)) :
    |realOf c - x| = |(|realOf c| - |x|)| := by
  obtain rfl | hx := eq_or_ne x 0
  · rw [sub_zero, abs_zero, sub_zero, abs_abs]
  · rw [F64.realOf_of_sign (hsign hx)]
    by_cases hneg : x < 0
    · rw [decide_eq_true hneg, if_pos rfl, abs_neg, abs_abs, abs_of_neg hneg, ← abs_neg, neg_sub, sub_neg_eq_add,
        sub_neg_eq_add, add_comm]
    · rw [decide_eq_false hneg, if_neg Bool.false_ne_true, abs_abs, abs_of_nonneg (not_lt.1 hneg)]

theorem F64.IsRounding.eq_zero {r : Nat} (h : F64.IsRounding 0 r) : r = 0 := by
  by_contra hr
  have hmid : F64.twiceMidpoint 0 ≤ 0 := by exact_mod_cast (h.below 0 (Nat.pos_of_ne_zero hr)).trans_eq (mul_zero 2)
  exact absurd hmid (by decide)

/-- The value with the sign of `x` whose pattern rounds its magnitude is nearest to `x`: a value of the other sign
is no nearer than its absolute value is to that of `x`. -/
theorem F64.nearestTo_of_isRounding {x : ℝ} {c : F64} (hfin : F64.isFinite c = true)
    (h : F64.IsRounding (|x| * 2 ^ 1074) (F64.low c)) (hsign : x ≠ 0 → F64.sign c = decide (x < 0)) :
    NearestTo x c := by
  have hu : (0 : ℝ) < 2 ^ 1074 := by positivity
  have hnear : ∀ w, |realOf c - x| ≤ |(|realOf w| - |x|)| := fun w => by
    rw [F64.abs_realOf_sub_of_sign hsign, F64.abs_abs_realOf_sub, F64.abs_abs_realOf_sub]
    exact div_le_div_of_nonneg_right (h.nearest _) hu.le
  refine ⟨hfin, fun w _ => (hnear w).trans (abs_abs_sub_abs_le _ _), fun w _ hne htie => ?_⟩
  have heven : F64.low c % 2 = 0 := by
    by_cases hlow : F64.low w = F64.low c
    · have hopp : realOf w = -realOf c :=
        (abs_eq_abs.1 (by rw [F64.abs_realOf, F64.abs_realOf, hlow])).resolve_left hne
      have hx : x = 0 := by
        obtain heq | heq := abs_eq_abs.1 htie
        · exact absurd (sub_left_injective heq) hne
        · linarith
      rw [hx, abs_zero, zero_mul] at h
      rw [h.eq_zero]
    · have htie' : |(|realOf w| - |x|)| = |(|realOf c| - |x|)| := by
        rw [← F64.abs_realOf_sub_of_sign hsign]
        exact le_antisymm ((abs_abs_sub_abs_le _ _).trans_eq htie) (hnear w)
      rw [F64.abs_abs_realOf_sub, F64.abs_abs_realOf_sub, div_left_inj' hu.ne'] at htie'
      exact h.even_of_tie hlow htie'
  unfold F64.low at heven
  omega

/-- The rounded magnitude under the number's sign is the number rounded; a zero may have either sign. -/
theorem F64.roundsTo_pack {x : ℝ} {neg : Bool} {bits : Nat} (h : F64.RoundsBits (|x| * 2 ^ 1074) bits)
    (hsign : x ≠ 0 → neg = decide (x < 0)) : RoundsTo x (F64.pack neg bits) := by
  obtain ⟨r, hr, rfl⟩ := h
  constructor
  · intro hx
    have hlt := hr.lt_infBits_iff.2 hx
    have hr63 : r < 2 ^ 63 := hlt.trans (by decide)
    rw [min_eq_left hlt.le]
    refine F64.nearestTo_of_isRounding ?_ ?_ ?_
    · rwa [F64.isFinite_iff, F64.low_pack hr63]
    · rwa [F64.low_pack hr63]
    · rwa [F64.sign_pack hr63]
  · intro hx
    have hge := not_lt.1 (mt hr.lt_infBits_iff.1 hx.not_gt)
    have hpos : (0 : ℝ) < 2 ^ 1024 - 2 ^ 970 := sub_pos.2 (pow_lt_pow_right₀ one_lt_two (by decide))
    rw [min_eq_right hge, hsign (abs_pos.1 (hpos.trans_le hx)), F64.inf]

theorem F64.RoundsBits.lt {v : ℝ} {bits : Nat} (h : F64.RoundsBits v bits) : bits < 2 ^ 63 := by
  obtain ⟨r, -, rfl⟩ := h
  exact (min_le_right _ _).trans_lt (by decide)

/-! ### The operations on finite values -/

theorem F64.realOf_negate (a : F64) : realOf (F64.negate a) = -realOf a := by
  rw [realOf, realOf, F64.units_eq_bitsMagnitude, F64.units_eq_bitsMagnitude, F64.low_negate, F64.sign_negate,
    ← neg_div]
  cases F64.sign a <;> simp

theorem F64.roundBits_zero {den : Nat} (h : 0 < den) : F64.roundBits 0 den = 0 := by
  obtain ⟨r, hr, h0⟩ := F64.roundsBits_roundBits (num := 0) h
  rw [Nat.cast_zero, zero_div] at hr
  rw [h0, hr.eq_zero, Nat.zero_min]

theorem F64.units_eq_realOf (a : F64) : (F64.units a : ℝ) = realOf a * 2 ^ 1074 :=
  (div_mul_cancel₀ _ (by positivity)).symm

theorem F64.addFinite_eq (a b : F64) : F64.addFinite a b =
    F64.pack (if realOf a + realOf b = 0 then F64.sign a && F64.sign b else decide (realOf a + realOf b < 0))
      (F64.roundBits (F64.units a + F64.units b).natAbs 1) := by
  have hu : (0 : ℝ) < 2 ^ 1074 := by positivity
  have hsum : ((F64.units a + F64.units b : Int) : ℝ) = (realOf a + realOf b) * 2 ^ 1074 := by
    rw [Int.cast_add, F64.units_eq_realOf, F64.units_eq_realOf, add_mul]
  have hzero : F64.units a + F64.units b = 0 ↔ realOf a + realOf b = 0 := by
    rw [← Int.cast_eq_zero (α := ℝ), hsum, mul_eq_zero_iff_right hu.ne']
  have hneg : F64.units a + F64.units b < 0 ↔ realOf a + realOf b < 0 := by
    rw [← Int.cast_lt_zero (R := ℝ), hsum, ← neg_pos, ← neg_mul, mul_pos_iff_of_pos_right hu, neg_pos]
  by_cases h : F64.units a + F64.units b = 0
  · rw [F64.addFinite, if_pos h, if_pos (hzero.1 h), h, Int.natAbs_zero, F64.roundBits_zero one_pos]
  · rw [F64.addFinite, if_neg h, if_neg (mt hzero.2 h), decide_eq_decide.2 hneg]

theorem F64.roundsBits_sum (a b : F64) : F64.RoundsBits (|realOf a + realOf b| * 2 ^ 1074)
    (F64.roundBits (F64.units a + F64.units b).natAbs 1) := by
  have hv : |realOf a + realOf b| * 2 ^ 1074 = ((F64.units a + F64.units b).natAbs : ℝ) / (1 : Nat) := by
    rw [Nat.cast_one, div_one, Nat.cast_natAbs, Int.cast_abs, Int.cast_add, F64.units_eq_realOf, F64.units_eq_realOf,
      ← add_mul, abs_mul, abs_of_pos (by positivity : (0 : ℝ) < 2 ^ 1074)]
  rw [hv]
  exact F64.roundsBits_roundBits one_pos

theorem F64.addFinite_roundsTo (a b : F64) : RoundsTo (realOf a + realOf b) (F64.addFinite a b) := by
  rw [F64.addFinite_eq]
  exact F64.roundsTo_pack (F64.roundsBits_sum a b) fun h => if_neg h

theorem F64.sign_addFinite_of_sum_zero {a b : F64} (h : realOf a + realOf b = 0) :
    F64.sign (F64.addFinite a b) = (F64.sign a && F64.sign b) := by
  rw [F64.addFinite_eq, F64.sign_pack (F64.roundsBits_sum a b).lt, if_pos h]

section
variable {a b : F64} (ha : F64.isFinite a = true) (hb : F64.isFinite b = true)
include ha hb

theorem F64.add_of_isFinite : F64.add a b = F64.addFinite a b := by
  simp [F64.add, F64.addNumbers, F64.isNaN_of_isFinite, F64.isInf_of_isFinite, ha, hb]

theorem F64.sub_of_isFinite : F64.sub a b = F64.addFinite a (F64.negate b) := by
  simp [F64.sub, F64.addNumbers, F64.isNaN_of_isFinite, F64.isInf_of_isFinite, ha, hb]

theorem F64.mul_of_isFinite : F64.mul a b = F64.pack (F64.sign a != F64.sign b)
    (F64.roundBits (F64.magnitude a * F64.magnitude b) (2 ^ 1074)) := by
  simp [F64.mul, F64.isNaN_of_isFinite, F64.isInf_of_isFinite, ha, hb, -Nat.reducePow]

theorem F64.div_of_isFinite (hz : F64.isZero b = false) : F64.div a b = F64.pack (F64.sign a != F64.sign b)
    (F64.roundBits (F64.magnitude a * 2 ^ 1074) (F64.magnitude b)) := by
  simp [F64.div, F64.isNaN_of_isFinite, F64.isInf_of_isFinite, ha, hb, hz, -Nat.reducePow]

theorem F64.div_zero_of_isFinite (hz : F64.isZero b = true) : F64.div a b =
    if F64.isZero a then F64.nan .div a b else F64.inf (F64.sign a != F64.sign b) := by
  simp [F64.div, F64.isNaN_of_isFinite, F64.isInf_of_isFinite, ha, hb, hz]

end

theorem F64.magnitude_eq_abs_realOf (a : F64) : (F64.magnitude a : ℝ) = |realOf a| * 2 ^ 1074 := by
  rw [F64.abs_realOf, div_mul_cancel₀ _ (by positivity), F64.magnitude_eq_bitsMagnitude]

theorem F64.sign_bne_eq_decide_mul {a b : F64} (h : realOf a * realOf b ≠ 0) :
    (F64.sign a != F64.sign b) = decide (realOf a * realOf b < 0) := by
  obtain ⟨ha, hb⟩ := mul_ne_zero_iff.1 h
  rw [F64.sign_eq_decide ha, F64.sign_eq_decide hb]
  obtain ha | ha := ha.lt_or_gt <;> obtain hb | hb := hb.lt_or_gt <;>
    simp [mul_neg_iff, ha, hb, ha.not_gt, hb.not_gt]

theorem F64.roundsBits_product (a b : F64) : F64.RoundsBits (|realOf a * realOf b| * 2 ^ 1074)
    (F64.roundBits (F64.magnitude a * F64.magnitude b) (2 ^ 1074)) := by
  have hu : (2 : ℝ) ^ 1074 ≠ 0 := by positivity
  have hv : |realOf a * realOf b| * 2 ^ 1074 =
      ((F64.magnitude a * F64.magnitude b : Nat) : ℝ) / ((2 ^ 1074 : Nat) : ℝ) := by
    rw [Nat.cast_pow, Nat.cast_ofNat, Nat.cast_mul, F64.magnitude_eq_abs_realOf, F64.magnitude_eq_abs_realOf, abs_mul,
      eq_div_iff hu, mul_assoc]
    exact mul_mul_mul_comm _ _ _ _
  rw [hv]
  exact F64.roundsBits_roundBits (pow_pos two_pos _)

theorem F64.roundsBits_quotient (a : F64) {b : F64} (hb : realOf b ≠ 0) :
    F64.RoundsBits (|realOf a / realOf b| * 2 ^ 1074)
      (F64.roundBits (F64.magnitude a * 2 ^ 1074) (F64.magnitude b)) := by
  have hu : (0 : ℝ) < 2 ^ 1074 := by positivity
  have hden : (0 : ℝ) < F64.magnitude b := by
    rw [F64.magnitude_eq_abs_realOf]
    exact mul_pos (abs_pos.2 hb) hu
  have hv : |realOf a / realOf b| * 2 ^ 1074 = ((F64.magnitude a * 2 ^ 1074 : Nat) : ℝ) / F64.magnitude b := by
    rw [Nat.cast_mul, Nat.cast_pow, Nat.cast_ofNat, F64.magnitude_eq_abs_realOf, F64.magnitude_eq_abs_realOf, abs_div,
      mul_div_mul_right _ _ hu.ne', div_mul_eq_mul_div]
  rw [hv]
  exact F64.roundsBits_roundBits (Nat.cast_pos.1 hden)

theorem F64.realOf_ne_zero {a : F64} (h : F64.isZero a = false) : realOf a ≠ 0 := by
  rwa [Ne, F64.realOf_eq_zero_iff, ← F64.isZero_iff, Bool.not_eq_true]

section
variable {a b : F64} (ha : F64.isFinite a = true) (hb : F64.isFinite b = true)
include ha hb

theorem F64.mul_roundsTo : RoundsTo (realOf a * realOf b) (F64.mul a b) := by
  rw [F64.mul_of_isFinite ha hb]
  exact F64.roundsTo_pack (F64.roundsBits_product a b) F64.sign_bne_eq_decide_mul

theorem F64.sign_mul : F64.sign (F64.mul a b) = (F64.sign a != F64.sign b) := by
  rw [F64.mul_of_isFinite ha hb, F64.sign_pack (F64.roundsBits_product a b).lt]

theorem F64.div_roundsTo (hz : F64.isZero b = false) : RoundsTo (realOf a / realOf b) (F64.div a b) := by
  have hb0 := F64.realOf_ne_zero hz
  rw [F64.div_of_isFinite ha hb hz]
  refine F64.roundsTo_pack (F64.roundsBits_quotient a hb0) fun hq => ?_
  rw [F64.sign_bne_eq_decide_mul (mul_ne_zero (div_ne_zero_iff.1 hq).1 hb0), decide_eq_decide, mul_neg_iff, div_neg_iff]

theorem F64.sign_div (hz : F64.isZero b = false) : F64.sign (F64.div a b) = (F64.sign a != F64.sign b) := by
  rw [F64.div_of_isFinite ha hb hz, F64.sign_pack (F64.roundsBits_quotient a (F64.realOf_ne_zero hz)).lt]

end

/-! ### Infinities and NaNs -/

theorem F64.arith_inf_finite (neg : Bool) {a : F64} (ha : F64.isFinite a = true) :
    F64.add (F64.inf neg) a = F64.inf neg ∧ F64.add a (F64.inf neg) = F64.inf neg ∧
    F64.sub (F64.inf neg) a = F64.inf neg ∧ F64.sub a (F64.inf neg) = F64.inf (!neg) ∧
    F64.div (F64.inf neg) a = F64.inf (neg != F64.sign a) ∧
    F64.div a (F64.inf neg) = F64.pack (F64.sign a != neg) 0 := by
  have hnan := F64.isNaN_of_isFinite ha
  have hinf := F64.isInf_of_isFinite ha
  have hinf' := F64.isInf_of_isFinite ((F64.isFinite_negate a).trans ha)
  refine ⟨?_, ?_, ?_, ?_, ?_, ?_⟩ <;>
    simp [F64.add, F64.sub, F64.div, F64.addNumbers, hnan, hinf, hinf', -Nat.reducePow]

theorem F64.mul_inf_finite (neg : Bool) {a : F64} (ha : F64.isFinite a = true) :
    F64.mul (F64.inf neg) a =
      (if F64.isZero a then F64.nan .mul (F64.inf neg) a else F64.inf (neg != F64.sign a)) ∧
    F64.mul a (F64.inf neg) =
      (if F64.isZero a then F64.nan .mul a (F64.inf neg) else F64.inf (F64.sign a != neg)) := by
  constructor <;> simp [F64.mul, F64.isNaN_of_isFinite ha, -Nat.reducePow]

theorem F64.arith_inf_inf (neg neg' : Bool) :
    F64.add (F64.inf neg) (F64.inf neg) = F64.inf neg ∧ F64.sub (F64.inf neg) (F64.inf (!neg)) = F64.inf neg ∧
    F64.isNaN (F64.add (F64.inf neg) (F64.inf (!neg))) = true ∧
    F64.isNaN (F64.sub (F64.inf neg) (F64.inf neg)) = true ∧
    F64.mul (F64.inf neg) (F64.inf neg') = F64.inf (neg != neg') ∧
    F64.isNaN (F64.div (F64.inf neg) (F64.inf neg')) = true := by
  refine ⟨?_, ?_, ?_, ?_, ?_, ?_⟩ <;>
    simp [F64.add, F64.sub, F64.mul, F64.div, F64.addNumbers, -Nat.reducePow]

theorem F64.arith_of_isNaN {a b : F64} (h : F64.isNaN a = true ∨ F64.isNaN b = true) :
    F64.isNaN (F64.add a b) = true ∧ F64.isNaN (F64.sub a b) = true ∧
    F64.isNaN (F64.mul a b) = true ∧ F64.isNaN (F64.div a b) = true := by
  have hor : (F64.isNaN a || F64.isNaN b) = true := Bool.or_eq_true_iff.2 h
  refine ⟨?_, ?_, ?_, ?_⟩ <;> simp [F64.add, F64.sub, F64.mul, F64.div, hor, -Nat.reducePow]

/-! ### Constants -/

/-- A number strictly between two steps of 2^−1076 rounds as the half step between them does: the midpoints between
patterns are whole numbers of two steps. -/
theorem F64.IsRounding.of_half_step {w : ℝ} {s r : Nat} (h : F64.IsRounding (((2 * s + 1 : Nat) : ℝ) / (8 : Nat)) r)
    (hlo : (s : ℝ) < 4 * w) (hhi : 4 * w < s + 1) : F64.IsRounding w r := by
  push_cast at h
  refine h.congr (fun m => ?_) fun m => ?_
  · obtain hm | hm := le_or_gt (2 * m) s
    · rify at hm
      exact iff_of_true (by linarith) (by linarith)
    · rify [Nat.lt_iff_add_one_le] at hm
      exact iff_of_false (by linarith) (by linarith)
  · obtain hm | hm := le_or_gt (2 * m) s
    · rify at hm
      exact iff_of_false (by linarith) (by linarith)
    · rify [Nat.lt_iff_add_one_le] at hm
      exact iff_of_true (by linarith) (by linarith)

/-- The magnitude in steps of 2^−1076, with half a step more where it is no whole number of them, rounds as `x`. -/
theorem F64.ofReal_eq_pack (x : ℝ) :
    ∃ bits, F64.ofReal x = F64.pack (decide (x < 0)) bits ∧ F64.RoundsBits (|x| * 2 ^ 1074) bits := by
  have hsteps : |x| * 2 ^ 1076 = 4 * (|x| * 2 ^ 1074) := by
    rw [mul_left_comm, show (2 : ℝ) ^ 1076 = 2 ^ 2 * 2 ^ 1074 by rw [← pow_add]]
    norm_num
  have hfloor := Nat.floor_le (by positivity : 0 ≤ |x| * 2 ^ 1076)
  have hnext := Nat.lt_floor_add_one (|x| * 2 ^ 1076)
  generalize ⌊|x| * 2 ^ 1076⌋₊ = s at hfloor hnext
  obtain hs | hs := hfloor.eq_or_lt
  · refine ⟨_, F64.ofReal_of_steps x s hs, ?_⟩
    have hv : |x| * 2 ^ 1074 = ((2 * s : Nat) : ℝ) / (8 : Nat) := by
      rw [← mul_right_inj' (four_ne_zero (α := ℝ)), ← hsteps, ← hs]
      push_cast
      ring
    rw [hv]
    exact F64.roundsBits_roundBits (by decide)
  · refine ⟨_, F64.ofReal_between_steps x s hs hnext, ?_⟩
    obtain ⟨r, hr, hbits⟩ := F64.roundsBits_roundBits (num := 2 * s + 1) (den := 8) (by decide)
    exact ⟨r, hr.of_half_step (hsteps ▸ hs) (hsteps ▸ hnext), hbits⟩

theorem F64.ofReal_roundsTo (x : ℝ) :
    RoundsTo x (F64.ofReal x) ∧ F64.sign (F64.ofReal x) = decide (x < 0) := by
  obtain ⟨bits, heq, hbits⟩ := F64.ofReal_eq_pack x
  rw [heq]
  exact ⟨F64.roundsTo_pack hbits fun _ => rfl, F64.sign_pack hbits.lt⟩

theorem F64.ofReal_of_roundsBits {x : ℝ} {bits : Nat} (h : F64.RoundsBits (|x| * 2 ^ 1074) bits) :
    F64.ofReal x = F64.pack (decide (x < 0)) bits := by
  obtain ⟨bits', heq, hbits'⟩ := F64.ofReal_eq_pack x
  rw [heq, hbits'.unique h]

theorem F64.ofInt_eq_ofReal (n : Int) : F64.ofInt n = F64.ofReal n := by
  have hv : |(n : ℝ)| * 2 ^ 1074 = ((n.natAbs * 2 ^ 1074 : Nat) : ℝ) / (1 : Nat) := by
    rw [Nat.cast_one, div_one, Nat.cast_mul, Nat.cast_pow, Nat.cast_ofNat, Nat.cast_natAbs, Int.cast_abs]
  have hneg : (decide (n < 0) && n.natAbs != 0) = decide ((n : ℝ) < 0) := by
    rw [Bool.eq_iff_iff, Bool.and_eq_true, decide_eq_true_iff, decide_eq_true_iff, bne_iff_ne, Int.cast_lt_zero]
    omega
  rw [F64.ofReal_of_roundsBits (hv ▸ F64.roundsBits_roundBits one_pos), F64.ofInt, F64.ofRatio, hneg]

theorem F64.isRounding_self (n : Nat) : F64.IsRounding (F64.bitsMagnitude n) n := by
  have hsucc := F64.bitsMagnitude_strictMono n.lt_succ_self
  refine F64.isRounding_between (up := false) le_rfl (Nat.cast_lt.2 hsucc) (iff_of_false Bool.false_ne_true ?_)
  have hmid : (2 * F64.bitsMagnitude n : ℝ) < F64.twiceMidpoint n := by
    exact_mod_cast F64.two_mul_bitsMagnitude_lt_twiceMidpoint le_rfl
  exact not_or.2 ⟨hmid.not_gt, fun h => hmid.ne' h.1⟩

/-- A finite value that is not zero needs no rounding, and a number that is not zero has one sign. -/
theorem F64.ofReal_realOf {a : F64} (ha : F64.isFinite a = true) (hz : F64.isZero a = false) :
    F64.ofReal (realOf a) = a := by
  have hbits : F64.RoundsBits (|realOf a| * 2 ^ 1074) (F64.low a) := by
    rw [← F64.magnitude_eq_abs_realOf, F64.magnitude_eq_bitsMagnitude]
    exact ⟨_, F64.isRounding_self _, (min_eq_left ((F64.isFinite_iff a).1 ha).le).symm⟩
  rw [F64.ofReal_of_roundsBits hbits, ← F64.sign_eq_decide (F64.realOf_ne_zero hz), F64.pack_sign_low]

/-- Settles O59: each result is one `F64.roundBits` of the exact magnitude, whose neighbours are ordered by
`F64.bitsMagnitude`; the cases with an infinity, a zero divisor or a NaN are read off the operations. -/
theorem arithmeticIsNearest : Obligations.ArithmeticIsNearest := by
  unfold Obligations.ArithmeticIsNearest
  refine ⟨fun a b ha hb => ?_, fun neg a ha => ?_, F64.arith_inf_inf, fun a b => F64.arith_of_isNaN,
    fun x => ?_, fun n => ?_, fun a ha hz => ?_⟩
  · have hsub : realOf a - realOf b = realOf a + realOf (F64.negate b) := by rw [F64.realOf_negate, sub_eq_add_neg]
    rw [F64.add_of_isFinite ha hb, F64.sub_of_isFinite ha hb, hsub]
    refine ⟨F64.addFinite_roundsTo a b, F64.addFinite_roundsTo a _, F64.mul_roundsTo ha hb, F64.div_roundsTo ha hb,
      F64.sign_addFinite_of_sum_zero, fun hsum => ?_, F64.sign_mul ha hb, F64.sign_div ha hb, fun hb0 ha0 => ?_,
      fun hb0 ha0 => ?_⟩
    · rw [F64.sign_addFinite_of_sum_zero hsum, F64.sign_negate]
    · rw [F64.div_zero_of_isFinite ha hb hb0, ha0, if_neg Bool.false_ne_true]
    · rw [F64.div_zero_of_isFinite ha hb hb0, if_pos ha0, F64.isNaN_nan]
  · obtain ⟨hadd, hadd', hsub, hsub', hdiv, hdiv'⟩ := F64.arith_inf_finite neg ha
    obtain ⟨hmul, hmul'⟩ := F64.mul_inf_finite neg ha
    refine ⟨hadd, hadd', hsub, hsub', hdiv, hdiv', fun hz => ?_, fun hz => ?_⟩ <;> simp [hmul, hmul', hz]
  · rw [numF64_ofReal]
    exact F64.ofReal_roundsTo x
  · rw [numF64_ofInt, numF64_ofReal, F64.ofInt_eq_ofReal]
  · rw [numF64_ofReal, F64.ofReal_realOf ha hz]

end

end Sys2Proof

namespace Sys2Proof.Machine

section
variable {T : Type}

/-! ### A constructed context within the capacities -/

/-- The two ends of a role table are Guard (43_frame_layout.md R140). -/
theorem computeRoles_eq_guard_append_guard (d P : Nat) :
    computeRoles (d + 2) P =
      .guard :: ((List.range d).map (fun k => computeRole (d + 2) P (k + 1)) ++ [.guard]) := by
  rw [computeRoles, List.range_succ, List.range_succ_eq_map]
  simp [computeRole]

theorem count_data_computeRoles_le (d P : Nat) : (computeRoles (d + 2) P).count .data ≤ d := by
  have hmiddle := List.count_le_length (a := Role.data)
    (l := (List.range d).map fun k => computeRole (d + 2) P (k + 1))
  rw [List.length_map, List.length_range] at hmiddle
  simpa [computeRoles_eq_guard_append_guard] using hmiddle

theorem toNat_le_eight_of_legalOrder {order : BitVec 8} (h : legalOrder order = true) : order.toNat ≤ 8 := by
  simp only [legalOrder, Bool.or_eq_true, beq_iff_eq] at h
  obtain ((rfl | rfl) | rfl) | rfl := h <;> decide

/-- What a command reads or writes in a constructed context fits its space (20_memory.md R50, R53). -/
theorem lengths_within_capacities (P : Params T) (k : Ctx) (hk : Ctx.InvFor P k) (hv : k.valid = true) :
    k.capbits.toNat ≤ P.bitbufCap ∧ k.symlen.toNat ≤ P.sampbufCap ∧ k.n ≤ P.sampbufCap := by
  obtain ⟨hmin, hmax, hcp, horder, hbps, hsym, hroles, -, hdata, -, hcap⟩ := hk hv
  obtain ⟨d, hd⟩ : ∃ d, k.n = d + 2 := ⟨k.n - 2, by omega⟩
  have hcount : k.ndata.toNat ≤ d := by
    rw [hdata, hroles, hd]
    exact count_data_computeRoles_le d _
  have hbits : k.bits ≤ 8 := by
    rw [Ctx.bits, hbps]
    exact toNat_le_eight_of_legalOrder horder
  have hproduct := Nat.mul_le_mul hcount hbits
  simp only [Params.bitbufCap, Params.sampbufCap]
  omega

/-- CONSTRUCT establishes the invariant of 10_state.md R29: no derived count overflows its 32 bits. -/
theorem buildCtx_invFor (P : Params T) (hmax : P.nscMax ≤ 2 ^ 28) {xsel : BitVec 1} {order : BitVec 8}
    {nsc cplen pevery : Word} {k : Ctx} (horder : legalOrder order = true)
    (hk : buildCtx P xsel order nsc cplen pevery = .ok k) : Ctx.InvFor P k := by
  obtain ⟨hN, hNmax, hcp, hdata, rfl⟩ := (buildCtx_ok P xsel order nsc cplen pevery k).1 hk
  have hcount (r : Role) : (computeRoles nsc.toNat pevery.toNat).count r ≤ nsc.toNat :=
    List.count_le_length.trans_eq (length_computeRoles _ _)
  have hcap := Nat.mul_le_mul (hcount .data) (toNat_le_eight_of_legalOrder horder)
  have fits {n : Nat} (hn : n ≤ nsc.toNat * 8) : (BitVec.ofNat 32 n).toNat = n :=
    (BitVec.toNat_ofNat n 32).trans (Nat.mod_eq_of_lt (by omega))
  have hcount_fits (r : Role) := fits ((hcount r).trans (Nat.le_mul_of_pos_right _ (by decide)))
  refine fun _ => ⟨hN, hNmax, hcp, horder, rfl, fits (by omega), rfl, hcount_fits .pilot, hcount_fits .data, ?_, ?_⟩
  · exact (Nat.one_le_iff_ne_zero.2 hdata).trans_eq (hcount_fits .data).symm
  · exact (fits hcap).trans (congrArg (· * order.toNat) (hcount_fits .data).symm)

/-! ### What a command writes, within the capacities -/

theorem wellFormed_of_accept {mnemonic : String} {f : PacketFields} {clean : Bool} {i j : Instr}
    (h : accept mnemonic f clean i = .ok j) : j.wellFormed = true := by
  obtain ⟨-, hi, rfl⟩ := (accept_ok mnemonic f clean i j).1 h
  exact hi

/-- The decoder hands over well-formed commands only (30_encoding.md R88). -/
theorem wellFormed_of_decode {p : Packet} {i : Instr} (h : decode p = .ok i) : i.wellFormed = true := by
  rw [decode] at h
  obtain ⟨-, hf⟩ | ⟨-, hf⟩ | ⟨-, hf⟩ | ⟨-, hf⟩ | ⟨-, hf⟩ | ⟨-, hf⟩ | ⟨-, hf⟩ | ⟨-, hf⟩ | ⟨-, hf⟩ | ⟨-, hf⟩ |
    ⟨-, hf⟩ | ⟨-, hf⟩ | ⟨-, hf⟩ | ⟨-, hf⟩ := decodeFields_cases (fieldsOf p)
  any_goals exact wellFormed_of_accept (hf.symm.trans h)
  cases hf.symm.trans h

theorem samplesWritten_le_sampbufCap (P : Params T) (hmin : 4 ≤ P.nscMax) (i : Instr) (e : EngineState)
    (he : ∀ c, Ctx.InvFor P (e.ctx c)) (hu : ∀ c, usedContext i = some c → (e.ctx c).valid = true) :
    samplesWritten i e ≤ P.sampbufCap := by
  have within := fun c hc => lengths_within_capacities P (e.ctx c) (he c) (hu c hc)
  cases i with
  | map =>
    simp only [samplesWritten, Params.sampbufCap]
    omega
  | modulate c | cpadd c => exact (within c rfl).2.1
  | b2f c | xfwd c | xinv c | cpstrip c => exact (within c rfl).2.2
  | construct | getsymlen | getcap | demodulate | demap | f2b => exact Nat.zero_le _

theorem bitsWritten_le_bitbufCap (P : Params T) (hmin : 4 ≤ P.nscMax) (i : Instr) (e : EngineState)
    (hi : i.wellFormed = true) (he : ∀ c, Ctx.InvFor P (e.ctx c))
    (hu : ∀ c, usedContext i = some c → (e.ctx c).valid = true) : bitsWritten i e ≤ P.bitbufCap := by
  cases i with
  | demap order =>
    have horder : order.toNat ≤ 8 := toNat_le_eight_of_legalOrder hi
    simp only [bitsWritten, Params.bitbufCap]
    omega
  | demodulate c | f2b c => exact (lengths_within_capacities P (e.ctx c) (he c) (hu c rfl)).1
  | construct | getsymlen | getcap | modulate | map | b2f | xfwd | xinv | cpadd | cpstrip => exact Nat.zero_le _

/-! ### The invariant and the updates of the state

The invariant reads the engine, the buffers and the records, not the ports or the host's moves, so that
`respond`, `raiseError`, `takeCommand` and `hostIssue` keep it by definition. -/

theorem forall_ctx_iff (p : Ctx → Prop) (e : EngineState) : (∀ c, p (e.ctx c)) ↔ p e.ctx0 ∧ p e.ctx1 := by
  refine ⟨fun h => ⟨h 0, h 1⟩, fun ⟨h0, h1⟩ c => ?_⟩
  unfold EngineState.ctx
  split
  · exact h0
  · exact h1

theorem State.invFor_iff (P : Params T) (s : State) : State.InvFor P s ↔
    (∀ c, Ctx.InvFor P (s.engine.ctx c)) ∧ s.mem.wfFor P = true ∧ s.soLen ≤ P.sampbufCap ∧
      s.boLen ≤ P.bitbufCap := by
  rw [forall_ctx_iff (Ctx.InvFor P), and_assoc]

variable {P : Params T} {s : State} (hs : State.InvFor P s)
include hs

theorem invFor_setCtx (c : BitVec 1) {k : Ctx} (hk : Ctx.InvFor P k) : State.InvFor P (setCtx c k s) := by
  rw [State.invFor_iff] at hs ⊢
  refine ⟨fun d => ?_, hs.2⟩
  rw [setCtx_engine]
  by_cases hd : d = c
  · rw [hd, ctx_setCtx_same]
    exact hk
  · rw [ctx_setCtx_other _ _ _ _ hd]
    exact hs.1 d

theorem invFor_writeSO {vs : List Sample} (h : vs.length ≤ P.sampbufCap) : State.InvFor P (writeSO vs s) := by
  obtain ⟨h0, h1, hmem, -, hbo⟩ := hs
  exact ⟨h0, h1, Memory.wfFor_writeSamples P s.mem .so 0 vs (by omega) hmem, h, hbo⟩

theorem invFor_writeBO {vs : List Bool} (h : vs.length ≤ P.bitbufCap) : State.InvFor P (writeBO vs s) := by
  obtain ⟨h0, h1, hmem, hso, -⟩ := hs
  exact ⟨h0, h1, Memory.wfFor_writeBits P s.mem .bo 0 vs (by omega) hmem, hso, h⟩

theorem invFor_hostReset : State.InvFor P (hostReset s) := by
  obtain ⟨-, -, hmem⟩ := hs
  exact ⟨nofun, nofun, hmem⟩

theorem invFor_mem {m : Memory} (hm : m.wfFor P = true) : State.InvFor P { s with mem := m } := by
  obtain ⟨h0, h1, -, hlen⟩ := hs
  exact ⟨h0, h1, hm, hlen⟩

end

/-! ### What a step can do -/

section
variable {P : Params F64} {s t : State}

theorem hostBits_next {space : BitSpace} {start : Nat} {vs : List Bool} (h : hostBits P space start vs s = .next t) :
    start + vs.length ≤ P.bitbufCap ∧ t = { s with mem := s.mem.writeBits space start vs } := by
  obtain ⟨hcap, heq⟩ | ⟨-, heq⟩ := hostBits_cases P space start vs s <;> cases heq.symm.trans h
  exact ⟨hcap, rfl⟩

theorem hostSamples_next {space : SampleSpace} {start : Nat} {vs : List Sample}
    (h : hostSamples P space start vs s = .next t) :
    start + vs.length ≤ P.sampbufCap ∧ t = { s with mem := s.mem.writeSamples space start vs } := by
  obtain ⟨hcap, heq⟩ | ⟨-, heq⟩ := hostSamples_cases P space start vs s <;> cases heq.symm.trans h
  exact ⟨hcap, rfl⟩

/-- What a move of the host can do: issue a packet, reset the engine, or write one space within its
capacity. -/
theorem hostMove_cases {m : HostMove} (h : hostMove P m s = .next t) :
    (∃ p, m = .issue p ∧ t = hostIssue p s) ∨ (m = .reset ∧ t = hostReset s) ∨
      (∃ space start vs, start + vs.length ≤ P.bitbufCap ∧ t = { s with mem := s.mem.writeBits space start vs }) ∨
      ∃ space start vs, start + vs.length ≤ P.sampbufCap ∧
        t = { s with mem := s.mem.writeSamples space start vs } := by
  cases m with
  | issue p =>
    cases h
    exact .inl ⟨p, rfl, rfl⟩
  | reset =>
    cases h
    exact .inr (.inl ⟨rfl, rfl⟩)
  | bits | fillBits | loopBits => exact .inr (.inr (.inl ⟨_, _, _, hostBits_next h⟩))
  | samples | fillSamples | channelIdeal | channelGain => exact .inr (.inr (.inr ⟨_, _, _, hostSamples_next h⟩))

theorem hostTurn_cons {m : HostMove} {rest : List HostMove} (h : s.host = m :: rest) :
    hostTurn P s = hostMove P m { s with host := rest } := by
  simp [hostTurn, h]

/-- What a step can do: answer an illegal packet, run the command of a legal one, nothing, or one move of the
host. -/
theorem stepWith_cases (h : stepWith P s = .next t) :
    t = raiseError .illegalCommand (takeCommand s) ∨
      (∃ p i, s.cmd = some p ∧ decode p = .ok i ∧ execWith P i (takeCommand s) = .next t) ∨ t = s ∨
      ∃ m rest, s.cmd = none ∧ s.host = m :: rest ∧ hostMove P m { s with host := rest } = .next t := by
  obtain hcmd | ⟨p, hcmd⟩ := s.cmd.eq_none_or_eq_some
  · rw [stepWith_host P s hcmd] at h
    cases hhost : s.host with
    | nil =>
      rw [hostTurn, hhost] at h
      cases h
      exact .inr (.inr (.inl rfl))
    | cons m rest =>
      rw [hostTurn_cons hhost] at h
      exact .inr (.inr (.inr ⟨m, rest, hcmd, rfl, h⟩))
  · rw [stepWith_cmd P s p hcmd] at h
    cases hp : decode p with
    | error e =>
      rw [runPacket_error _ p e _ hp] at h
      cases h
      exact .inl rfl
    | ok i =>
      rw [runPacket_ok _ p i _ hp] at h
      exact .inr (.inl ⟨p, i, hcmd, hp, h⟩)

/-! ### The invariant along a step -/

theorem execWith_keeps_invFor (hmin : 4 ≤ P.nscMax) (hmax : P.nscMax ≤ 2 ^ 28) {i : Instr}
    (hi : i.wellFormed = true) (hs : State.InvFor P s) (h : execWith P i s = .next t) : State.InvFor P t := by
  have hctx := ((State.invFor_iff P s).1 hs).1
  obtain ⟨t', ht', hcases⟩ := execWith_cases P i s
  obtain rfl : t' = t := Host.Outcome.next.inj (ht'.symm.trans h)
  obtain ⟨e, rfl⟩ | ⟨v, rfl⟩ | ⟨v, vs, hused, hlen, -, rfl⟩ | ⟨v, vs, hused, hlen, -, rfl⟩ |
    ⟨c, x, o, n, l, p, k, -, horder, hk, rfl⟩ := hcases
  · exact hs
  · exact hs
  · exact invFor_writeSO hs ((hlen hctx).trans_le (samplesWritten_le_sampbufCap P hmin i _ hctx hused))
  · exact invFor_writeBO hs ((hlen hctx).trans_le (bitsWritten_le_bitbufCap P hmin i _ hi hctx hused))
  · exact invFor_setCtx hs c (buildCtx_invFor P hmax horder hk)

theorem hostMove_keeps_invFor {m : HostMove} (hs : State.InvFor P s) (h : hostMove P m s = .next t) :
    State.InvFor P t := by
  have ⟨_, _, hmem, _⟩ := hs
  obtain ⟨p, -, rfl⟩ | ⟨-, rfl⟩ | ⟨space, start, vs, hcap, rfl⟩ | ⟨space, start, vs, hcap, rfl⟩ := hostMove_cases h
  · exact hs
  · exact invFor_hostReset hs
  · exact invFor_mem hs (Memory.wfFor_writeBits P s.mem space start vs hcap hmem)
  · exact invFor_mem hs (Memory.wfFor_writeSamples P s.mem space start vs hcap hmem)

theorem stepWith_keeps_invFor (hmin : 4 ≤ P.nscMax) (hmax : P.nscMax ≤ 2 ^ 28) (hs : State.InvFor P s)
    (h : stepWith P s = .next t) : State.InvFor P t := by
  obtain rfl | ⟨p, i, -, hp, hexec⟩ | rfl | ⟨m, rest, -, -, hmove⟩ := stepWith_cases h
  · exact hs
  · exact execWith_keeps_invFor (s := takeCommand s) hmin hmax (wellFormed_of_decode hp) hs hexec
  · exact hs
  · exact hostMove_keeps_invFor (s := { s with host := rest }) hs hmove

end

/-- Settles O13: a step runs a well-formed command, which writes what its context declares or a context that
CONSTRUCT has checked, or makes one move of the host, which writes within the capacities. -/
theorem stepKeepsInvariant : Obligations.StepKeepsInvariant := by
  refine ⟨fun s t hs h => ?_, fun P s t hmin hmax hs h => stepWith_keeps_invFor hmin hmax hs h⟩
  rw [step_eq_stepWith] at h
  exact stepWith_keeps_invFor (by decide) (by decide) hs h

/-! ### The engine state along a step, and reset -/

section
variable {P : Params F64} {s t : State}

/-- A command leaves the engine state alone, or is a CONSTRUCT that passes the checks. -/
theorem execWith_engine {i : Instr} (h : execWith P i s = .next t) :
    t.engine = s.engine ∨ ∃ c x o n l p k, i = .construct c x o n l p ∧ buildCtx P x o n l p = .ok k ∧
      t.engine = s.engine.setCtx c k := by
  obtain ⟨t', ht', hcases⟩ := execWith_cases P i s
  obtain rfl : t' = t := Host.Outcome.next.inj (ht'.symm.trans h)
  obtain ⟨e, rfl⟩ | ⟨v, rfl⟩ | ⟨v, vs, -, -, -, rfl⟩ | ⟨v, vs, -, -, -, rfl⟩ |
    ⟨c, x, o, n, l, p, k, hi, -, hk, rfl⟩ := hcases
  · exact .inl rfl
  · exact .inl rfl
  · exact .inl rfl
  · exact .inl rfl
  · exact .inr ⟨c, x, o, n, l, p, k, hi, hk, rfl⟩

/-- A move of the host leaves the engine state alone, or is a reset. -/
theorem hostMove_engine {m : HostMove} (h : hostMove P m s = .next t) :
    t.engine = s.engine ∨ m = .reset ∧ t.engine = State.reset.engine := by
  obtain ⟨p, -, rfl⟩ | ⟨hm, rfl⟩ | ⟨space, start, vs, -, rfl⟩ | ⟨space, start, vs, -, rfl⟩ := hostMove_cases h
  · exact .inl rfl
  · exact .inr ⟨hm, rfl⟩
  · exact .inl rfl
  · exact .inl rfl

end

/-- Settles O14: of what a step can do, a reset and a CONSTRUCT alone write contexts. -/
theorem contextsChangeOnlyByConstruct : Obligations.ContextsChangeOnlyByConstruct := by
  intro s t h
  rw [step_eq_stepWith] at h
  obtain rfl | ⟨p, i, hcmd, hp, hexec⟩ | rfl | ⟨m, rest, hcmd, hhost, hmove⟩ := stepWith_cases h
  · exact .inl rfl
  · obtain hengine | ⟨c, x, o, n, l, e, k, rfl, hk, hengine⟩ := execWith_engine hexec
    · exact .inl hengine
    · rw [takeCommand_engine] at hengine
      refine .inr (.inr ⟨p, c, x, o, n, l, e, k, hcmd, hp, hk, ?_, fun c' hc' => ?_⟩)
      · rw [hengine, ctx_setCtx_same]
      · rw [hengine, ctx_setCtx_other _ _ _ _ hc']
  · exact .inl rfl
  · obtain hengine | ⟨rfl, hengine⟩ := hostMove_engine hmove
    · exact .inl hengine
    · exact .inr (.inl ⟨hcmd, ⟨rest, hhost⟩, hengine⟩)

theorem reset_ctx_invalid (c : BitVec 1) : (State.reset.engine.ctx c).valid = false :=
  (forall_ctx_iff (fun k => k.valid = false) State.reset.engine).2 ⟨rfl, rfl⟩ c

/-- Settles O11: the host's reset gives the engine of `State.reset`, whose two contexts have `VALID` = 0. -/
theorem resetLeavesUnconfigured : Obligations.ResetLeavesUnconfigured := by
  refine ⟨reset_ctx_invalid, rfl, rfl, fun s rest hcmd hhost => ?_⟩
  refine ⟨hostReset { s with host := rest }, ?_, reset_ctx_invalid, rfl, rfl, rfl⟩
  rw [step_host s hcmd, hostTurn_cons hhost, hostMove]

/-- Settles O12: no context of reset is constructed, and its buffers are empty. -/
theorem invariantAtReset : Obligations.InvariantAtReset :=
  ⟨nofun, nofun, reset_memory_wf, Nat.zero_le _, Nat.zero_le _⟩

end Sys2Proof.Machine

namespace Sys2Proof.Machine

/-! ### A step runs the command at the port -/

theorem decode_of_decodeTableWord {nbits w : Nat} {i : Instr} (h : decodeTableWord nbits w = some i) :
    decode (packetOfTableWord nbits w) = .ok i := by
  unfold decodeTableWord at h
  split at h
  · rename_i hi
    rwa [Option.some.inj h] at hi
  · cases h

theorem step_of_decode {s : State} {p : Packet} {i : Instr} (hcmd : s.cmd = some p) (hp : decode p = .ok i) :
    step s = exec i (takeCommand s) := by
  rw [step_cmd s p hcmd, runPacket_ok exec p i _ hp]

/-- Settles O7: a step takes the packet from the port and runs what it decodes to; `exec` and `step` are
`execWith` and `stepWith` at the default parameters. -/
theorem stepRunsDecodedCommand : Obligations.StepRunsDecodedCommand := by
  refine ⟨fun s p i hcmd hp => ⟨step_of_decode hcmd hp, wellFormed_of_decode hp⟩, fun s nbits w i hw => ?_,
    step_eq_stepWith, exec_eq_execWith, fun P s p i hcmd hp => ?_⟩
  · exact step_of_decode (withFetchWord_cmd s nbits w) (decode_of_decodeTableWord hw)
  · rw [stepWith_cmd P s p hcmd, runPacket_ok _ p i _ hp]
    rfl

/-! ### The elements of the buffers after a write -/

section
variable (m : Memory)

/-- Each bit after a write of bits: the one written, or the one before (20_memory.md R54). -/
theorem bit_writeBits (space sp : BitSpace) (start : Nat) (vs : List Bool) (j : Nat) :
    (m.writeBits space start vs).bit sp j =
      if sp = space ∧ start ≤ j ∧ j < start + vs.length then vs.getD (j - start) blankBit else m.bit sp j := by
  cases space <;> cases sp <;> simp [Memory.bit, readCell_writeRun]

/-- Each sample after a write of samples: the one written, or the one before (20_memory.md R54). -/
theorem sample_writeSamples (space sp : SampleSpace) (start : Nat) (vs : List Sample) (j : Nat) :
    (m.writeSamples space start vs).sample sp j =
      if sp = space ∧ start ≤ j ∧ j < start + vs.length then vs.getD (j - start) blankSample
      else m.sample sp j := by
  cases space <;> cases sp <;> simp [Memory.sample, readCell_writeRun]

@[simp] theorem sample_writeBits (space : BitSpace) (start : Nat) (vs : List Bool) (sp : SampleSpace) (j : Nat) :
    (m.writeBits space start vs).sample sp j = m.sample sp j := by
  cases space <;> cases sp <;> rfl

@[simp] theorem bit_writeSamples (space : SampleSpace) (start : Nat) (vs : List Sample) (sp : BitSpace) (j : Nat) :
    (m.writeSamples space start vs).bit sp j = m.bit sp j := by
  cases space <;> cases sp <;> rfl

theorem bit_writeBits_written (space : BitSpace) (start : Nat) (vs : List Bool) (j : Nat) :
    (m.writeBits space start vs).bit space (start + j) =
      if j < vs.length then vs.getD j blankBit else m.bit space (start + j) := by
  simp [bit_writeBits]

theorem sample_writeSamples_written (space : SampleSpace) (start : Nat) (vs : List Sample) (j : Nat) :
    (m.writeSamples space start vs).sample space (start + j) =
      if j < vs.length then vs.getD j blankSample else m.sample space (start + j) := by
  simp [sample_writeSamples]

theorem bit_writeBits_elsewhere {space sp : BitSpace} {start j : Nat} {vs : List Bool}
    (h : sp ≠ space ∨ j < start ∨ start + vs.length ≤ j) :
    (m.writeBits space start vs).bit sp j = m.bit sp j := by
  rw [bit_writeBits, if_neg]
  rintro ⟨hsp, hle, hlt⟩
  exact h.elim (absurd hsp) fun h => by omega

theorem sample_writeSamples_elsewhere {space sp : SampleSpace} {start j : Nat} {vs : List Sample}
    (h : sp ≠ space ∨ j < start ∨ start + vs.length ≤ j) :
    (m.writeSamples space start vs).sample sp j = m.sample sp j := by
  rw [sample_writeSamples, if_neg]
  rintro ⟨hsp, hle, hlt⟩
  exact h.elim (absurd hsp) fun h => by omega

theorem bit_fill (space : BitSpace) (n : Nat) (v : Bool) (j : Nat) :
    (m.writeBits space 0 (List.replicate n v)).bit space j = if j < n then v else m.bit space j := by
  have h := bit_writeBits_written m space 0 (List.replicate n v) j
  rw [Nat.zero_add, List.length_replicate] at h
  rw [h]
  exact ite_congr rfl (List.getD_replicate _) fun _ => rfl

theorem sample_fill (space : SampleSpace) (n : Nat) (v : Sample) (j : Nat) :
    (m.writeSamples space 0 (List.replicate n v)).sample space j = if j < n then v else m.sample space j := by
  have h := sample_writeSamples_written m space 0 (List.replicate n v) j
  rw [Nat.zero_add, List.length_replicate] at h
  rw [h]
  exact ite_congr rfl (List.getD_replicate _) fun _ => rfl

end

/-! ### The host's writes -/

theorem step_hostMove {s : State} {m : HostMove} {rest : List HostMove} (hcmd : s.cmd = none)
    (hhost : s.host = m :: rest) : step s = hostMove engineParams m { s with host := rest } :=
  (step_host s hcmd).trans (hostTurn_cons hhost)

section
variable {P : Params F64}

theorem hostBits_of_le {space : BitSpace} {start : Nat} {vs : List Bool} (s : State)
    (h : start + vs.length ≤ P.bitbufCap) :
    hostBits P space start vs s = .next { s with mem := s.mem.writeBits space start vs } := if_pos h

theorem hostBits_of_lt {space : BitSpace} {start : Nat} {vs : List Bool} (s : State)
    (h : P.bitbufCap < start + vs.length) :
    hostBits P space start vs s = .fault (.noSuchBit space (max start P.bitbufCap)) := if_neg h.not_ge

theorem hostSamples_of_le {space : SampleSpace} {start : Nat} {vs : List Sample} (s : State)
    (h : start + vs.length ≤ P.sampbufCap) :
    hostSamples P space start vs s = .next { s with mem := s.mem.writeSamples space start vs } := if_pos h

theorem hostSamples_of_lt {space : SampleSpace} {start : Nat} {vs : List Sample} (s : State)
    (h : P.sampbufCap < start + vs.length) :
    hostSamples P space start vs s = .fault (.noSuchSample space (max start P.sampbufCap)) := if_neg h.not_ge

end

/-- Settles O9: a move writes one run of one space when the run is within the capacity, and faults when it is not;
a fill is the run of equal elements from index 0. -/
theorem hostWritesLand : Obligations.HostWritesLand := by
  refine ⟨fun s rest space start vs hcmd hhost => ?_, fun s rest space start vs hcmd hhost => ?_,
    fun s rest space n v hcmd hhost => ?_, fun s rest space n v hcmd hhost => ?_⟩ <;>
    rw [step_hostMove hcmd hhost, hostMove]
  · refine ⟨fun hcap => ⟨_, hostBits_of_le _ hcap, bit_writeBits_written _ space start vs, ?_, ?_⟩,
      hostBits_of_lt _⟩
    · exact fun sp j h => bit_writeBits_elsewhere _ (h.imp_right .inl)
    · exact sample_writeBits _ space start vs
  · refine ⟨fun hcap => ⟨_, hostSamples_of_le _ hcap, sample_writeSamples_written _ space start vs, ?_, ?_⟩,
      hostSamples_of_lt _⟩
    · exact fun sp j h => sample_writeSamples_elsewhere _ (h.imp_right .inl)
    · exact bit_writeSamples _ space start vs
  · refine ⟨fun hcap => ⟨_, hostBits_of_le _ ?_, bit_fill _ space n v, ?_, ?_⟩, fun hcap => ?_⟩
    · simpa using hcap
    · exact fun sp j h => bit_writeBits_elsewhere _ (.inl h)
    · exact sample_writeBits _ space 0 _
    · rw [hostBits_of_lt _ (by simpa using hcap), Nat.zero_max]
  · refine ⟨fun hcap => ⟨_, hostSamples_of_le _ ?_, sample_fill _ space n v, ?_, ?_⟩, fun hcap => ?_⟩
    · simpa using hcap
    · exact fun sp j h => sample_writeSamples_elsewhere _ (.inl h)
    · exact bit_writeSamples _ space 0 _
    · rw [hostSamples_of_lt _ (by simpa using hcap), Nat.zero_max]

/-! ### What the commands that write SO or BO leave unchanged -/

/-- What a response after a write to `SO` reads (00_scope.md R16, `MemWrite`). -/
theorem sample_respond_writeSO (v : Word) (vs : List Sample) (s : State) {j : Nat} (hj : j < vs.length) :
    (respond v (writeSO vs s)).mem.sample .so j = vs[j] := by
  have h := sample_writeSamples_written s.mem .so 0 vs j
  rwa [Nat.zero_add, if_pos hj, List.getD_eq_getElem _ _ hj] at h

theorem bit_respond_writeBO (v : Word) (vs : List Bool) (s : State) {j : Nat} (hj : j < vs.length) :
    (respond v (writeBO vs s)).mem.bit .bo j = vs[j] := by
  have h := bit_writeBits_written s.mem .bo 0 vs j
  rwa [Nat.zero_add, if_pos hj, List.getD_eq_getElem _ _ hj] at h

/-- A command that reaches `SO` changes the response, the record of `SO` and the elements of `SO` that it writes. -/
theorem exec_frame_of_writesSO {i : Instr} {s t : State} (hctx : ∀ c, Ctx.Inv (s.engine.ctx c))
    (hi : writesSO i = true) (h : exec i s = .next t) :
    t.engine = s.engine ∧ t.cmd = s.cmd ∧ t.host = s.host ∧ t.boLen = s.boLen ∧
      (∀ sp j, t.mem.bit sp j = s.mem.bit sp j) ∧ (∀ j, t.mem.sample .si j = s.mem.sample .si j) ∧
      ∀ j, samplesWritten i s.engine ≤ j → t.mem.sample .so j = s.mem.sample .so j := by
  obtain ⟨t', ht', hcases⟩ := exec_cases i s
  obtain rfl : t' = t := Host.Outcome.next.inj (ht'.symm.trans h)
  obtain ⟨e, rfl⟩ | ⟨v, rfl⟩ | ⟨v, vs, -, hlen, -, rfl⟩ | ⟨v, vs, -, -, hbo, rfl⟩ |
    ⟨c, x, o, n, l, p, k, rfl, -, -, rfl⟩ := hcases
  · exact ⟨rfl, rfl, rfl, rfl, fun _ _ => rfl, fun _ => rfl, fun _ _ => rfl⟩
  · exact ⟨rfl, rfl, rfl, rfl, fun _ _ => rfl, fun _ => rfl, fun _ _ => rfl⟩
  · refine ⟨rfl, rfl, rfl, rfl, bit_writeSamples s.mem .so 0 vs, fun j => ?_, fun j hj => ?_⟩
    · rw [respond_mem, writeSO_mem]
      exact sample_writeSamples_elsewhere s.mem (.inl nofun)
    · rw [respond_mem, writeSO_mem]
      exact sample_writeSamples_elsewhere s.mem (.inr (.inr (by rwa [Nat.zero_add, hlen hctx])))
  · cases i <;> cases hi <;> cases hbo
  · cases hi

/-- A command that reaches `BO` changes the response, the record of `BO` and the elements of `BO` that it writes. -/
theorem exec_frame_of_writesBO {i : Instr} {s t : State} (hctx : ∀ c, Ctx.Inv (s.engine.ctx c))
    (hi : writesBO i = true) (h : exec i s = .next t) :
    t.engine = s.engine ∧ t.cmd = s.cmd ∧ t.host = s.host ∧ t.soLen = s.soLen ∧
      (∀ sp j, t.mem.sample sp j = s.mem.sample sp j) ∧ (∀ j, t.mem.bit .bi j = s.mem.bit .bi j) ∧
      ∀ j, bitsWritten i s.engine ≤ j → t.mem.bit .bo j = s.mem.bit .bo j := by
  obtain ⟨t', ht', hcases⟩ := exec_cases i s
  obtain rfl : t' = t := Host.Outcome.next.inj (ht'.symm.trans h)
  obtain ⟨e, rfl⟩ | ⟨v, rfl⟩ | ⟨v, vs, -, -, hso, rfl⟩ | ⟨v, vs, -, hlen, -, rfl⟩ |
    ⟨c, x, o, n, l, p, k, rfl, -, -, rfl⟩ := hcases
  · exact ⟨rfl, rfl, rfl, rfl, fun _ _ => rfl, fun _ => rfl, fun _ _ => rfl⟩
  · exact ⟨rfl, rfl, rfl, rfl, fun _ _ => rfl, fun _ => rfl, fun _ _ => rfl⟩
  · cases i <;> cases hi <;> cases hso
  · refine ⟨rfl, rfl, rfl, rfl, sample_writeBits s.mem .bo 0 vs, fun j => ?_, fun j hj => ?_⟩
    · rw [respond_mem, writeBO_mem]
      exact bit_writeBits_elsewhere s.mem (.inl nofun)
    · rw [respond_mem, writeBO_mem]
      exact bit_writeBits_elsewhere s.mem (.inr (.inr (by rwa [Nat.zero_add, hlen hctx])))
  · cases hi

/-- Settles O54: of what a command can end as, a command that reaches `SO` writes there as many samples as
20_memory.md R53 says, or no buffer at all. -/
theorem sampleWritersFrame : Obligations.SampleWritersFrame := by
  refine ⟨fun v vs s => ⟨rfl, rfl, fun j hj => ?_⟩, fun c order a b s t hctx i hi h => ?_⟩
  · rw [sample_respond_writeSO v vs s hj, List.getElem?_eq_getElem hj]
  · have hwrites : writesSO i = true := by
      revert i
      simp [writesSO]
    exact exec_frame_of_writesSO hctx hwrites h

/-- Settles O55: of what a command can end as, a command that reaches `BO` writes there as many bits as
20_memory.md R53 says, or no buffer at all. -/
theorem bitWritersFrame : Obligations.BitWritersFrame := by
  refine ⟨fun v vs s => ⟨rfl, rfl, fun j hj => ?_⟩, fun c order a s t hctx i hi h => ?_⟩
  · rw [bit_respond_writeBO v vs s hj, List.getElem?_eq_getElem hj]
  · have hwrites : writesBO i = true := by
      revert i
      simp [writesBO]
    exact exec_frame_of_writesBO hctx hwrites h

/-! ### The context of the greatest lengths -/

/-- 4096 subcarriers, `CPLEN` = N − 1, no pilots, 8 bits per symbol. -/
def widestCtx : Ctx where
  valid := true
  nsc := 4096
  cplen := 4095
  pevery := 0
  order := 8
  xsel := 0
  bps := 8
  symlen := 8191
  npilot := 0
  ndata := 4094
  capbits := 32752
  roles := computeRoles 4096 0

theorem buildCtx_widestCtx : buildCtx engineParams 0 8 4096 4095 0 = .ok widestCtx := by
  obtain ⟨hpilot, hdata⟩ := count_no_pilots 4094
  rw [buildCtx_ok, show (4096 : Word).toNat = 4094 + 2 from rfl, show (0 : Word).toNat = 0 from rfl, hpilot, hdata]
  exact ⟨by decide, by decide, by decide, by decide, rfl⟩

/-- Settles O58: the capacities are the bounds of `lengths_within_capacities`, which `widestCtx` meets. -/
theorem capacitiesSuffice : Obligations.CapacitiesSuffice :=
  ⟨lengths_within_capacities engineParams, widestCtx, buildCtx_invFor _ (by decide) rfl buildCtx_widestCtx,
    rfl, rfl, rfl⟩

/-! ### What a command reads -/

section
variable {T : Type}

theorem inputs_bits_congr {inp inp' : Inputs T} {n : Nat} (h : ∀ j, j < n → inp.bit j = inp'.bit j) :
    inp.bits n = inp'.bits n :=
  List.map_congr_left fun j hj => h j (List.mem_range.1 hj)

theorem inputs_samples_congr {inp inp' : Inputs T} {n : Nat} (h : ∀ j, j < n → inp.sample j = inp'.sample j) :
    inp.samples n = inp'.samples n :=
  List.map_congr_left fun j hj => h j (List.mem_range.1 hj)

/-- How many bits and how many samples a success writes; `none` for a failure. -/
def Effect.written : Effect T → Option (Nat × Nat)
  | .fail _ => none
  | .answer _ => some (0, 0)
  | .context _ _ => some (0, 0)
  | .bits _ vs => some (vs.length, 0)
  | .samples _ vs => some (0, vs.length)

/-- `f`, the effect of the command `i` in the engine state `e` by its input, depends on the input only through the
elements that `i` declares: either it is one failure whatever the input, or the declared lengths are within the
capacities, every input makes a success that writes as much as 20_memory.md R53 says, and inputs that agree on
the declared elements have the same effect (20_memory.md R52). -/
def ReadsDeclared (P : Params T) (i : Instr) (e : EngineState) (f : Inputs T → Effect T) : Prop :=
  (∃ err, ∀ inp, f inp = .fail err) ∨
    declaredBits i ≤ P.bitbufCap ∧ declaredSamples i ≤ P.sampbufCap ∧
      (∀ inp, (f inp).written = some (bitsWritten i e, samplesWritten i e)) ∧
      ∀ inp inp', (∀ j, j < declaredBits i → inp.bit j = inp'.bit j) →
        (∀ j, j < declaredSamples i → inp.sample j = inp'.sample j) → f inp = f inp'

variable {P : Params T} {i : Instr} {e : EngineState}

/-- A command that takes the first `n` bits of `BI`, the declared ones. -/
theorem readsDeclared_bits {f : Inputs T → Effect T} {n : Nat} (hcap : n ≤ P.bitbufCap)
    (hbits : declaredBits i = n) (hsamples : declaredSamples i = 0)
    (hout : ∀ inp, (f inp).written = some (bitsWritten i e, samplesWritten i e))
    (hf : ∀ inp inp', inp.bits n = inp'.bits n → f inp = f inp') : ReadsDeclared P i e f := by
  subst hbits
  exact .inr ⟨hcap, hsamples.trans_le (Nat.zero_le _), hout,
    fun inp inp' h _ => hf inp inp' (inputs_bits_congr h)⟩

/-- A command that takes the first `n` samples of `SI`, the declared ones. -/
theorem readsDeclared_samples {f : Inputs T → Effect T} {n : Nat} (hcap : n ≤ P.sampbufCap)
    (hsamples : declaredSamples i = n) (hbits : declaredBits i = 0)
    (hout : ∀ inp, (f inp).written = some (bitsWritten i e, samplesWritten i e))
    (hf : ∀ inp inp', inp.samples n = inp'.samples n → f inp = f inp') : ReadsDeclared P i e f := by
  subst hsamples
  exact .inr ⟨hbits.trans_le (Nat.zero_le _), hcap, hout,
    fun inp inp' _ h => hf inp inp' (inputs_samples_congr h)⟩

/-- A command that takes nothing. -/
theorem readsDeclared_nothing {f : Inputs T → Effect T} (out : Effect T) (hf : ∀ inp, f inp = out)
    (hbits : declaredBits i = 0) (hsamples : declaredSamples i = 0)
    (hout : (∃ err, out = .fail err) ∨ out.written = some (bitsWritten i e, samplesWritten i e)) :
    ReadsDeclared P i e f := by
  obtain ⟨err, rfl⟩ | hout := hout
  · exact .inl ⟨err, hf⟩
  · exact .inr ⟨hbits.trans_le (Nat.zero_le _), hsamples.trans_le (Nat.zero_le _), fun inp => hf inp ▸ hout,
      fun inp inp' _ _ => (hf inp).trans (hf inp').symm⟩

/-- The checks on the context and the lengths come before anything is read (60_exceptions.md R237). -/
theorem readsDeclared_of_checks {f : Inputs T → Effect T} (c : BitVec 1) (ok : Ctx → Bool)
    (body : Inputs T → Ctx → Effect T)
    (hf : ∀ inp, f inp = withContext c e fun k => withLength (ok k) (body inp k))
    (h : (e.ctx c).valid = true → ok (e.ctx c) = true → ReadsDeclared P i e fun inp => body inp (e.ctx c)) :
    ReadsDeclared P i e f := by
  obtain rfl := funext hf
  cases hv : (e.ctx c).valid with
  | false => exact .inl ⟨_, fun inp => withContext_invalid c e _ hv⟩
  | true =>
    cases hok : ok (e.ctx c) with
    | false => exact .inl ⟨_, fun inp => checks_length c e ok (body inp) hok hv⟩
    | true =>
      simp only [checks_pass c e ok (body _) hok hv]
      exact h hv hok

/-- MODULATE of `CAPBITS` bits succeeds, as building the frequency vector does. -/
theorem modulateSymbol_ok (P : Params T) (k : Ctx) (b : List Bool) (hb : b.length = k.capbits.toNat)
    (hk : k.capbits.toNat = k.roles.count .data * k.bits) : ∃ y, modulateSymbol P k b = .ok y := by
  obtain ⟨V, hV⟩ := bitsToFreq_ok P k b hb hk
  rw [modulateSymbol, hV]
  exact ⟨_, rfl⟩

theorem withContext_answer_cases (c : BitVec 1) (e : EngineState) (value : Ctx → Word) :
    (∃ err, withContext (T := T) c e (fun k => .answer (value k)) = .fail err) ∨
      (withContext (T := T) c e fun k => .answer (value k)).written = some (0, 0) := by
  obtain ⟨-, hk⟩ | ⟨-, hk⟩ := withContext_cases (T := T) c e fun k => .answer (value k)
  · exact .inr (by rw [hk]; rfl)
  · exact .inl ⟨_, hk⟩

theorem constructCmd_cases (P : Params T) (c x : BitVec 1) (order : BitVec 8) (n l p : Word) :
    (∃ err, constructCmd P c x order n l p = .fail err) ∨
      ∃ k, constructCmd P c x order n l p = .context c k := by
  unfold constructCmd
  split
  · exact .inl ⟨_, rfl⟩
  · cases buildCtx P x order n l p with
    | error err => exact .inl ⟨err, rfl⟩
    | ok k => exact .inr ⟨k, rfl⟩

theorem mapCmd_readsDeclared (hmin : 4 ≤ P.nscMax) (order : BitVec 8) (a : Word) :
    ReadsDeclared P (.map order a) e (mapCmd P order a) := by
  cases ho : legalOrder order with
  | false => exact .inl ⟨.illegalCommand, fun inp => by simp [mapCmd, ho]⟩
  | true =>
    have hle := toNat_le_eight_of_legalOrder ho
    have hcap : order.toNat ≤ P.bitbufCap := by
      simp only [Params.bitbufCap]
      omega
    by_cases ha : a.toNat = order.toNat
    · refine readsDeclared_bits hcap ha rfl (fun inp => ?_) fun inp inp' h => ?_
      · obtain ⟨-, hz⟩ | ⟨hlen, -⟩ := mapGroup_cases P order.toNat (inp.bits order.toNat)
        · simp [mapCmd, ho, ha, hz, Effect.written, bitsWritten, samplesWritten]
        · exact absurd (length_inputs_bits inp _) hlen
      · simp only [mapCmd, h]
    · exact .inl ⟨.invalidBitGroupLength, fun inp => by simp [mapCmd, ho, ha]⟩

theorem demapCmd_readsDeclared (hmin : 4 ≤ P.nscMax) (order : BitVec 8) :
    ReadsDeclared P (.demap order) e (demapCmd P order) := by
  cases ho : legalOrder order with
  | false => exact .inl ⟨.illegalCommand, fun inp => by simp [demapCmd, ho]⟩
  | true =>
    have hcap : 1 ≤ P.sampbufCap := by
      simp only [Params.sampbufCap]
      omega
    refine readsDeclared_samples hcap rfl rfl (fun inp => ?_) fun inp inp' h => ?_
    · simp [demapCmd, ho, Effect.written, bitsWritten, samplesWritten]
    · have hsample : inp.sample 0 = inp'.sample 0 := (List.cons.inj h).1
      simp only [demapCmd, hsample]

theorem wrapperCmd_readsDeclared (he : ∀ c, Ctx.InvFor P (e.ctx c)) {dir : Dir} {c : BitVec 1} {a : Word}
    (hbits : declaredBits i = 0) (hsamples : declaredSamples i = a.toNat)
    (hout : (bitsWritten i e, samplesWritten i e) = (0, (e.ctx c).n)) :
    ReadsDeclared P i e (wrapperCmd P dir c a e) := by
  refine readsDeclared_of_checks c (fun k => a == k.nsc) _ (fun _ => rfl) fun hv hok => ?_
  obtain rfl := beq_iff_eq.1 hok
  have hcap := (lengths_within_capacities P _ (he c) hv).2.2
  refine readsDeclared_samples hcap hsamples hbits (fun inp => ?_) fun _ _ h => by rw [h]
  rw [hout, Effect.written, length_askProvider, length_inputs_samples]

/-- Every command reads its declared input elements and no other, and none when it fails (20_memory.md R52). -/
theorem engineStep_readsDeclared (P : Params T) (hmin : 4 ≤ P.nscMax) (i : Instr) (e : EngineState)
    (he : ∀ c, Ctx.InvFor P (e.ctx c)) : ReadsDeclared P i e (engineStep P i e) := by
  have within := fun c hv => lengths_within_capacities P (e.ctx c) (he c) hv
  have numbers := fun c hv => ctx_numbers P (e.ctx c) (he c) hv
  cases i with
  | construct c x o n l p =>
    refine readsDeclared_nothing (constructCmd P c x o n l p) (fun _ => rfl) rfl rfl ?_
    exact (constructCmd_cases P c x o n l p).imp_right fun ⟨k, hk⟩ => by rw [hk]; rfl
  | getsymlen c => exact readsDeclared_nothing _ (fun _ => rfl) rfl rfl (withContext_answer_cases c e Ctx.symlen)
  | getcap c => exact readsDeclared_nothing _ (fun _ => rfl) rfl rfl (withContext_answer_cases c e Ctx.capbits)
  | modulate c a b =>
    refine readsDeclared_of_checks (f := modulateCmd P c a b e) c (fun k => a == k.capbits && b == k.symlen) _
      (fun _ => rfl) fun hv hok => ?_
    simp only [Bool.and_eq_true, beq_iff_eq] at hok
    obtain ⟨rfl, rfl⟩ := hok
    refine readsDeclared_bits (within c hv).1 rfl rfl (fun inp => ?_) fun _ _ h => by rw [h]
    obtain ⟨y, hy⟩ := modulateSymbol_ok P _ _ (length_inputs_bits inp _) (numbers c hv).2.2.2
    rw [hy]
    simp [Effect.written, bitsWritten, samplesWritten, length_modulateSymbol_inv P _ (he c) hv _ y hy]
  | demodulate c a =>
    refine readsDeclared_of_checks (f := demodulateCmd P c a e) c (fun k => a == k.symlen) _ (fun _ => rfl)
      fun hv hok => ?_
    obtain rfl := beq_iff_eq.1 hok
    refine readsDeclared_samples (within c hv).2.1 rfl rfl (fun inp => ?_) fun _ _ h => by rw [h]
    simp [Effect.written, bitsWritten, samplesWritten, (numbers c hv).2.2.2]
  | map o a => exact mapCmd_readsDeclared hmin o a
  | demap o => exact demapCmd_readsDeclared hmin o
  | b2f c a =>
    refine readsDeclared_of_checks (f := b2fCmd P c a e) c (fun k => a == k.capbits) _ (fun _ => rfl)
      fun hv hok => ?_
    obtain rfl := beq_iff_eq.1 hok
    refine readsDeclared_bits (within c hv).1 rfl rfl (fun inp => ?_) fun _ _ h => by rw [h]
    obtain ⟨V, hV⟩ := bitsToFreq_ok P _ _ (length_inputs_bits inp _) (numbers c hv).2.2.2
    rw [hV]
    simp [Effect.written, bitsWritten, samplesWritten, length_bitsToFreq P _ _ V hV, (numbers c hv).1]
  | f2b c a =>
    refine readsDeclared_of_checks (f := f2bCmd P c a e) c (fun k => a == k.nsc) _ (fun _ => rfl)
      fun hv hok => ?_
    obtain rfl := beq_iff_eq.1 hok
    refine readsDeclared_samples (within c hv).2.2 rfl rfl (fun inp => ?_) fun _ _ h => by rw [h]
    simp [Effect.written, bitsWritten, samplesWritten, (numbers c hv).2.2.2]
  | xfwd c a => exact wrapperCmd_readsDeclared he rfl rfl rfl
  | xinv c a => exact wrapperCmd_readsDeclared he rfl rfl rfl
  | cpadd c a =>
    refine readsDeclared_of_checks (f := cpaddCmd c a e) c (fun k => a == k.nsc) _ (fun _ => rfl)
      fun hv hok => ?_
    obtain rfl := beq_iff_eq.1 hok
    refine readsDeclared_samples (within c hv).2.2 rfl rfl (fun inp => ?_) fun _ _ h => by rw [h]
    obtain ⟨-, hcp, hsym, -⟩ := numbers c hv
    simp [Effect.written, bitsWritten, samplesWritten, hcp.le, hsym]
  | cpstrip c a =>
    refine readsDeclared_of_checks (f := cpstripCmd c a e) c (fun k => a == k.symlen) _ (fun _ => rfl)
      fun hv hok => ?_
    obtain rfl := beq_iff_eq.1 hok
    obtain ⟨-, hcp, hsym, -⟩ := numbers c hv
    refine readsDeclared_samples (hsym ▸ (within c hv).2.1) hsym rfl (fun inp => ?_) fun _ _ h => by rw [h]
    simp [Effect.written, bitsWritten, samplesWritten]

end

/-! ### The effect of a command on two machines -/

theorem deliver_resp_eq (f : Effect F64) (s s' : State) : (deliver f s).resp = (deliver f s').resp := by
  cases f <;> rfl

theorem deliver_engine_eq (f : Effect F64) {s s' : State} (h : s.engine = s'.engine) :
    (deliver f s).engine = (deliver f s').engine := by
  cases f with
  | context c k => exact congrArg (·.setCtx c k) h
  | fail | answer | bits | samples => exact h

/-- An effect that is no failure answers STATUS 0 (30_encoding.md R83). -/
theorem deliver_resp_of_written {f : Effect F64} {n : Nat × Nat} (s : State) (hf : f.written = some n) :
    ∃ v, (deliver f s).resp = some ⟨0, v⟩ := by
  cases f with
  | fail e => cases hf
  | answer v | context | bits v | samples v => exact ⟨_, rfl⟩

/-- The samples that an effect writes are the same on every machine. -/
theorem deliver_sample_so_eq {f : Effect F64} {nb ns : Nat} (s s' : State) (hf : f.written = some (nb, ns)) {j : Nat}
    (hj : j < ns) : (deliver f s).mem.sample .so j = (deliver f s').mem.sample .so j := by
  cases f with
  | samples v vs =>
    obtain ⟨rfl, rfl⟩ := Prod.mk.inj (Option.some.inj hf)
    exact (sample_respond_writeSO v vs s hj).trans (sample_respond_writeSO v vs s' hj).symm
  | fail e => cases hf
  | answer | context | bits =>
    obtain ⟨-, rfl⟩ := Prod.mk.inj (Option.some.inj hf)
    cases hj

/-- The bits that an effect writes are the same on every machine. -/
theorem deliver_bit_bo_eq {f : Effect F64} {nb ns : Nat} (s s' : State) (hf : f.written = some (nb, ns)) {j : Nat}
    (hj : j < nb) : (deliver f s).mem.bit .bo j = (deliver f s').mem.bit .bo j := by
  cases f with
  | bits v vs =>
    obtain ⟨rfl, rfl⟩ := Prod.mk.inj (Option.some.inj hf)
    exact (bit_respond_writeBO v vs s hj).trans (bit_respond_writeBO v vs s' hj).symm
  | fail e => cases hf
  | answer | context | samples =>
    obtain ⟨rfl, -⟩ := Prod.mk.inj (Option.some.inj hf)
    cases hj

theorem exec_next {i : Instr} {s t : State} (h : exec i s = .next t) :
    t = deliver (engineStep engineParams i s.engine s.inputs) s := by
  rw [exec_eq_execWith] at h
  exact (Host.Outcome.next.inj h).symm

theorem errorCode_ne_zero (e : EngineError) : e.code ≠ 0 := by
  cases e <;> decide

/-- Settles O57: a command fails alike on every input, or succeeds on every input and depends on the declared
elements alone (`engineStep_readsDeclared`). -/
theorem readsOnlyDeclared : Obligations.ReadsOnlyDeclared := by
  intro i s s' t t' hctx _ hengine ht ht'
  obtain rfl := exec_next ht
  obtain rfl := exec_next ht'
  rw [← hengine]
  obtain ⟨err, hfail⟩ | ⟨hbits, hsamples, hwritten, hagree⟩ :=
    engineStep_readsDeclared engineParams (by decide) i s.engine hctx
  · rw [hfail, hfail]
    refine ⟨fun _ => rfl, fun _ _ => ⟨rfl, hengine, ?_⟩,
      fun _ => ⟨errorResponse err, rfl, errorCode_ne_zero err⟩⟩
    rintro ⟨v, hv⟩
    exact absurd (congrArg Response.status (Option.some.inj hv)) (errorCode_ne_zero err)
  · refine ⟨?_, fun hbit hsample => ?_, fun hcap => absurd hcap (by omega)⟩
    · rintro ⟨r, hr, hstatus⟩
      obtain ⟨v, hv⟩ := deliver_resp_of_written s (hwritten s.inputs)
      exact absurd (congrArg Response.status (Option.some.inj (hr.symm.trans hv))) hstatus
    · rw [← hagree s.inputs s'.inputs hbit hsample]
      exact ⟨deliver_resp_eq _ s s', deliver_engine_eq _ hengine, fun _ =>
        ⟨fun j => deliver_sample_so_eq s s' (hwritten _), fun j => deliver_bit_bo_eq s s' (hwritten _)⟩⟩

end Sys2Proof.Machine

namespace Sys2Proof

/-! ### The opcode map as data: opcode, format and command of each row -/

/-- The formats of 30_encoding.md R82, B and M by the length fields they have. -/
inductive PacketFormat where
  /-- K -/
  | k
  /-- Q -/
  | q
  /-- B with `LEN_IN` and `LEN_OUT` -/
  | b2
  /-- B with `LEN_IN` alone -/
  | b1
  /-- M with `LEN_IN` -/
  | m1
  /-- M without a length -/
  | m0

/-- The bits that must be 0 in a format are 0 (30_encoding.md R82, R88). -/
def PacketFormat.clean : PacketFormat → PacketFields → Bool
  | .k => cleanK
  | .q => cleanQ
  | .b2 => cleanB2
  | .b1 => cleanB1
  | .m1 => cleanM1
  | .m0 => cleanM0

/-- The mask of a format: `OPC` and every bit that must be 0 (30_encoding.md R82, R85). -/
def PacketFormat.mask : PacketFormat → PacketFields
  | .k => ⟨.allOnes 8, 0, .allOnes 6, 0, 0, .allOnes 8, 0, 0, 0⟩
  | .q => ⟨.allOnes 8, 0, .allOnes 6, .allOnes 1, .allOnes 8, .allOnes 8, .allOnes 32, .allOnes 32, .allOnes 32⟩
  | .b2 => ⟨.allOnes 8, 0, .allOnes 6, .allOnes 1, .allOnes 8, .allOnes 8, 0, 0, .allOnes 32⟩
  | .b1 => ⟨.allOnes 8, 0, .allOnes 6, .allOnes 1, .allOnes 8, .allOnes 8, 0, .allOnes 32, .allOnes 32⟩
  | .m1 => ⟨.allOnes 8, .allOnes 1, .allOnes 6, .allOnes 1, 0, .allOnes 8, 0, .allOnes 32, .allOnes 32⟩
  | .m0 => ⟨.allOnes 8, .allOnes 1, .allOnes 6, .allOnes 1, 0, .allOnes 8, .allOnes 32, .allOnes 32, .allOnes 32⟩

/-- A row of 30_encoding.md R85 with what the decoder reads from a packet that the row selects. -/
structure OpcodeEntry where
  mnemonic : String
  opc : BitVec 8
  format : PacketFormat
  /-- the command of the packet's fields -/
  command : PacketFields → Instr

/-- The mask and the pattern of a row (30_encoding.md R85). -/
def OpcodeEntry.row (e : OpcodeEntry) : OpcodeRow :=
  ⟨e.mnemonic, packetOf e.format.mask, packetOf ⟨e.opc, 0, 0, 0, 0, 0, 0, 0, 0⟩⟩

/-- The thirteen rows. -/
def opcodeEntries : List OpcodeEntry :=
  [⟨"CONSTRUCT", 0x01, .k, fun f => .construct f.ctx f.xsel f.order f.w1 f.w2 f.w3⟩,
   ⟨"GETSYMLEN", 0x02, .q, fun f => .getsymlen f.ctx⟩,
   ⟨"GETCAP", 0x03, .q, fun f => .getcap f.ctx⟩,
   ⟨"MODULATE", 0x04, .b2, fun f => .modulate f.ctx f.w1 f.w2⟩,
   ⟨"DEMODULATE", 0x05, .b1, fun f => .demodulate f.ctx f.w1⟩,
   ⟨"MAP", 0x10, .m1, fun f => .map f.order f.w1⟩,
   ⟨"DEMAP", 0x11, .m0, fun f => .demap f.order⟩,
   ⟨"B2F", 0x20, .b1, fun f => .b2f f.ctx f.w1⟩,
   ⟨"F2B", 0x21, .b1, fun f => .f2b f.ctx f.w1⟩,
   ⟨"XFWD", 0x28, .b1, fun f => .xfwd f.ctx f.w1⟩,
   ⟨"XINV", 0x29, .b1, fun f => .xinv f.ctx f.w1⟩,
   ⟨"CPADD", 0x30, .b1, fun f => .cpadd f.ctx f.w1⟩,
   ⟨"CPSTRIP", 0x31, .b1, fun f => .cpstrip f.ctx f.w1⟩]

theorem opcodeTable_eq_map_row : opcodeTable = opcodeEntries.map OpcodeEntry.row := by decide +kernel

theorem assignedOpcodes_eq_map_opc : Machine.assignedOpcodes = opcodeEntries.map OpcodeEntry.opc := rfl

theorem mem_assignedOpcodes {o : BitVec 8} : o ∈ Machine.assignedOpcodes ↔ ∃ e ∈ opcodeEntries, e.opc = o := by
  rw [assignedOpcodes_eq_map_opc, List.mem_map]

/-- `OPC` tells the rows apart. -/
theorem eq_of_opc_eq {e e' : OpcodeEntry} (he : e ∈ opcodeEntries) (he' : e' ∈ opcodeEntries)
    (h : e.opc = e'.opc) : e = e' :=
  List.inj_on_of_nodup_map (f := OpcodeEntry.opc) (by decide) he he' h

@[simp] theorem cleanK_iff (f : PacketFields) : cleanK f = true ↔ f.rsvHi = 0 ∧ f.rsvLo = 0 := by simp [cleanK]

@[simp] theorem cleanQ_iff (f : PacketFields) : cleanQ f = true ↔
    f.rsvHi = 0 ∧ f.xsel = 0 ∧ f.order = 0 ∧ f.rsvLo = 0 ∧ f.w1 = 0 ∧ f.w2 = 0 ∧ f.w3 = 0 := by
  simp [cleanQ, and_assoc]

@[simp] theorem cleanB2_iff (f : PacketFields) : cleanB2 f = true ↔
    f.rsvHi = 0 ∧ f.xsel = 0 ∧ f.order = 0 ∧ f.rsvLo = 0 ∧ f.w3 = 0 := by
  simp [cleanB2, and_assoc]

@[simp] theorem cleanB1_iff (f : PacketFields) : cleanB1 f = true ↔
    f.rsvHi = 0 ∧ f.xsel = 0 ∧ f.order = 0 ∧ f.rsvLo = 0 ∧ f.w2 = 0 ∧ f.w3 = 0 := by
  rw [cleanB1, Bool.and_eq_true, cleanB2_iff, beq_iff_eq]
  tauto

@[simp] theorem cleanM1_iff (f : PacketFields) : cleanM1 f = true ↔
    f.ctx = 0 ∧ f.rsvHi = 0 ∧ f.xsel = 0 ∧ f.rsvLo = 0 ∧ f.w2 = 0 ∧ f.w3 = 0 := by
  simp [cleanM1, and_assoc]

@[simp] theorem cleanM0_iff (f : PacketFields) : cleanM0 f = true ↔
    f.ctx = 0 ∧ f.rsvHi = 0 ∧ f.xsel = 0 ∧ f.rsvLo = 0 ∧ f.w1 = 0 ∧ f.w2 = 0 ∧ f.w3 = 0 := by
  rw [cleanM0, Bool.and_eq_true, cleanM1_iff, beq_iff_eq]
  tauto

theorem legalOrder_iff (o : BitVec 8) : legalOrder o = true ↔ o ∈ [2#8, 4#8, 6#8, 8#8] := by
  simp [legalOrder, or_assoc]

section
variable {e : OpcodeEntry} {f : PacketFields} (he : e ∈ opcodeEntries)
include he

theorem mnemonic_command : (e.command f).mnemonic = e.mnemonic := by
  fin_cases he <;> rfl

/-- The commands that use `ORDER` are those of the formats K and M (30_encoding.md R82). -/
theorem wellFormed_command_iff :
    (e.command f).wellFormed = true ↔ (e.opc ∈ [0x01#8, 0x10#8, 0x11#8] → f.order ∈ [2#8, 4#8, 6#8, 8#8]) := by
  fin_cases he <;> simp [Instr.wellFormed, legalOrder_iff]

variable (hf : f.opc = e.opc)
include hf

theorem decodeFields_eq_accept : decodeFields f = accept e.mnemonic f (e.format.clean f) (e.command f) := by
  obtain ⟨opc, ctx, rsvHi, xsel, order, rsvLo, w1, w2, w3⟩ := f
  obtain rfl : opc = e.opc := hf
  fin_cases he <;> rfl

/-- The command holds every field that its format does not require to be 0 (30_encoding.md R82). -/
theorem encodeFields_command (hclean : e.format.clean f = true) : encodeFields (e.command f) = f := by
  obtain ⟨opc, ctx, rsvHi, xsel, order, rsvLo, w1, w2, w3⟩ := f
  obtain rfl : opc = e.opc := hf
  fin_cases he <;> simp_all [PacketFormat.clean, encodeFields]

theorem illegalFields_iff_of_opc :
    Machine.IllegalFields f ↔ ¬(e.format.clean f = true ∧ (e.command f).wellFormed = true) := by
  fin_cases he <;>
    simp [Machine.IllegalFields, hf, PacketFormat.clean, Instr.wellFormed, legalOrder_iff, imp_iff_not_or, or_assoc]

end

/-- A row selects the packets of its opcode whose must-be-zero bits are 0. -/
theorem selects_row_iff (e : OpcodeEntry) (p : Packet) :
    e.row.selects p = true ↔ (fieldsOf p).opc = e.opc ∧ e.format.clean (fieldsOf p) = true := by
  rw [selects_iff_fields, OpcodeEntry.row, fieldsOf_packetOf, fieldsOf_packetOf]
  cases e.format <;> simp [PacketFormat.mask, PacketFormat.clean, -BitVec.reduceAllOnes]

/-! ### Decoding by the rows -/

theorem decodeFields_unassigned {f : PacketFields} (h : f.opc ∉ Machine.assignedOpcodes) :
    decodeFields f = .error (.unassignedOpcode f.opc) := by
  simp only [Machine.assignedOpcodes, BitVec.ofNat_eq_ofNat, List.mem_cons, List.not_mem_nil, or_false, not_or] at h
  simp [decodeFields, h]

/-- The packet of a command sets no bit that must be 0, and holds the command's operands. -/
theorem decodeFields_encodeFields (i : Instr) :
    decodeFields (encodeFields i) = accept i.mnemonic (encodeFields i) true i := by
  cases i <;> rfl

theorem row_mem_opcodeTable {e : OpcodeEntry} (he : e ∈ opcodeEntries) : e.row ∈ opcodeTable :=
  opcodeTable_eq_map_row ▸ List.mem_map_of_mem he

/-- A row that selects a packet is the one of the packet's opcode. -/
theorem exists_entry_of_selects {r : OpcodeRow} {p : Packet} (hr : r ∈ opcodeTable) (hp : r.selects p = true) :
    ∃ e ∈ opcodeEntries, e.row = r ∧ (fieldsOf p).opc = e.opc ∧ e.format.clean (fieldsOf p) = true := by
  rw [opcodeTable_eq_map_row, List.mem_map] at hr
  obtain ⟨e, he, rfl⟩ := hr
  exact ⟨e, he, rfl, (selects_row_iff e p).1 hp⟩

theorem exists_selects_iff {e : OpcodeEntry} {p : Packet} (he : e ∈ opcodeEntries) (hp : (fieldsOf p).opc = e.opc) :
    (∃ r ∈ opcodeTable, r.selects p = true) ↔ e.format.clean (fieldsOf p) = true := by
  constructor
  · rintro ⟨r, hr, hsel⟩
    obtain ⟨e', he', -, hp', hclean⟩ := exists_entry_of_selects hr hsel
    obtain rfl := eq_of_opc_eq he he' (hp.symm.trans hp')
    exact hclean
  · exact fun hclean => ⟨e.row, row_mem_opcodeTable he, (selects_row_iff e p).2 ⟨hp, hclean⟩⟩

section
variable {p : Packet}

theorem decode_eq_ok_iff {e : OpcodeEntry} (he : e ∈ opcodeEntries) (hp : (fieldsOf p).opc = e.opc) (i : Instr) :
    decode p = .ok i ↔ e.format.clean (fieldsOf p) = true ∧ (e.command (fieldsOf p)).wellFormed = true ∧
      e.command (fieldsOf p) = i := by
  rw [decode, decodeFields_eq_accept he hp, accept_ok]

theorem exists_decode_ok_iff {e : OpcodeEntry} (he : e ∈ opcodeEntries) (hp : (fieldsOf p).opc = e.opc) :
    (∃ i, decode p = .ok i) ↔
      e.format.clean (fieldsOf p) = true ∧ (e.command (fieldsOf p)).wellFormed = true := by
  simp [decode_eq_ok_iff he hp]

theorem decode_unassigned (h : (fieldsOf p).opc ∉ Machine.assignedOpcodes) :
    decode p = .error (.unassignedOpcode (fieldsOf p).opc) := decodeFields_unassigned h

theorem exists_entry_of_decode {i : Instr} (h : decode p = .ok i) :
    ∃ e ∈ opcodeEntries, (fieldsOf p).opc = e.opc := by
  by_cases hopc : (fieldsOf p).opc ∈ Machine.assignedOpcodes
  · obtain ⟨e, he, hp⟩ := mem_assignedOpcodes.1 hopc
    exact ⟨e, he, hp.symm⟩
  · cases (decode_unassigned hopc).symm.trans h

theorem exists_decode_error_iff_not_ok : (∃ e, decode p = .error e) ↔ ¬∃ i, decode p = .ok i := by
  cases decode p <;> simp

/-- A packet is refused when its opcode is unassigned (30_encoding.md R87) or its fields are illegal (R88). -/
theorem exists_decode_error_iff :
    (∃ e, decode p = .error e) ↔
      (fieldsOf p).opc ∉ Machine.assignedOpcodes ∨ Machine.IllegalFields (fieldsOf p) := by
  by_cases hopc : (fieldsOf p).opc ∈ Machine.assignedOpcodes
  · obtain ⟨e, he, hp⟩ := mem_assignedOpcodes.1 hopc
    rw [exists_decode_error_iff_not_ok, exists_decode_ok_iff he hp.symm, illegalFields_iff_of_opc he hp.symm]
    simp [hopc]
  · exact iff_of_true ⟨_, decode_unassigned hopc⟩ (.inl hopc)

end

theorem encode_of_decode {p : Packet} {i : Instr} (h : decode p = .ok i) : encode i = p := by
  obtain ⟨e, he, hp⟩ := exists_entry_of_decode h
  obtain ⟨hclean, -, rfl⟩ := (decode_eq_ok_iff he hp i).1 h
  rw [encode, encodeFields_command he hp hclean, packetOf_fieldsOf]

/-- Settles O2: the fields of the packet are those of the command, which the decoder accepts. -/
theorem decodeEncodeIdentity : Obligations.DecodeEncodeIdentity := by
  intro i hi
  rw [decode, encode, fieldsOf_packetOf, decodeFields_encodeFields, accept_ok]
  exact ⟨rfl, hi, rfl⟩

/-- Settles O3: the decoder accepts a packet when every bit that the command does not hold is 0. -/
theorem encodeDecodeIdentity : Obligations.EncodeDecodeIdentity :=
  fun _ _ h => ⟨encode_of_decode h, Machine.wellFormed_of_decode h⟩

theorem decode_of_encode_eq {i : Instr} {p : Packet} (hp : encode i = p) (hi : i.wellFormed = true) :
    decode p = .ok i := hp ▸ decodeEncodeIdentity i hi

/-- Settles O1: each packet is the packet of its command. -/
theorem decodesWorkedEncodings : Obligations.DecodesWorkedEncodings :=
  ⟨decode_of_encode_eq (by decide) rfl, decode_of_encode_eq (by decide) rfl, decode_of_encode_eq (by decide) rfl,
    decode_of_encode_eq (by decide) rfl, decode_of_encode_eq (by decide) rfl, decode_of_encode_eq (by decide) rfl,
    decode_of_encode_eq (by decide) rfl⟩

/-- Settles O4: `OPC` tells the rows apart, and the row of an assigned opcode selects a packet when the bits that
its format requires to be 0 are 0. -/
theorem opcodeTableDecides : Obligations.OpcodeTableDecides := by
  refine fun p => ⟨fun r hr q hq hrp hqp => ?_, ?_, fun i hi => ?_, exists_decode_error_iff⟩
  · obtain ⟨e, he, rfl, hopc, -⟩ := exists_entry_of_selects hr hrp
    obtain ⟨e', he', rfl, hopc', -⟩ := exists_entry_of_selects hq hqp
    rw [eq_of_opc_eq he he' (hopc.symm.trans hopc')]
  · by_cases hopc : (fieldsOf p).opc ∈ Machine.assignedOpcodes
    · obtain ⟨e, he, hp⟩ := mem_assignedOpcodes.1 hopc
      rw [exists_decode_ok_iff he hp.symm, exists_selects_iff he hp.symm, wellFormed_command_iff he, hp]
    · refine iff_of_false ?_ ?_
      · rintro ⟨i, hi⟩
        cases (decode_unassigned hopc).symm.trans hi
      · rintro ⟨⟨r, hr, hsel⟩, -⟩
        obtain ⟨e, he, -, hp, -⟩ := exists_entry_of_selects hr hsel
        exact hopc (mem_assignedOpcodes.2 ⟨e, he, hp.symm⟩)
  · obtain ⟨e, he, hp⟩ := exists_entry_of_decode hi
    obtain ⟨hclean, -, rfl⟩ := (decode_eq_ok_iff he hp i).1 hi
    exact ⟨e.row, row_mem_opcodeTable he, (mnemonic_command he).symm, (selects_row_iff e p).2 ⟨hp, hclean⟩⟩

namespace Machine

theorem step_of_decode_error {s : State} {p : Packet} {e : DecodeError} (hcmd : s.cmd = some p)
    (hp : decode p = .error e) : step s = .next { s with cmd := none, resp := some ⟨0x05, 0⟩ } := by
  rw [step_cmd s p hcmd, runPacket_error exec p e _ hp]
  rfl

/-- Settles O5: no row has the opcode, so that the decoder refuses the packet. -/
theorem unassignedOpcodesAnswered : Obligations.UnassignedOpcodesAnswered := by
  refine ⟨fun o => ?_, fun s p hcmd hopc => step_of_decode_error hcmd (decode_unassigned hopc)⟩
  simp only [assignedOpcodes, List.mem_cons, List.not_mem_nil, or_false, BitVec.toNat_eq, BitVec.ofNat_eq_ofNat,
    BitVec.toNat_ofNat]
  omega

/-- Settles O6: a packet of an assigned opcode has legal fields when the row of the opcode selects it and its order
is legal, which is when the decoder accepts it. -/
theorem illegalFieldsAnswered : Obligations.IllegalFieldsAnswered := by
  refine fun p => ⟨fun hopc => ?_, fun s hcmd hillegal => ?_⟩
  · obtain ⟨e, he, hp⟩ := mem_assignedOpcodes.1 hopc
    have hselects : (∀ r ∈ opcodeTable, r.selects p = false) ↔ ¬e.format.clean (fieldsOf p) = true := by
      rw [← exists_selects_iff he hp.symm]
      simp
    rw [illegalFields_iff_of_opc he hp.symm, wellFormed_command_iff he, hp, hselects, not_and_or, Classical.not_imp]
  · obtain ⟨err, herr⟩ := exists_decode_error_iff.2 (.inr hillegal)
    exact step_of_decode_error hcmd herr

/-! ### The host's copies -/

/-- What a run of values by index leaves, written from index 0 on. -/
theorem sample_writeSamples_range (m : Memory) (space : SampleSpace) (n : Nat) (g : Nat → Sample) (j : Nat) :
    (m.writeSamples space 0 ((List.range n).map g)).sample space j = if j < n then g j else m.sample space j := by
  have h := sample_writeSamples_written m space 0 ((List.range n).map g) j
  rw [Nat.zero_add, List.length_map, List.length_range] at h
  rw [h]
  refine ite_congr rfl (fun hj => ?_) fun _ => rfl
  simp [List.getD, hj]

theorem bit_writeBits_range (m : Memory) (space : BitSpace) (n : Nat) (g : Nat → Bool) (j : Nat) :
    (m.writeBits space 0 ((List.range n).map g)).bit space j = if j < n then g j else m.bit space j := by
  have h := bit_writeBits_written m space 0 ((List.range n).map g) j
  rw [Nat.zero_add, List.length_map, List.length_range] at h
  rw [h]
  refine ite_congr rfl (fun hj => ?_) fun _ => rfl
  simp [List.getD, hj]

theorem lastSymbol_eq_map (s : State) : lastSymbol s = (List.range s.soLen).map (s.mem.sample .so) := by
  simp [lastSymbol, readRun, Memory.sample]

theorem lastBits_eq_map (s : State) : lastBits s = (List.range s.boLen).map (s.mem.bit .bo) := by
  simp [lastBits, readRun, Memory.bit]

/-- A channel: the host writes a function of the recorded samples of `SO` to `SI` (30_encoding.md R91). -/
theorem hostSamples_channel (s : State) (g : Nat → Sample) (hcap : s.soLen ≤ engineParams.sampbufCap) :
    ∃ m, hostSamples engineParams .si 0 ((List.range s.soLen).map g) s = .next { s with mem := m } ∧
      (∀ i, m.sample .si i = if i < s.soLen then g i else s.mem.sample .si i) ∧
      (∀ i, m.sample .so i = s.mem.sample .so i) ∧ ∀ sp i, m.bit sp i = s.mem.bit sp i := by
  refine ⟨_, hostSamples_of_le s ?_, sample_writeSamples_range s.mem .si s.soLen g, fun i => ?_,
    bit_writeSamples s.mem .si 0 _⟩
  · simpa using hcap
  · exact sample_writeSamples_elsewhere s.mem (.inl nofun)

/-- Settles O10: each directive writes the recorded run, sample by sample or bit by bit, from index 0 on. -/
theorem channelCopies : Obligations.ChannelCopies := by
  refine fun s rest hcmd => ⟨fun hhost hcap => ?_, fun h hhost hcap => ?_, fun hhost hcap => ?_⟩ <;>
    rw [step_hostMove hcmd hhost, hostMove]
  · rw [lastSymbol_eq_map]
    exact hostSamples_channel { s with host := rest } (s.mem.sample .so) hcap
  · rw [lastSymbol_eq_map, List.map_map]
    exact hostSamples_channel { s with host := rest } (fun i => cmul numF64 h (s.mem.sample .so i)) hcap
  · rw [lastBits_eq_map]
    refine ⟨_, hostBits_of_le { s with host := rest } ?_, bit_writeBits_range s.mem .bi s.boLen _, fun i => ?_,
      sample_writeBits s.mem .bi 0 _⟩
    · simpa using hcap
    · exact bit_writeBits_elsewhere s.mem (.inl nofun)

/-! ### The response of a command -/

@[simp] theorem extractLsb'_status_bits (r : Response) : r.bits.extractLsb' 32 8 = r.status := by
  rw [Response.bits, BitVec.extractLsb'_append_eq_of_le (by decide)]
  simp

@[simp] theorem extractLsb'_value_bits (r : Response) : r.bits.extractLsb' 0 32 = r.value := by
  rw [Response.bits, BitVec.extractLsb'_append_eq_of_add_le (by decide)]
  simp

section
variable {T : Type}

/-- The `VALUE` of a success; `none` for a failure. -/
def Effect.value : Effect T → Option Word
  | .fail _ => none
  | .answer v => some v
  | .context _ _ => some 0
  | .bits v _ => some v
  | .samples v _ => some v

/-- An effect answers a failure with VALUE 0 and a success with its VALUE (30_encoding.md R83). -/
theorem exists_deliver_resp (f : Effect F64) (s : State) :
    ∃ r, (deliver f s).resp = some r ∧ (r.status ≠ 0 → r.value = 0) ∧ (r.status = 0 → f.value = some r.value) := by
  cases f with
  | fail e => exact ⟨errorResponse e, rfl, fun _ => rfl, fun h => absurd h (errorCode_ne_zero e)⟩
  | answer v | context c k | bits v vs | samples v vs =>
    exact ⟨okResponse _, rfl, fun h => absurd rfl h, fun _ => rfl⟩

theorem deliver_cmd (f : Effect F64) (s : State) : (deliver f s).cmd = s.cmd := by
  cases f <;> rfl

theorem value_withContext {c : BitVec 1} {e : EngineState} {body : Ctx → Effect T} {v : Word}
    (h : (withContext c e body).value = some v) : (e.ctx c).valid = true ∧ (body (e.ctx c)).value = some v := by
  obtain ⟨hv, hk⟩ | ⟨-, hk⟩ := withContext_cases c e body <;> rw [hk] at h
  · exact ⟨hv, h⟩
  · cases h

theorem value_withLength {ok : Bool} {body : Effect T} {v : Word} (h : (withLength ok body).value = some v) :
    body.value = some v := by
  obtain ⟨-, hk⟩ | ⟨-, hk⟩ := withLength_cases ok body <;> rw [hk] at h
  · exact h
  · cases h

/-- A success of a command that checks its context and its lengths has the `VALUE` of its body. -/
theorem value_checks {c : BitVec 1} {e : EngineState} {ok : Ctx → Bool} {body : Ctx → Effect T} {v : Word}
    (h : (withContext c e fun k => withLength (ok k) (body k)).value = some v) :
    (e.ctx c).valid = true ∧ (body (e.ctx c)).value = some v :=
  (value_withContext h).imp_right value_withLength

theorem constructCmd_value {P : Params T} {c x : BitVec 1} {o : BitVec 8} {n l p v : Word}
    (h : (constructCmd P c x o n l p).value = some v) : v = 0 := by
  obtain ⟨err, hk⟩ | ⟨k, hk⟩ := constructCmd_cases P c x o n l p <;> rw [hk] at h
  · cases h
  · exact (Option.some.inj h).symm

theorem mapCmd_value {P : Params T} {order : BitVec 8} {a v : Word} {inp : Inputs T}
    (h : (mapCmd P order a inp).value = some v) : v = 1 := by
  unfold mapCmd at h
  split at h
  · cases h
  split at h
  · cases h
  split at h
  · cases h
  · exact (Option.some.inj h).symm

theorem demapCmd_value {P : Params T} {order : BitVec 8} {v : Word} {inp : Inputs T}
    (h : (demapCmd P order inp).value = some v) : v = order.setWidth 32 := by
  unfold demapCmd at h
  split at h
  · cases h
  · exact (Option.some.inj h).symm

/-- The `VALUE` of a success is the one that 30_encoding.md R83 lists. -/
theorem engineStep_value {P : Params T} {i : Instr} {e : EngineState} {inp : Inputs T} {v : Word}
    (he : ∀ c, Ctx.InvFor P (e.ctx c)) (h : (engineStep P i e inp).value = some v) :
    v.toNat = successValue i e := by
  cases i with
  | construct c x o n l p => exact congrArg BitVec.toNat (constructCmd_value h)
  | map o a => exact congrArg BitVec.toNat (mapCmd_value h)
  | demap o =>
    rw [demapCmd_value h, BitVec.toNat_setWidth_of_le (by decide), successValue]
  | getsymlen c | getcap c =>
    dsimp only [engineStep, getsymlenCmd, getcapCmd] at h
    exact congrArg BitVec.toNat (Option.some.inj (value_withContext h).2).symm
  | modulate c | b2f c =>
    dsimp only [engineStep, modulateCmd, b2fCmd] at h
    obtain ⟨-, hv⟩ := value_checks h
    split at hv
    · cases hv
    · exact congrArg BitVec.toNat (Option.some.inj hv).symm
  | demodulate c | f2b c | xfwd c | xinv c | cpstrip c =>
    dsimp only [engineStep, demodulateCmd, f2bCmd, wrapperCmd, cpstripCmd] at h
    exact congrArg BitVec.toNat (Option.some.inj (value_checks h).2).symm
  | cpadd c =>
    dsimp only [engineStep, cpaddCmd] at h
    obtain ⟨hvalid, hv⟩ := value_checks h
    obtain ⟨-, -, hsym, -⟩ := ctx_numbers P _ (he c) hvalid
    have hlt := (e.ctx c).symlen.isLt
    rw [← Option.some.inj hv, BitVec.toNat_add, successValue, hsym]
    exact Nat.mod_eq_of_lt (by rwa [hsym] at hlt)

end

/-- Every packet is answered in the step that takes it (20_memory.md R61, R64). -/
theorem exists_step_resp {s : State} {p : Packet} (hcmd : s.cmd = some p) :
    ∃ t r, step s = .next t ∧ t.cmd = none ∧ t.resp = some r := by
  cases hp : decode p with
  | error e => exact ⟨_, _, step_of_decode_error hcmd hp, rfl, rfl⟩
  | ok i =>
    obtain ⟨r, hr, -⟩ := exists_deliver_resp (engineStep engineParams i s.engine s.inputs) (takeCommand s)
    refine ⟨_, r, (step_of_decode hcmd hp).trans (exec_eq_execWith i _), deliver_cmd _ _, hr⟩

/-- Settles O53: whatever a command ends as, it answers in its step, with VALUE 0 or the listed VALUE. -/
theorem responsesCarryValue : Obligations.ResponsesCarryValue := by
  refine ⟨fun s p hcmd => ?_, fun i s t hs _ h => ?_⟩
  · obtain ⟨t, r, hstep, hport, hr⟩ := exists_step_resp hcmd
    exact ⟨t, r, hstep, hport, hr, extractLsb'_status_bits r, extractLsb'_value_bits r⟩
  · obtain ⟨hctx, -⟩ := (State.invFor_iff engineParams s).1 hs
    obtain rfl := exec_next h
    obtain ⟨r, hr, herror, hok⟩ := exists_deliver_resp (engineStep engineParams i s.engine s.inputs) s
    exact ⟨r, hr, herror, fun h0 => engineStep_value hctx (hok h0)⟩

end Machine

end Sys2Proof

namespace Sys2Proof

/-! ### Values without a sign bit: squares and their sums -/

section
open Machine

theorem F64.isFinite_or_eq_inf {x : F64} (h : F64.isNaN x = false) :
    F64.isFinite x = true ∨ x = F64.inf (F64.sign x) := by
  rw [Bool.eq_false_iff, Ne, F64.isNaN_iff, not_lt] at h
  obtain hlt | heq := h.lt_or_eq
  · exact .inl ((F64.isFinite_iff x).2 hlt)
  · exact .inr (by rw [F64.inf, ← heq, F64.pack_sign_low])

theorem F64.roundBits_le_infBits (num den : Nat) : F64.roundBits num den ≤ F64.infBits := by
  rw [F64.roundBits_eq rfl]
  exact min_le_right _ _

theorem F64.isNaN_pack {neg : Bool} {bits : Nat} (h : bits ≤ F64.infBits) :
    F64.isNaN (F64.pack neg bits) = false := by
  rw [Bool.eq_false_iff, Ne, F64.isNaN_iff, F64.low_pack (h.trans_lt (by decide))]
  exact h.not_gt

theorem F64.isNaN_addFinite (a b : F64) : F64.isNaN (F64.addFinite a b) = false := by
  rw [F64.addFinite_eq]
  exact F64.isNaN_pack (F64.roundBits_le_infBits _ _)

theorem F64.isNaN_sub_of_isFinite {a b : F64} (ha : F64.isFinite a = true) (hb : F64.isFinite b = true) :
    F64.isNaN (F64.sub a b) = false := by
  rw [F64.sub_of_isFinite ha hb]
  exact F64.isNaN_addFinite _ _

/-- No NaN, and no sign bit. -/
structure F64.NonNeg (x : F64) : Prop where
  isNaN : F64.isNaN x = false
  sign : F64.sign x = false

theorem F64.NonNeg.isFinite_or_eq_inf {x : F64} (h : F64.NonNeg x) : F64.isFinite x = true ∨ x = F64.inf false :=
  h.sign ▸ F64.isFinite_or_eq_inf h.isNaN

theorem F64.nonNeg_inf : F64.NonNeg (F64.inf false) where
  isNaN := F64.isNaN_inf false
  sign := F64.sign_inf false

theorem F64.nonNeg_mul_self {d : F64} (h : F64.isNaN d = false) : F64.NonNeg (F64.mul d d) := by
  obtain hfin | hinf := F64.isFinite_or_eq_inf h
  · rw [F64.mul_of_isFinite hfin hfin, bne_self_eq_false]
    exact ⟨F64.isNaN_pack (F64.roundBits_le_infBits _ _), F64.sign_pack (F64.roundsBits_product d d).lt⟩
  · obtain ⟨-, -, -, -, hmul, -⟩ := F64.arith_inf_inf (F64.sign d) (F64.sign d)
    rw [hinf, hmul, bne_self_eq_false]
    exact F64.nonNeg_inf

theorem F64.orderKey_le_inf {x : F64} (h : F64.NonNeg x) : F64.orderKey x ≤ F64.orderKey (F64.inf false) := by
  obtain hfin | rfl := h.isFinite_or_eq_inf
  · rw [F64.orderKey_inf]
    exact ((le_abs_self _).trans_lt (F64.abs_orderKey_lt_infBits hfin)).le
  · exact le_rfl

theorem F64.addFinite_comm (a b : F64) : F64.addFinite a b = F64.addFinite b a := by
  rw [F64.addFinite, F64.addFinite, add_comm, Bool.and_comm]

theorem F64.realOf_nonneg {x : F64} (h : F64.sign x = false) : 0 ≤ realOf x := by
  rw [F64.realOf_of_sign h]
  exact abs_nonneg _

/-- A sum is rounded to the nearest value, and `x` is one that is `y` away from it. -/
theorem F64.orderKey_le_addFinite {x y : F64} (hx : F64.isFinite x = true) (hx0 : F64.sign x = false)
    (hy0 : F64.sign y = false) : F64.orderKey x ≤ F64.orderKey (F64.addFinite x y) := by
  have hxpos := F64.realOf_nonneg hx0
  have hypos := F64.realOf_nonneg hy0
  obtain ⟨hnear, hover⟩ := F64.addFinite_roundsTo x y
  obtain hlt | hge := lt_or_ge |realOf x + realOf y| (2 ^ 1024 - 2 ^ 970)
  · obtain ⟨-, hmin, -⟩ := hnear hlt
    have hdist := hmin x hx
    rw [sub_add_cancel_left, abs_neg, abs_of_nonneg hypos] at hdist
    rw [← not_lt, ← realOf_lt_realOf_iff, not_lt]
    linarith [(abs_le.1 hdist).1]
  · rw [hover hge, decide_eq_false (add_nonneg hxpos hypos).not_gt]
    exact F64.orderKey_le_inf ⟨F64.isNaN_of_isFinite hx, hx0⟩

/-- The sum of two values without a sign is no NaN and not below either of them. -/
theorem F64.NonNeg.add {x y : F64} (hx : F64.NonNeg x) (hy : F64.NonNeg y) : F64.isNaN (F64.add x y) = false ∧
    F64.orderKey x ≤ F64.orderKey (F64.add x y) ∧ F64.orderKey y ≤ F64.orderKey (F64.add x y) := by
  have hinf : F64.add x y = F64.inf false → F64.isNaN (F64.add x y) = false ∧
      F64.orderKey x ≤ F64.orderKey (F64.add x y) ∧ F64.orderKey y ≤ F64.orderKey (F64.add x y) := fun h => by
    rw [h]
    exact ⟨F64.isNaN_inf false, F64.orderKey_le_inf hx, F64.orderKey_le_inf hy⟩
  obtain hxfin | rfl := hx.isFinite_or_eq_inf
  · obtain hyfin | rfl := hy.isFinite_or_eq_inf
    · rw [F64.add_of_isFinite hxfin hyfin]
      refine ⟨F64.isNaN_addFinite x y, F64.orderKey_le_addFinite hxfin hx.sign hy.sign, ?_⟩
      rw [F64.addFinite_comm]
      exact F64.orderKey_le_addFinite hyfin hy.sign hx.sign
    · exact hinf (F64.arith_inf_finite false hxfin).2.1
  · obtain hyfin | rfl := hy.isFinite_or_eq_inf
    · exact hinf (F64.arith_inf_finite false hyfin).1
    · exact hinf (F64.arith_inf_inf false false).1

theorem F64.units_negate (a : F64) : F64.units (F64.negate a) = -F64.units a := by
  rw [F64.units_eq_bitsMagnitude, F64.units_eq_bitsMagnitude, F64.low_negate, F64.sign_negate]
  cases F64.sign a <;> simp

theorem F64.sub_self {a : F64} (h : F64.isFinite a = true) : F64.sub a a = F64.zero := by
  rw [F64.sub_of_isFinite h h, F64.addFinite, F64.units_negate, add_neg_cancel, F64.sign_negate, Bool.and_not_self]
  rfl

theorem F64.ofInt_zero : F64.ofInt 0 = F64.zero := by decide +kernel

/-! ### Squares that do not underflow -/

theorem F64.IsRounding.le_of_bitsMagnitude_le {v : ℝ} {r n : Nat} (h : F64.IsRounding v r)
    (hn : (F64.bitsMagnitude n : ℝ) ≤ v) : n ≤ r := by
  by_contra! hlt
  have hmid : (F64.twiceMidpoint r : ℝ) < 2 * F64.bitsMagnitude n := by
    exact_mod_cast F64.twiceMidpoint_lt_two_mul_bitsMagnitude hlt
  linarith [h.above r le_rfl]

/-- A number of units not below a value is not rounded below it. -/
theorem F64.le_roundBits {num den n : Nat} (hden : 0 < den) (hn : n ≤ F64.infBits)
    (h : F64.bitsMagnitude n * den ≤ num) : n ≤ F64.roundBits num den := by
  obtain ⟨r, hr, heq⟩ := F64.roundsBits_roundBits (num := num) hden
  rw [heq]
  refine le_min (hr.le_of_bitsMagnitude_le ?_) hn
  rw [le_div_iff₀ (Nat.cast_pos.2 hden)]
  exact_mod_cast h

/-- The pattern of 2^−537, whose square is the least value there is, 2^−1074. -/
def F64.rootBits : Nat := 486 * 2 ^ 52

theorem F64.bitsMagnitude_rootBits : F64.bitsMagnitude F64.rootBits = 2 ^ 537 := by decide +kernel

theorem F64.rootBits_le_low_sub {a b : F64} (ha : F64.isFinite a = true) (hb : F64.isFinite b = true)
    (h : 2 ^ 537 ≤ (F64.units a - F64.units b).natAbs) : F64.rootBits ≤ F64.low (F64.sub a b) := by
  rw [F64.sub_of_isFinite ha hb, F64.addFinite_eq, F64.low_pack (F64.roundsBits_sum a _).lt, F64.units_negate,
    ← sub_eq_add_neg]
  refine F64.le_roundBits one_pos (by decide) ?_
  rwa [F64.bitsMagnitude_rootBits, mul_one]

theorem F64.orderKey_mul_self_pos {d : F64} (hnan : F64.isNaN d = false) (h : F64.rootBits ≤ F64.low d) :
    0 < F64.orderKey (F64.mul d d) := by
  have hpos : 0 < F64.low (F64.mul d d) := by
    obtain hfin | hinf := F64.isFinite_or_eq_inf hnan
    · have hmag : 2 ^ 537 ≤ F64.magnitude d := by
        rw [F64.magnitude_eq_bitsMagnitude, ← F64.bitsMagnitude_rootBits]
        exact F64.bitsMagnitude_strictMono.monotone h
      have hsquare : 2 ^ 1074 ≤ F64.magnitude d * F64.magnitude d := by
        rw [show 1074 = 537 + 537 by rfl, pow_add]
        exact Nat.mul_le_mul hmag hmag
      rw [F64.mul_of_isFinite hfin hfin, F64.low_pack (F64.roundsBits_product d d).lt]
      refine F64.le_roundBits (n := 1) (by positivity) (by decide) ?_
      rwa [show F64.bitsMagnitude 1 = 1 by decide, one_mul]
    · obtain ⟨-, -, -, -, hmul, -⟩ := F64.arith_inf_inf (F64.sign d) (F64.sign d)
      rw [hinf, hmul, F64.low_inf]
      decide
  rw [F64.orderKey_eq_low, (F64.nonNeg_mul_self hnan).sign, if_neg Bool.false_ne_true]
  exact_mod_cast hpos

theorem F64.lt_asymm {a b : F64} (h : F64.lt a b = true) : F64.lt b a = false := by
  simp only [F64.lt, Bool.and_eq_true, decide_eq_true_iff] at h ⊢
  rw [decide_eq_false h.2.not_gt, Bool.and_false]

end

end Sys2Proof

namespace Sys2Proof.Machine

/-! ### The value of a bit group and the binary form of an index -/

/-- One more bit at the end doubles the place value of every bit before it. -/
theorem valOf_eq_sum (g : List Bool) :
    valOf g = ((List.range g.length).map fun i => (g.getD i false).toNat * 2 ^ (g.length - 1 - i)).sum := by
  induction g using List.reverseRecOn with
  | nil => rfl
  | append_singleton g b ih =>
    have hbefore : ∀ i ∈ List.range g.length, ((g ++ [b]).getD i false).toNat * 2 ^ (g.length - i) =
        2 * ((g.getD i false).toNat * 2 ^ (g.length - 1 - i)) := fun i hi => by
      have hi := List.mem_range.1 hi
      rw [List.getD_append _ _ _ _ hi, show g.length - i = g.length - 1 - i + 1 by omega, pow_succ']
      exact mul_left_comm _ _ _
    rw [valOf_append_bit, ih, ← List.sum_map_mul_left, ← List.map_congr_left hbefore, List.length_append,
      List.length_singleton, List.range_succ, List.map_append, List.sum_append, Nat.add_sub_cancel]
    simp

theorem getElem?_bitsOf {n j : Nat} (i : Nat) (hj : j < n) : (bitsOf n i)[j]? = some (i.testBit (n - 1 - j)) := by
  induction n generalizing i with
  | zero => exact absurd hj j.not_lt_zero
  | succ n ih =>
    rw [bitsOf, Nat.add_sub_cancel]
    obtain hlt | rfl := Nat.lt_succ_iff_lt_or_eq.1 hj
    · rw [List.getElem?_append_left (by simpa using hlt), ih _ hlt, Nat.testBit_div_two,
        show n - 1 - j + 1 = n - j by omega]
    · simp [Nat.testBit_zero, beq_eq_decide]

/-- Settles O21: both halves by induction on the length, one bit at the end at a time. -/
theorem pointIndexIsGroupValue : Obligations.PointIndexIsGroupValue :=
  ⟨valOf_eq_sum, fun n i _ => ⟨length_bitsOf n i, fun _ => getElem?_bitsOf i⟩⟩

/-! ### The commands MAP and DEMAP -/

section
variable {T : Type}

theorem mapGroup_of_length {P : Params T} {bps : Nat} {g : List Bool} (h : g.length = bps) :
    mapGroup P bps g = .ok (P.point bps (valOf g)) := by
  obtain ⟨-, hok⟩ | ⟨hne, -⟩ := mapGroup_cases P bps g
  · exact hok
  · exact absurd h hne

theorem mapGroup_of_length_ne {P : Params T} {bps : Nat} {g : List Bool} (h : g.length ≠ bps) :
    mapGroup P bps g = .error .invalidBitGroupLength := by
  obtain ⟨hlen, -⟩ | ⟨-, herror⟩ := mapGroup_cases P bps g
  · exact absurd hlen h
  · exact herror

theorem mapCmd_of_length {P : Params T} {order : BitVec 8} {lenIn : Word} (inp : Inputs T)
    (ho : legalOrder order = true) (h : lenIn.toNat = order.toNat) :
    mapCmd P order lenIn inp = .samples 1 [P.point order.toNat (valOf (inp.bits order.toNat))] := by
  simp [mapCmd, ho, h, mapGroup_of_length (length_inputs_bits inp order.toNat)]

theorem mapCmd_of_length_ne {P : Params T} {order : BitVec 8} {lenIn : Word} (inp : Inputs T)
    (ho : legalOrder order = true) (h : lenIn.toNat ≠ order.toNat) :
    mapCmd P order lenIn inp = .fail .invalidBitGroupLength := by
  simp [mapCmd, ho, h]

theorem demapCmd_of_legalOrder {P : Params T} {order : BitVec 8} (inp : Inputs T) (ho : legalOrder order = true) :
    demapCmd P order inp = .bits (order.setWidth 32) (demapBits P order.toNat (inp.sample 0)) := by
  simp [demapCmd, ho]

end

theorem exec_map (order : BitVec 8) (lenIn : Word) (s : State) :
    exec (.map order lenIn) s = .next (deliver (mapCmd engineParams order lenIn s.inputs) s) := rfl

theorem exec_demap (order : BitVec 8) (s : State) :
    exec (.demap order) s = .next (deliver (demapCmd engineParams order s.inputs) s) := rfl

/-- Settles O20: `map` by the length of its group, MAP by its `LEN_IN`. -/
theorem mapAnswersPoint : Obligations.MapAnswersPoint := by
  refine ⟨fun bps g => ⟨mapGroup_of_length, mapGroup_of_length_ne⟩,
    fun order lenIn s ho => ⟨fun h => ?_, fun h => ?_⟩⟩
  · rw [exec_map, mapCmd_of_length s.inputs ho h, inputGroup_eq, deliver_samples, engineParams_point]
  · rw [exec_map, mapCmd_of_length_ne s.inputs ho h, deliver_fail]
    rfl

/-- Settles O22: DEMAP has no check but that of `ORDER`. -/
theorem demapAnswersGroup : Obligations.DemapAnswersGroup := by
  refine fun order s ho => ⟨_, rfl, length_demapBits engineParams _ _, ?_⟩
  rw [exec_demap, demapCmd_of_legalOrder s.inputs ho, deliver_bits, inputs_sample]

/-! ### The scan of `demap` -/

/-- Among the indices below `m`, `i` is the lowest of those whose key is least. -/
structure IsLeastIndex {α : Type} [LinearOrder α] (key : Nat → α) (m i : Nat) : Prop where
  lt : i < m
  le : ∀ j < m, key i ≤ key j
  lower : ∀ j < i, key i < key j

section
variable {α : Type} [LinearOrder α] {key : Nat → α} {m i : Nat}

theorem isLeastIndex_one : IsLeastIndex key 1 0 where
  lt := one_pos
  le j hj := by rw [Nat.lt_one_iff.1 hj]
  lower j hj := absurd hj j.not_lt_zero

theorem IsLeastIndex.succ_of_lt (h : IsLeastIndex key m i) (hlt : key m < key i) : IsLeastIndex key (m + 1) m where
  lt := m.lt_succ_self
  le j hj := by
    obtain hj | rfl := Nat.lt_succ_iff_lt_or_eq.1 hj
    · exact hlt.le.trans (h.le j hj)
    · exact le_rfl
  lower j hj := hlt.trans_le (h.le j hj)

theorem IsLeastIndex.succ_of_le (h : IsLeastIndex key m i) (hle : key i ≤ key m) : IsLeastIndex key (m + 1) i where
  lt := Nat.lt_succ_of_lt h.lt
  le j hj := by
    obtain hj | rfl := Nat.lt_succ_iff_lt_or_eq.1 hj
    · exact h.le j hj
    · exact hle
  lower := h.lower

theorem IsLeastIndex.eq_of_forall_lt (h : IsLeastIndex key m i) {k : Nat} (hk : k < m)
    (hlt : ∀ j < m, j ≠ k → key k < key j) : i = k := by
  by_contra hne
  exact absurd (h.le k hk) (hlt i h.lt hne).not_ge

end

section
variable {T : Type}

/-- Where `NUM.lt` compares the squared distances as `key` does, the scan keeps the least index. -/
theorem demapScan_isLeastIndex {α : Type} [LinearOrder α] {K : Num T} {point : Nat → Cx T} {z : Cx T}
    (key : Nat → α) {n i best : Nat}
    (hkey : ∀ a < i + n, ∀ b < i + n, K.lt (dist2 K z (point a)) (dist2 K z (point b)) = true ↔ key a < key b)
    (h : IsLeastIndex key i best) :
    IsLeastIndex key (i + n) (demapScan K point z n i best (dist2 K z (point best))) := by
  induction n generalizing i best with
  | zero => exact h
  | succ n ih =>
    have hlt := hkey i (by omega) best (by have := h.lt; omega)
    rw [← Nat.succ_add_eq_add_succ] at hkey ⊢
    rw [demapScan]
    split
    next hnear => exact ih hkey (h.succ_of_lt (hlt.1 hnear))
    next hfar => exact ih hkey (h.succ_of_le (not_lt.1 (mt hlt.2 hfar)))

theorem demapIdx_eq_demapScan {P : Params T} {bps : Nat} {z : Cx T} (hopen : P.openDemap bps z = none) :
    demapIdx P bps z = demapScan P.num (P.point bps) z (2 ^ bps - 1) 1 0 (dist2 P.num z (P.point bps 0)) := by
  rw [demapIdx, hopen]

theorem demapIdx_isLeastIndex {α : Type} [LinearOrder α] {P : Params T} {bps : Nat} {z : Cx T}
    (hopen : P.openDemap bps z = none) (key : Nat → α)
    (hkey : ∀ a < 2 ^ bps, ∀ b < 2 ^ bps,
      P.num.lt (dist2 P.num z (P.point bps a)) (dist2 P.num z (P.point bps b)) = true ↔ key a < key b) :
    IsLeastIndex key (2 ^ bps) (demapIdx P bps z) := by
  have hsize : 1 + (2 ^ bps - 1) = 2 ^ bps := Nat.add_sub_cancel' Nat.one_le_two_pow
  rw [← hsize] at hkey
  have hscan := demapScan_isLeastIndex key hkey isLeastIndex_one
  rwa [hsize, ← demapIdx_eq_demapScan hopen] at hscan

/-- Without any order on the scalars, the scan finds a point that is nearer than every other one, whichever of the
two `NUM.lt` is asked about first. -/
theorem demapScan_eq_of_nearest {K : Num T} {point : Nat → Cx T} {z : Cx T} {k n i best : Nat}
    (hnear : ∀ j < i + n, j ≠ k → K.lt (dist2 K z (point k)) (dist2 K z (point j)) = true ∧
      K.lt (dist2 K z (point j)) (dist2 K z (point k)) = false)
    (hk : k < i + n) (hbest : best < i) (hfound : k < i → best = k) :
    demapScan K point z n i best (dist2 K z (point best)) = k := by
  induction n generalizing i best with
  | zero => exact hfound hk
  | succ n ih =>
    have hnear' := hnear i (by omega)
    have hnearBest := hnear best (by omega)
    rw [← Nat.succ_add_eq_add_succ] at hnear hk
    rw [demapScan]
    obtain hlt | rfl | hgt := lt_trichotomy k i
    · obtain rfl := hfound hlt
      rw [if_neg (Bool.eq_false_iff.1 (hnear' hlt.ne').2)]
      exact ih hnear hk (by omega) fun _ => rfl
    · rw [if_pos (hnearBest hbest.ne).1]
      exact ih hnear hk (by omega) fun _ => rfl
    · split <;> exact ih hnear hk (by omega) fun h => by omega

/-- Over the premises a table point is nearer to itself than any other one, so the scan finds it. -/
theorem demapIdx_point {P : Params T} {bps i : Nat} (h : DemapPremises P bps) (hi : i < 2 ^ bps) :
    demapIdx P bps (P.point bps i) = i := by
  have hsize : 1 + (2 ^ bps - 1) = 2 ^ bps := Nat.add_sub_cancel' Nat.one_le_two_pow
  rw [demapIdx_eq_demapScan (h.decided i hi)]
  refine demapScan_eq_of_nearest (fun j hj hne => ?_) (hsize.symm ▸ hi) one_pos fun h0 => (Nat.lt_one_iff.1 h0).symm
  have hpos := h.apart i hi j (hsize ▸ hj) hne.symm
  rw [h.same i hi]
  exact ⟨hpos, h.asymmetric _ _ hpos⟩

/-- Settles O26: `demap` finds a table point by its index, and a bit group is the binary form of its value. -/
theorem mapDemapBijection : Obligations.MapDemapBijection := by
  refine fun T P bps h => ⟨fun g hg => ⟨_, mapGroup_of_length hg, ?_⟩, fun i hi => ?_⟩
  · rw [demapBits, demapIdx_point h (hg ▸ valOf_lt g), ← hg, bitsOf_valOf]
  · rw [demapBits, demapIdx_point h hi, mapGroup_of_length (length_bitsOf bps i), valOf_bitsOf bps i hi]

end

/-! ### The integer levels of the default tables -/

theorem xor_div_two (a b : Nat) : (a ^^^ b) / 2 = a / 2 ^^^ b / 2 := by
  simpa [Nat.shiftRight_one] using Nat.shiftRight_xor_distrib (a := a) (b := b) (i := 1)

/-- Decoding without the last bit leaves out the last bit of the decoded number. -/
theorem grayDecode_div_two {m a : Nat} (ha : a < 2 ^ (m + 1)) : grayDecode (m + 1) a / 2 = grayDecode m (a / 2) := by
  induction m generalizing a with
  | zero =>
    obtain rfl | rfl : a = 0 ∨ a = 1 := by omega
    · rfl
    · rfl
  | succ m ih =>
    rw [grayDecode, xor_div_two, ih (by omega), grayDecode]

theorem grayDecode_injOn {m a b : Nat} (ha : a < 2 ^ m) (hb : b < 2 ^ m) (h : grayDecode m a = grayDecode m b) :
    a = b := by
  cases m with
  | zero => omega
  | succ m =>
    have hhalf : grayDecode m (a / 2) = grayDecode m (b / 2) := by
      rw [← grayDecode_div_two ha, ← grayDecode_div_two hb, h]
    rw [grayDecode, grayDecode, hhalf] at h
    exact Nat.xor_left_injective h

theorem two_le_abs_axisLevel_sub {m a b : Nat} (ha : a < 2 ^ m) (hb : b < 2 ^ m) (hne : a ≠ b) :
    2 ≤ |axisLevel m a - axisLevel m b| := by
  have hgray : (grayDecode m a : Int) - grayDecode m b ≠ 0 :=
    sub_ne_zero.2 (Nat.cast_injective.ne (mt (grayDecode_injOn ha hb) hne))
  have hsub : axisLevel m a - axisLevel m b = 2 * ((grayDecode m a : Int) - grayDecode m b) := by
    unfold axisLevel
    ring
  rw [hsub, abs_mul, abs_two]
  linarith [Int.one_le_abs hgray]

theorem exists_half_of_legalOrder {order : BitVec 8} (h : legalOrder order = true) :
    ∃ m, 1 ≤ m ∧ m ≤ 4 ∧ order.toNat = 2 * m := by
  rw [legalOrder_iff] at h
  simp only [List.mem_cons, List.not_mem_nil, or_false] at h
  obtain rfl | rfl | rfl | rfl := h
  · exact ⟨1, by decide⟩
  · exact ⟨2, by decide⟩
  · exact ⟨3, by decide⟩
  · exact ⟨4, by decide⟩

theorem pointLevels_two_mul (m i : Nat) :
    pointLevels (2 * m) i = (axisLevel m (i / 2 ^ m % 2 ^ m), axisLevel m (i % 2 ^ m)) := by
  rw [pointLevels, Nat.mul_div_cancel_left m two_pos]

/-- Two indices differ in the code of an axis. -/
theorem axisCode_ne_or_ne {m i j : Nat} (hi : i < 2 ^ (2 * m)) (hj : j < 2 ^ (2 * m)) (hne : i ≠ j) :
    i / 2 ^ m % 2 ^ m ≠ j / 2 ^ m % 2 ^ m ∨ i % 2 ^ m ≠ j % 2 ^ m := by
  rw [two_mul, pow_add, ← Nat.div_lt_iff_lt_mul (by positivity)] at hi hj
  rw [Nat.mod_eq_of_lt hi, Nat.mod_eq_of_lt hj]
  by_contra! h
  obtain ⟨hdiv, hmod⟩ := h
  exact hne (by rw [← Nat.div_add_mod i (2 ^ m), hdiv, hmod, Nat.div_add_mod])

/-! ### Distances over the reals -/

theorem distance_eq_dist (z p : Cx ℝ) : distance z p = dist (complexOf z) (complexOf p) := by
  rw [Complex.dist_eq_re_im, distance, complexOf, complexOf]

theorem abs_re_sub_le_distance (z p : Cx ℝ) : |z.re - p.re| ≤ distance z p :=
  Real.abs_le_sqrt (le_add_of_nonneg_right (sq_nonneg _))

theorem abs_im_sub_le_distance (z p : Cx ℝ) : |z.im - p.im| ≤ distance z p :=
  Real.abs_le_sqrt (le_add_of_nonneg_left (sq_nonneg _))

theorem sqrt_dist2_eq_distance (z p : Cx ℝ) : Real.sqrt (dist2 numExact z p) = distance z p := by
  simp [dist2, distance, sq]

theorem dist2_numExact_nonneg (z p : Cx ℝ) : 0 ≤ dist2 numExact z p :=
  add_nonneg (mul_self_nonneg _) (mul_self_nonneg _)

theorem dist2_lt_dist2_iff (z p q : Cx ℝ) :
    dist2 numExact z p < dist2 numExact z q ↔ distance z p < distance z q := by
  rw [← sqrt_dist2_eq_distance, ← sqrt_dist2_eq_distance, Real.sqrt_lt_sqrt_iff (dist2_numExact_nonneg z p)]

theorem dist2_numExact_pos_iff (z p : Cx ℝ) : 0 < dist2 numExact z p ↔ 0 < distance z p := by
  rw [← sqrt_dist2_eq_distance, Real.sqrt_pos]

/-- Two points of a default table are `2 / sqrt(E_M)` apart on an axis (42_constellation_tables.md R131). -/
theorem two_div_sqrt_energyOf_le_distance {m i j : Nat} (hi : i < 2 ^ (2 * m)) (hj : j < 2 ^ (2 * m)) (hne : i ≠ j) :
    2 / Real.sqrt (energyOf (2 * m)) ≤ distance (exactPoint (2 * m) i) (exactPoint (2 * m) j) := by
  have haxis : ∀ a < 2 ^ m, ∀ b < 2 ^ m, a ≠ b → 2 / Real.sqrt (energyOf (2 * m)) ≤
      |axisLevel m a / Real.sqrt (energyOf (2 * m)) - axisLevel m b / Real.sqrt (energyOf (2 * m))| :=
    fun a ha b hb hab => by
      have hlevels : (2 : ℝ) ≤ |(axisLevel m a : ℝ) - axisLevel m b| := by
        exact_mod_cast two_le_abs_axisLevel_sub ha hb hab
      rw [← sub_div, abs_div, abs_of_nonneg (Real.sqrt_nonneg _)]
      exact div_le_div_of_nonneg_right hlevels (Real.sqrt_nonneg _)
  have hpos : 0 < 2 ^ m := by positivity
  have hre := abs_re_sub_le_distance (exactPoint (2 * m) i) (exactPoint (2 * m) j)
  have him := abs_im_sub_le_distance (exactPoint (2 * m) i) (exactPoint (2 * m) j)
  simp only [exactPoint, pointLevels_two_mul] at hre him ⊢
  obtain hI | hQ := axisCode_ne_or_ne hi hj hne
  · exact (haxis _ (Nat.mod_lt _ hpos) _ (Nat.mod_lt _ hpos) hI).trans hre
  · exact (haxis _ (Nat.mod_lt _ hpos) _ (Nat.mod_lt _ hpos) hQ).trans him

section
variable (nscMax : Nat) (pilotRef : Cx ℝ) (txScale : Nat → ℝ) (xp : Provider ℝ)

/-- Over the reals the squared distances have the order of the distances. -/
theorem demapIdx_exact_isLeastIndex (bps : Nat) (z : Cx ℝ) :
    IsLeastIndex (fun j => distance z (exactPoint bps j)) (2 ^ bps)
      (demapIdx (exactParams nscMax pilotRef txScale xp) bps z) :=
  demapIdx_isLeastIndex (exactParams_openDemap nscMax pilotRef txScale xp bps z) _ fun _ _ _ _ =>
    (numExact_lt _ _).trans (dist2_lt_dist2_iff z _ _)

end

/-- Settles O24: the scan keeps the least index. -/
theorem demapNearestExact : Obligations.DemapNearestExact := by
  intro nscMax pilotRef txScale xp bps z
  obtain ⟨hlt, hle, hlower⟩ := demapIdx_exact_isLeastIndex nscMax pilotRef txScale xp bps z
  exact ⟨_, hlt, rfl, hle, hlower⟩

/-- Within half the least distance of a table point every other one is farther. -/
theorem distance_lt_distance_of_lt {m i j : Nat} {z : Cx ℝ} (hi : i < 2 ^ (2 * m)) (hj : j < 2 ^ (2 * m))
    (hne : j ≠ i) (hz : distance z (exactPoint (2 * m) i) < 1 / Real.sqrt (energyOf (2 * m))) :
    distance z (exactPoint (2 * m) i) < distance z (exactPoint (2 * m) j) := by
  have hapart := two_div_sqrt_energyOf_le_distance hi hj hne.symm
  have hhalf : 2 / Real.sqrt (energyOf (2 * m)) = 2 * (1 / Real.sqrt (energyOf (2 * m))) := by ring
  simp only [distance_eq_dist] at *
  have htriangle :=
    dist_triangle_left (complexOf (exactPoint (2 * m) i)) (complexOf (exactPoint (2 * m) j)) (complexOf z)
  linarith

/-- Settles O25: by the triangle inequality, the table points being at least `2 / sqrt(E_M)` apart. -/
theorem demapWithinRadiusExact : Obligations.DemapWithinRadiusExact := by
  intro nscMax pilotRef txScale xp order z i ho hi hz
  obtain ⟨m, -, -, hm⟩ := exists_half_of_legalOrder ho
  rw [hm] at hi hz ⊢
  rw [demapBits, (demapIdx_exact_isLeastIndex nscMax pilotRef txScale xp (2 * m) z).eq_of_forall_lt hi
    fun j hj hne => distance_lt_distance_of_lt hi hj hne hz]

/-! ### Squared distances of finite samples in binary64 -/

section
variable {z p : Sample} (hz : F64.isFinite z.re = true ∧ F64.isFinite z.im = true)
include hz

theorem openGroup_of_isFinite (bps : Nat) : openGroup bps z = none := by
  simp [openGroup, hz]

theorem dist2_numF64_self : dist2 numF64 z z = numF64.zero := by
  have hzero : F64.add (F64.mul F64.zero F64.zero) (F64.mul F64.zero F64.zero) = F64.ofInt 0 := by decide +kernel
  simp only [dist2, Num.zero, numF64_add, numF64_sub, numF64_mul, numF64_ofInt, F64.sub_self hz.1, F64.sub_self hz.2,
    hzero]

/-- A squared distance is a sum of two squares, so it is no NaN, even past overflow, and not below either. -/
theorem dist2_numF64_of_isFinite (hp : F64.isFinite p.re = true ∧ F64.isFinite p.im = true) :
    F64.isNaN (dist2 numF64 z p) = false ∧
    F64.orderKey (F64.mul (F64.sub z.re p.re) (F64.sub z.re p.re)) ≤ F64.orderKey (dist2 numF64 z p) ∧
    F64.orderKey (F64.mul (F64.sub z.im p.im) (F64.sub z.im p.im)) ≤ F64.orderKey (dist2 numF64 z p) :=
  (F64.nonNeg_mul_self (F64.isNaN_sub_of_isFinite hz.1 hp.1)).add
    (F64.nonNeg_mul_self (F64.isNaN_sub_of_isFinite hz.2 hp.2))

theorem zero_lt_dist2_numF64 (hp : F64.isFinite p.re = true ∧ F64.isFinite p.im = true)
    (h : 2 ^ 537 ≤ (F64.units z.re - F64.units p.re).natAbs ∨ 2 ^ 537 ≤ (F64.units z.im - F64.units p.im).natAbs) :
    numF64.lt numF64.zero (dist2 numF64 z p) = true := by
  obtain ⟨hnan, hre, him⟩ := dist2_numF64_of_isFinite hz hp
  have hpos : 0 < F64.orderKey (dist2 numF64 z p) := by
    obtain h | h := h
    · exact (F64.orderKey_mul_self_pos (F64.isNaN_sub_of_isFinite hz.1 hp.1)
        (F64.rootBits_le_low_sub hz.1 hp.1 h)).trans_le hre
    · exact (F64.orderKey_mul_self_pos (F64.isNaN_sub_of_isFinite hz.2 hp.2)
        (F64.rootBits_le_low_sub hz.2 hp.2 h)).trans_le him
  rw [Num.zero, numF64_lt, numF64_ofInt, F64.ofInt_zero, F64.lt_of_not_isNaN (by decide) hnan, decide_eq_true_iff]
  exact hpos

end

/-! ### The default table in binary64 -/

theorem isFinite_levelMagnitude (bps level : Nat) : F64.isFinite (levelMagnitude bps level) = true := by
  unfold levelMagnitude
  split <;> decide

theorem isFinite_levelScalar (bps : Nat) (level : Int) : F64.isFinite (levelScalar bps level) = true := by
  unfold levelScalar
  split
  · rw [F64.isFinite_negate, isFinite_levelMagnitude]
  · exact isFinite_levelMagnitude _ _

theorem isFinite_defaultPoint (bps i : Nat) :
    F64.isFinite (defaultPoint bps i).re = true ∧ F64.isFinite (defaultPoint bps i).im = true :=
  ⟨isFinite_levelScalar _ _, isFinite_levelScalar _ _⟩

/-- The scalars of two levels of an axis differ by 2^−537 at least, and by much more. -/
theorem levelScalar_axisLevel_apart : ∀ m ≤ 4, ∀ a < 2 ^ m, ∀ b < 2 ^ m, a ≠ b →
    2 ^ 537 ≤ (F64.units (levelScalar (2 * m) (axisLevel m a)) -
      F64.units (levelScalar (2 * m) (axisLevel m b))).natAbs := by
  decide +kernel

theorem defaultPoint_apart {m i j : Nat} (hm : m ≤ 4) (hi : i < 2 ^ (2 * m)) (hj : j < 2 ^ (2 * m)) (hne : i ≠ j) :
    numF64.lt numF64.zero (dist2 numF64 (defaultPoint (2 * m) i) (defaultPoint (2 * m) j)) = true := by
  have hpos : 0 < 2 ^ m := by positivity
  refine zero_lt_dist2_numF64 (isFinite_defaultPoint _ i) (isFinite_defaultPoint _ j) ?_
  simp only [defaultPoint, pointLevels_two_mul]
  exact (axisCode_ne_or_ne hi hj hne).imp
    (levelScalar_axisLevel_apart m hm _ (Nat.mod_lt _ hpos) _ (Nat.mod_lt _ hpos))
    (levelScalar_axisLevel_apart m hm _ (Nat.mod_lt _ hpos) _ (Nat.mod_lt _ hpos))

theorem demapIdx_engine_isLeastIndex (bps : Nat) {z : Sample}
    (hz : F64.isFinite z.re = true ∧ F64.isFinite z.im = true) :
    IsLeastIndex (fun j => F64.orderKey (dist2 numF64 z (defaultPoint bps j))) (2 ^ bps)
      (demapIdx engineParams bps z) := by
  have hnan := fun j => (dist2_numF64_of_isFinite hz (isFinite_defaultPoint bps j)).1
  refine demapIdx_isLeastIndex (openGroup_of_isFinite hz bps) _ fun a _ b _ => ?_
  rw [engineParams_num, engineParams_point, numF64_lt, F64.lt_of_not_isNaN (hnan a) (hnan b), decide_eq_true_iff]

/-- Settles O23: no computed squared distance of a finite sample is a NaN, so they are ordered by `F64.orderKey`. -/
theorem demapScanIsLeast : Obligations.DemapScanIsLeast := by
  intro order z _ hre him d i
  have hnan : ∀ j, F64.isNaN (d j) = false := fun j =>
    (dist2_numF64_of_isFinite ⟨hre, him⟩ (isFinite_defaultPoint order.toNat j)).1
  obtain ⟨hlt, hle, hlower⟩ := demapIdx_engine_isLeastIndex order.toNat ⟨hre, him⟩
  refine ⟨hlt, fun j hj => ?_, fun j hj => ?_⟩
  · rw [F64.lt_of_not_isNaN (hnan j) (hnan i)]
    exact decide_eq_false (hle j hj).not_gt
  · rw [F64.lt_of_not_isNaN (hnan i) (hnan j)]
    exact decide_eq_true (hlower j hj)

theorem demapPremises_engine {m : Nat} (hm : m ≤ 4) : DemapPremises engineParams (2 * m) where
  same i _ := dist2_numF64_self (isFinite_defaultPoint _ i)
  apart _ hi _ hj hne := defaultPoint_apart hm hi hj hne
  asymmetric _ _ h := F64.lt_asymm h
  decided i _ := openGroup_of_isFinite (isFinite_defaultPoint _ i) _

theorem energyOf_two_mul_pos {m : Nat} (hm : 1 ≤ m) : 0 < energyOf (2 * m) := by
  have hfour : 2 ^ 2 ≤ 2 ^ (2 * m) := Nat.pow_le_pow_right two_pos (by omega)
  unfold energyOf
  omega

theorem demapPremises_exact (nscMax : Nat) (pilotRef : Cx ℝ) (txScale : Nat → ℝ) (xp : Provider ℝ) {m : Nat}
    (hm : 1 ≤ m) : DemapPremises (exactParams nscMax pilotRef txScale xp) (2 * m) where
  same i _ := by simp [dist2]
  apart _ hi _ hj hne := by
    have henergy : 0 < 2 / Real.sqrt (energyOf (2 * m)) :=
      div_pos two_pos (Real.sqrt_pos.2 (Nat.cast_pos.2 (energyOf_two_mul_pos hm)))
    rw [exactParams_num, exactParams_point, numExact_lt, numExact_zero, dist2_numExact_pos_iff]
    exact henergy.trans_le (two_div_sqrt_energyOf_le_distance hi hj hne)
  asymmetric _ _ h := by
    rw [exactParams_num, Bool.eq_false_iff, Ne, numExact_lt] at *
    exact h.not_gt
  decided _ _ := rfl

/-- Settles O27: two points differ in the code of an axis, and the levels of an axis are apart in both formats. -/
theorem defaultTableMeetsPremises : Obligations.DefaultTableMeetsPremises := by
  intro order ho
  obtain ⟨m, hlo, hhi, hm⟩ := exists_half_of_legalOrder ho
  rw [hm]
  exact ⟨demapPremises_engine hhi, fun nscMax pilotRef txScale xp =>
    demapPremises_exact nscMax pilotRef txScale xp hlo⟩

end Sys2Proof.Machine

namespace Sys2Proof

/-! ### Numbers strictly between two midpoints -/

/-- Strictly between the midpoints on its two sides `r` is the rounding, and there is no tie. -/
theorem F64.isRounding_of_between_midpoints {v : ℝ} {r : Nat} (hlo : (F64.twiceMidpoint (r - 1) : ℝ) < 2 * v)
    (hhi : 2 * v < F64.twiceMidpoint r) : F64.IsRounding v r := by
  have hbelow : ∀ n < r, (F64.twiceMidpoint n : ℝ) < 2 * v := fun n hn => by
    have hmid : (F64.twiceMidpoint n : ℝ) ≤ F64.twiceMidpoint (r - 1) := by
      exact_mod_cast F64.twiceMidpoint_strictMono.monotone (Nat.le_sub_one_of_lt hn)
    exact hmid.trans_lt hlo
  have habove : ∀ n ≥ r, 2 * v < F64.twiceMidpoint n := fun n hn => by
    have hmid : (F64.twiceMidpoint r : ℝ) ≤ F64.twiceMidpoint n := by
      exact_mod_cast F64.twiceMidpoint_strictMono.monotone hn
    exact hhi.trans_le hmid
  refine ⟨fun n hn => (hbelow n hn).le, fun n hn => (habove n hn).le, fun n hn => ?_⟩
  obtain hlt | hge := lt_or_ge n r
  · exact absurd hn (hbelow n hlt).ne
  · exact absurd hn (habove n hge).ne'

/-- A rounding is off by half the distance to its neighbours at most. -/
theorem F64.IsRounding.abs_sub_le {v : ℝ} {r d : Nat} (h : F64.IsRounding v r) (hr : 0 < r)
    (hlo : F64.bitsMagnitude r ≤ F64.bitsMagnitude (r - 1) + 2 * d)
    (hhi : F64.bitsMagnitude (r + 1) ≤ F64.bitsMagnitude r + 2 * d) :
    |(F64.bitsMagnitude r : ℝ) - v| ≤ d := by
  have hbelow := h.below (r - 1) (Nat.sub_one_lt_of_lt hr)
  have habove := h.above r le_rfl
  rw [F64.twiceMidpoint, Nat.cast_add] at hbelow habove
  rw [Nat.sub_add_cancel hr] at hbelow
  rify at hlo hhi
  exact abs_le.2 ⟨by linarith, by linarith⟩

section
variable {E : Nat} (hE : 0 < E) (t level unit : Nat)
include hE

/-- A number over a square root compares with a whole number as the squares do. -/
theorem natCast_lt_two_mul_div_sqrt_iff :
    (t : ℝ) < 2 * (level / √E * unit) ↔ t ^ 2 * E < (2 * (level * unit)) ^ 2 := by
  have hE' : (0 : ℝ) < E := Nat.cast_pos.2 hE
  rw [← pow_lt_pow_iff_left₀ t.cast_nonneg (by positivity) two_ne_zero, div_mul_eq_mul_div, mul_div_assoc', div_pow,
    Real.sq_sqrt hE'.le, lt_div_iff₀ hE']
  norm_cast

theorem two_mul_div_sqrt_lt_natCast_iff :
    2 * (level / √E * unit) < (t : ℝ) ↔ (2 * (level * unit)) ^ 2 < t ^ 2 * E := by
  have hE' : (0 : ℝ) < E := Nat.cast_pos.2 hE
  rw [← pow_lt_pow_iff_left₀ (by positivity) t.cast_nonneg two_ne_zero, div_mul_eq_mul_div, mul_div_assoc', div_pow,
    Real.sq_sqrt hE'.le, div_lt_iff₀ hE']
  norm_cast

end

end Sys2Proof

namespace Sys2Proof.Machine

/-! ### The constants of the ROM (42_constellation_tables.md R133) -/

/-- The orders and positive levels of R133's table. -/
def romKeys : List (Nat × Nat) :=
  [(2, 1), (4, 1), (4, 3), (6, 1), (6, 3), (6, 5), (6, 7), (8, 1), (8, 3), (8, 5), (8, 7), (8, 9), (8, 11), (8, 13),
    (8, 15)]

/-- The number that the scalar of a level stands for (42_constellation_tables.md R131). -/
noncomputable def levelValue (bps : Nat) (level : Int) : ℝ := level / √(energyOf bps)

theorem abs_levelValue (bps : Nat) (level : Int) : |levelValue bps level| = level.natAbs / √(energyOf bps) := by
  rw [levelValue, abs_div, abs_of_nonneg (Real.sqrt_nonneg _), Nat.cast_natAbs, Int.cast_abs]

theorem low_levelScalar (bps : Nat) (level : Int) :
    F64.low (levelScalar bps level) = F64.low (levelMagnitude bps level.natAbs) := by
  unfold levelScalar
  split
  · exact F64.low_negate _
  · rfl

/-- Each constant has no sign bit, its level's number strictly between the midpoints on its two sides (the squares
are compared), and neighbours at most 2^−52 away. -/
theorem levelMagnitude_between_midpoints : ∀ e ∈ romKeys,
    let r := F64.low (levelMagnitude e.1 e.2)
    (F64.sign (levelMagnitude e.1 e.2) = false ∧ 0 < energyOf e.1 ∧ 0 < r) ∧
    (F64.twiceMidpoint (r - 1) ^ 2 * energyOf e.1 < (2 * (e.2 * 2 ^ 1074)) ^ 2 ∧
      (2 * (e.2 * 2 ^ 1074)) ^ 2 < F64.twiceMidpoint r ^ 2 * energyOf e.1) ∧
    F64.bitsMagnitude r ≤ F64.bitsMagnitude (r - 1) + 2 * 2 ^ 1021 ∧
      F64.bitsMagnitude (r + 1) ≤ F64.bitsMagnitude r + 2 * 2 ^ 1021 := by
  decide +kernel

section
variable {bps : Nat} {level : Int} (hkey : (bps, level.natAbs) ∈ romKeys)
include hkey

/-- `levelScalar` sets the sign bit exactly on the negative levels. -/
theorem sign_levelScalar : F64.sign (levelScalar bps level) = decide (levelValue bps level < 0) := by
  obtain ⟨⟨hsign, hE, -⟩, -, -⟩ := levelMagnitude_between_midpoints _ hkey
  have hneg : levelValue bps level < 0 ↔ level < 0 := by
    rw [levelValue, div_lt_iff₀ (Real.sqrt_pos.2 (Nat.cast_pos.2 hE)), zero_mul, Int.cast_lt_zero]
  rw [decide_eq_decide.2 hneg]
  unfold levelScalar
  split
  next h => rw [F64.sign_negate, hsign, decide_eq_true h, Bool.not_false]
  next h => rw [hsign, decide_eq_false h]

theorem isRounding_levelScalar :
    F64.IsRounding (|levelValue bps level| * 2 ^ 1074) (F64.low (levelScalar bps level)) := by
  obtain ⟨⟨-, hE, -⟩, ⟨hlo, hhi⟩, -⟩ := levelMagnitude_between_midpoints _ hkey
  have hunit : ((2 ^ 1074 : Nat) : ℝ) = 2 ^ 1074 := by rw [Nat.cast_pow, Nat.cast_ofNat]
  rw [low_levelScalar, abs_levelValue, ← hunit]
  exact F64.isRounding_of_between_midpoints ((natCast_lt_two_mul_div_sqrt_iff hE _ _ _).2 hlo)
    ((two_mul_div_sqrt_lt_natCast_iff hE _ _ _).2 hhi)

theorem levelScalar_eq_ofReal : levelScalar bps level = F64.ofReal (levelValue bps level) := by
  have hfin := (F64.isFinite_iff _).1 (isFinite_levelScalar bps level)
  rw [F64.ofReal_of_roundsBits ⟨_, isRounding_levelScalar hkey, (min_eq_left hfin.le).symm⟩, ← sign_levelScalar hkey,
    F64.pack_sign_low]

theorem nearestTo_levelScalar : NearestTo (levelValue bps level) (levelScalar bps level) :=
  F64.nearestTo_of_isRounding (isFinite_levelScalar bps level) (isRounding_levelScalar hkey)
    fun _ => sign_levelScalar hkey

theorem abs_realOf_levelScalar_sub_le :
    |realOf (levelScalar bps level) - levelValue bps level| ≤ 1 / 2 ^ 53 := by
  obtain ⟨⟨-, -, hr⟩, -, hlo, hhi⟩ := levelMagnitude_between_midpoints _ hkey
  rw [← low_levelScalar] at hr hlo hhi
  have herr := (isRounding_levelScalar hkey).abs_sub_le hr hlo hhi
  rw [Nat.cast_pow, Nat.cast_ofNat] at herr
  rw [F64.abs_realOf_sub_of_sign fun _ => sign_levelScalar hkey, F64.abs_abs_realOf_sub,
    div_le_iff₀ (by positivity)]
  refine herr.trans_eq ?_
  rw [show (2 : ℝ) ^ 1074 = 2 ^ 53 * 2 ^ 1021 by rw [← pow_add], ← mul_assoc, one_div_mul_cancel (by positivity),
    one_mul]

end

/-- The levels of an axis are those of R133's table and their negatives. -/
theorem axisLevel_mem_romKeys : ∀ m ≤ 4, 1 ≤ m → ∀ a : Fin (2 ^ m), (2 * m, (axisLevel m a).natAbs) ∈ romKeys := by
  decide +kernel

theorem pointLevels_mem_romKeys {m : Nat} (hlo : 1 ≤ m) (hhi : m ≤ 4) (i : Nat) :
    (2 * m, (pointLevels (2 * m) i).1.natAbs) ∈ romKeys ∧ (2 * m, (pointLevels (2 * m) i).2.natAbs) ∈ romKeys := by
  have hcode := fun a => axisLevel_mem_romKeys m hhi hlo ⟨a % 2 ^ m, Nat.mod_lt a (by positivity)⟩
  rw [pointLevels_two_mul]
  exact ⟨hcode (i / 2 ^ m), hcode i⟩

theorem defaultPoint_eq_ofReal {m : Nat} (hlo : 1 ≤ m) (hhi : m ≤ 4) (i : Nat) : defaultPoint (2 * m) i =
    ⟨F64.ofReal (levelValue (2 * m) (pointLevels (2 * m) i).1),
      F64.ofReal (levelValue (2 * m) (pointLevels (2 * m) i).2)⟩ := by
  obtain ⟨hI, hQ⟩ := pointLevels_mem_romKeys hlo hhi i
  rw [defaultPoint, levelScalar_eq_ofReal hI, levelScalar_eq_ofReal hQ]

theorem exists_half_of_mem {bps : Nat} (h : bps ∈ [2, 4, 6, 8]) : ∃ m, 1 ≤ m ∧ m ≤ 4 ∧ bps = 2 * m :=
  have hhalf : ∀ b ∈ [2, 4, 6, 8], 1 ≤ b / 2 ∧ b / 2 ≤ 4 ∧ b = 2 * (b / 2) := by decide
  ⟨bps / 2, hhalf bps h⟩

/-- Settles O29: the number of each level lies strictly between the midpoints next to its constant, and every level of
a point is one of R133's, up to its sign. -/
theorem romHoldsNearestScalars : Obligations.RomHoldsNearestScalars := by
  have hneg : ∀ e ∈ romKeys, levelScalar e.1 (-(e.2 : Int)) = levelScalar e.1 e.2 ||| 0x8000000000000000#64 := by
    decide +kernel
  refine ⟨fun bps level hkey => ⟨?_, hneg (bps, level) hkey⟩, fun bps hbps i _ => ?_⟩
  · exact nearestTo_levelScalar (level := level) hkey
  · obtain ⟨m, hlo, hhi, rfl⟩ := exists_half_of_mem hbps
    intro xI xQ
    rw [numF64_ofReal, numF64_ofReal, numExact_ofReal, numExact_ofReal]
    exact ⟨defaultPoint_eq_ofReal hlo hhi i, rfl⟩

/-! ### Neighbours on the lattice of levels (42_constellation_tables.md R134) -/

/-- The number of bits in which two indices of `n` bits differ. -/
def bitsApart (n i j : Nat) : Nat := ((List.range n).filter fun b => i.testBit b != j.testBit b).length

theorem bitsApart_self (n i : Nat) : bitsApart n i i = 0 := by simp [bitsApart]

/-- The bits of an index are those of its two axis codes. -/
theorem bitsApart_two_mul (m i j : Nat) : bitsApart (2 * m) i j =
    bitsApart m (i % 2 ^ m) (j % 2 ^ m) + bitsApart m (i / 2 ^ m % 2 ^ m) (j / 2 ^ m % 2 ^ m) := by
  have hlow : ∀ b ∈ List.range m, (i.testBit b != j.testBit b) =
      ((i % 2 ^ m).testBit b != (j % 2 ^ m).testBit b) := fun b hb => by
    simp [Nat.testBit_mod_two_pow, List.mem_range.1 hb]
  have hhigh : ∀ b ∈ List.range m, (i.testBit (m + b) != j.testBit (m + b)) =
      ((i / 2 ^ m % 2 ^ m).testBit b != (j / 2 ^ m % 2 ^ m).testBit b) := fun b hb => by
    simp [Nat.testBit_mod_two_pow, Nat.testBit_div_two_pow, List.mem_range.1 hb, add_comm]
  rw [bitsApart, two_mul, List.range_add, List.filter_append, List.length_append, List.filter_congr hlow,
    List.filter_map, List.length_map]
  exact congrArg _ (congrArg _ (List.filter_congr hhigh))

/-- The squared distance of two points of the lattice of levels. -/
def latticeDist2 (bps i j : Nat) : Int :=
  ((pointLevels bps i).1 - (pointLevels bps j).1) ^ 2 + ((pointLevels bps i).2 - (pointLevels bps j).2) ^ 2

/-- Two levels of an axis are one step apart and have codes that differ in one bit, or they are farther apart. -/
theorem axisLevel_neighbour_or_far : ∀ m ≤ 4, ∀ a < 2 ^ m, ∀ b < 2 ^ m, a ≠ b →
    (axisLevel m a - axisLevel m b) ^ 2 = 4 ∧ bitsApart m a b = 1 ∨ 8 ≤ (axisLevel m a - axisLevel m b) ^ 2 := by
  decide +kernel

/-- Neighbours differ by one step on one axis; two points that differ on both axes are √8 apart at least. -/
theorem latticeDist2_neighbour_or_far {m i j : Nat} (hm : m ≤ 4) (hi : i < 2 ^ (2 * m)) (hj : j < 2 ^ (2 * m))
    (hne : i ≠ j) : latticeDist2 (2 * m) i j = 4 ∧ bitsApart (2 * m) i j = 1 ∨ 8 ≤ latticeDist2 (2 * m) i j := by
  have hpos : 0 < 2 ^ m := by positivity
  have hI := axisLevel_neighbour_or_far m hm _ (Nat.mod_lt (i / 2 ^ m) hpos) _ (Nat.mod_lt (j / 2 ^ m) hpos)
  have hQ := axisLevel_neighbour_or_far m hm _ (Nat.mod_lt i hpos) _ (Nat.mod_lt j hpos)
  have hcodes := axisCode_ne_or_ne hi hj hne
  rw [bitsApart_two_mul, latticeDist2, pointLevels_two_mul, pointLevels_two_mul]
  dsimp only
  generalize i / 2 ^ m % 2 ^ m = aI, j / 2 ^ m % 2 ^ m = bI, i % 2 ^ m = aQ, j % 2 ^ m = bQ at *
  by_cases heqI : aI = bI
  · subst heqI
    simpa [bitsApart_self] using hQ (by simpa using hcodes)
  by_cases heqQ : aQ = bQ
  · subst heqQ
    simpa [bitsApart_self] using hI heqI
  have := hI heqI
  have := hQ heqQ
  have := sq_nonneg (axisLevel m aI - axisLevel m bI)
  have := sq_nonneg (axisLevel m aQ - axisLevel m bQ)
  omega

/-- The points 0 and 1 are neighbours. -/
theorem latticeDist2_zero_one : ∀ m ≤ 4, 1 ≤ m → latticeDist2 (2 * m) 0 1 = 4 := by decide +kernel

theorem distance_exactPoint (bps i j : Nat) :
    distance (exactPoint bps i) (exactPoint bps j) = √(latticeDist2 bps i j) / √(energyOf bps) := by
  rw [distance, exactPoint, exactPoint, latticeDist2, ← Real.sqrt_div' _ (Nat.cast_nonneg _)]
  simp only [← sub_div, div_pow, Real.sq_sqrt (Nat.cast_nonneg _), ← add_div]
  push_cast
  rfl

theorem sqrt_energyOf_pos {m : Nat} (hm : 1 ≤ m) : 0 < √(energyOf (2 * m) : ℝ) :=
  Real.sqrt_pos.2 (Nat.cast_pos.2 (energyOf_two_mul_pos hm))

/-- `CONST.GRAY` with room to spare: no two other points than neighbours are nearer than `2.5 / sqrt(E_M)`. -/
theorem bitsApart_eq_one_of_distance_lt {m i j : Nat} (hlo : 1 ≤ m) (hhi : m ≤ 4) (hi : i < 2 ^ (2 * m))
    (hj : j < 2 ^ (2 * m)) (hne : i ≠ j)
    (h : distance (exactPoint (2 * m) i) (exactPoint (2 * m) j) < 5 / 2 / √(energyOf (2 * m))) :
    bitsApart (2 * m) i j = 1 := by
  obtain ⟨-, hbits⟩ | hfar := latticeDist2_neighbour_or_far hhi hi hj hne
  · exact hbits
  · rw [distance_exactPoint, div_lt_div_iff_of_pos_right (sqrt_energyOf_pos hlo), Real.sqrt_lt' (by norm_num)] at h
    rify at hfar
    linarith

/-- The energies of the points add up to `E_M × M` (42_constellation_tables.md R134). -/
theorem sum_levels_sq : ∀ m ≤ 4, 1 ≤ m →
    ((List.range (2 ^ (2 * m))).map fun i => (pointLevels (2 * m) i).1 ^ 2 + (pointLevels (2 * m) i).2 ^ 2).sum =
      (energyOf (2 * m) : Int) * 2 ^ (2 * m) := by
  decide +kernel

theorem sum_exactPoint_sq {m : Nat} (hlo : 1 ≤ m) (hhi : m ≤ 4) :
    ((List.range (2 ^ (2 * m))).map fun i => (exactPoint (2 * m) i).re ^ 2 + (exactPoint (2 * m) i).im ^ 2).sum =
      (2 : ℝ) ^ (2 * m) := by
  have hE : (0 : ℝ) < energyOf (2 * m) := Nat.cast_pos.2 (energyOf_two_mul_pos hlo)
  have hsum := congrArg (Int.cast (R := ℝ)) (sum_levels_sq m hhi hlo)
  have hpoint : ∀ i, (exactPoint (2 * m) i).re ^ 2 + (exactPoint (2 * m) i).im ^ 2 =
      (((pointLevels (2 * m) i).1 ^ 2 + (pointLevels (2 * m) i).2 ^ 2 : Int) : ℝ) * (energyOf (2 * m) : ℝ)⁻¹ :=
      fun i => by
    rw [exactPoint, div_pow, div_pow, Real.sq_sqrt hE.le, ← add_div, div_eq_mul_inv]
    push_cast
    rfl
  rw [Int.cast_list_sum, List.map_map] at hsum
  simp only [hpoint, List.sum_map_mul_right]
  rw [mul_inv_eq_iff_eq_mul₀ hE.ne']
  refine hsum.trans ?_
  push_cast
  exact mul_comm _ _

theorem sqrt_energyOf_le {m : Nat} (hm : m ≤ 4) : √(energyOf (2 * m) : ℝ) ≤ 16 := by
  have hE : energyOf (2 * m) ≤ 16 ^ 2 := by
    have hpow : 2 ^ (2 * m) ≤ 2 ^ 8 := Nat.pow_le_pow_right two_pos (by omega)
    unfold energyOf
    omega
  exact Real.sqrt_le_iff.2 ⟨by norm_num, by exact_mod_cast hE⟩

/-! ### Tables whose points are near those over the reals -/

/-- The parts of every point of the table are within `ε` of the numbers of `NUM_EXACT`. -/
def NearTable (m : Nat) (ε : ℝ) (q : Nat → Cx ℝ) : Prop :=
  ∀ i, |(q i).re - (exactPoint (2 * m) i).re| ≤ ε ∧ |(q i).im - (exactPoint (2 * m) i).im| ≤ ε

theorem distance_le_abs_add_abs (z p : Cx ℝ) : distance z p ≤ |z.re - p.re| + |z.im - p.im| := by
  rw [distance_eq_dist, Complex.dist_eq]
  exact Complex.norm_le_abs_re_add_abs_im _

/-- No level is beyond 3/2 of the root of the energy. -/
theorem abs_axisLevel_le : ∀ m ≤ 4, 1 ≤ m → ∀ a < 2 ^ m, 4 * axisLevel m a ^ 2 ≤ 9 * (energyOf (2 * m) : Int) := by
  decide +kernel

theorem abs_exactPoint_le {m : Nat} (hlo : 1 ≤ m) (hhi : m ≤ 4) (i : Nat) :
    |(exactPoint (2 * m) i).re| ≤ 3 / 2 ∧ |(exactPoint (2 * m) i).im| ≤ 3 / 2 := by
  have hE : (0 : ℝ) < energyOf (2 * m) := Nat.cast_pos.2 (energyOf_two_mul_pos hlo)
  have haxis : ∀ a, |(axisLevel m (a % 2 ^ m) : ℝ) / √(energyOf (2 * m))| ≤ 3 / 2 := fun a => by
    have hlevel : (4 * axisLevel m (a % 2 ^ m) ^ 2 : ℝ) ≤ 9 * energyOf (2 * m) := by
      exact_mod_cast abs_axisLevel_le m hhi hlo _ (Nat.mod_lt a (by positivity))
    refine abs_le_of_sq_le_sq ?_ (by norm_num)
    rw [div_pow, Real.sq_sqrt hE.le, div_le_iff₀ hE]
    linarith
  rw [exactPoint, pointLevels_two_mul]
  exact ⟨haxis _, haxis _⟩

theorem abs_sq_sub_sq_le {x y ε : ℝ} (hε : ε ≤ 1 / 2 ^ 53) (hy : |y| ≤ 3 / 2) (h : |x - y| ≤ ε) :
    |x ^ 2 - y ^ 2| ≤ 4 * ε := by
  have hsum : |x + y| ≤ 4 := by
    rw [← sub_add_add_cancel x y y, ← two_mul]
    have htwice : |2 * y| = 2 * |y| := by rw [abs_mul, abs_two]
    linarith [abs_add_le (x - y) (2 * y)]
  rw [sq_sub_sq, abs_mul]
  exact mul_le_mul hsum h (abs_nonneg _) (by norm_num)

section
variable {m : Nat} {ε : ℝ} {q : Nat → Cx ℝ} (hlo : 1 ≤ m) (hhi : m ≤ 4) (hε : ε ≤ 1 / 2 ^ 53) (hq : NearTable m ε q)
include hq

theorem NearTable.abs_distance_sub_le (i j : Nat) :
    |distance (q i) (q j) - distance (exactPoint (2 * m) i) (exactPoint (2 * m) j)| ≤ 4 * ε := by
  have hpoint : ∀ k, dist (complexOf (q k)) (complexOf (exactPoint (2 * m) k)) ≤ 2 * ε := fun k => by
    rw [← distance_eq_dist]
    linarith [distance_le_abs_add_abs (q k) (exactPoint (2 * m) k), (hq k).1, (hq k).2]
  have h := dist_dist_dist_le (complexOf (q i)) (complexOf (q j)) (complexOf (exactPoint (2 * m) i))
    (complexOf (exactPoint (2 * m) j))
  rw [Real.dist_eq] at h
  rw [distance_eq_dist, distance_eq_dist]
  linarith [hpoint i, hpoint j]

include hlo hhi hε

/-- The nearest points are neighbours: points 0 and 1 are, and other ones are farther apart by much more than `ε`. -/
theorem NearTable.gray {i j : Nat} (hi : i < 2 ^ (2 * m)) (hj : j < 2 ^ (2 * m)) (hne : i ≠ j)
    (hmin : ∀ i' < 2 ^ (2 * m), ∀ j' < 2 ^ (2 * m), i' ≠ j' → distance (q i) (q j) ≤ distance (q i') (q j')) :
    bitsApart (2 * m) i j = 1 := by
  have hone : 1 < 2 ^ (2 * m) := Nat.one_lt_two_pow (by omega)
  have hE := sqrt_energyOf_pos hlo
  have h01 : distance (exactPoint (2 * m) 0) (exactPoint (2 * m) 1) = 2 / √(energyOf (2 * m)) := by
    rw [distance_exactPoint, latticeDist2_zero_one m hhi hlo, Int.cast_ofNat, show (4 : ℝ) = 2 ^ 2 by norm_num,
      Real.sqrt_sq two_pos.le]
  have hgap : 8 * ε < 1 / 2 / √(energyOf (2 * m)) :=
    calc 8 * ε < 1 / 2 / 16 := by linarith
      _ ≤ 1 / 2 / √(energyOf (2 * m)) := div_le_div_of_nonneg_left (by norm_num) hE (sqrt_energyOf_le hhi)
  refine bitsApart_eq_one_of_distance_lt hlo hhi hi hj hne ?_
  have hij := abs_le.1 (hq.abs_distance_sub_le i j)
  have hzero := abs_le.1 (hq.abs_distance_sub_le 0 1)
  have hle := hmin 0 (zero_lt_one.trans hone) 1 hone zero_ne_one
  have hsplit : 5 / 2 / √(energyOf (2 * m)) = 2 / √(energyOf (2 * m)) + 1 / 2 / √(energyOf (2 * m) : ℝ) := by ring
  linarith [hij.1, hzero.2]

/-- The squares are off by less than `4 * ε` per part, no part being beyond 3/2. -/
theorem NearTable.unitPower :
    |((List.range (2 ^ (2 * m))).map fun i => (q i).re ^ 2 + (q i).im ^ 2).sum / 2 ^ (2 * m) - 1| ≤ 8 * ε := by
  have hε0 : 0 ≤ ε := (abs_nonneg _).trans (hq 0).1
  have hpoint : ∀ i, |((q i).re ^ 2 + (q i).im ^ 2) -
      ((exactPoint (2 * m) i).re ^ 2 + (exactPoint (2 * m) i).im ^ 2)| ≤ 8 * ε := fun i => by
    obtain ⟨hre, him⟩ := abs_exactPoint_le hlo hhi i
    rw [add_sub_add_comm]
    linarith [abs_add_le ((q i).re ^ 2 - (exactPoint (2 * m) i).re ^ 2) ((q i).im ^ 2 - (exactPoint (2 * m) i).im ^ 2),
      abs_sq_sub_sq_le hε hre (hq i).1, abs_sq_sub_sq_le hε him (hq i).2]
  have hsum := sum_exactPoint_sq hlo hhi
  rw [← List.sum_toFinset _ List.nodup_range, List.toFinset_range] at hsum ⊢
  rw [div_sub_one (by positivity), abs_div, abs_of_pos (by positivity : (0 : ℝ) < 2 ^ (2 * m)),
    div_le_iff₀ (by positivity)]
  calc |∑ i ∈ Finset.range (2 ^ (2 * m)), ((q i).re ^ 2 + (q i).im ^ 2) - 2 ^ (2 * m)|
      = |∑ i ∈ Finset.range (2 ^ (2 * m)), ((q i).re ^ 2 + (q i).im ^ 2 -
          ((exactPoint (2 * m) i).re ^ 2 + (exactPoint (2 * m) i).im ^ 2))| := by
        rw [Finset.sum_sub_distrib, hsum]
    _ ≤ ∑ _i ∈ Finset.range (2 ^ (2 * m)), 8 * ε :=
        (Finset.abs_sum_le_sum_abs _ _).trans (Finset.sum_le_sum fun i _ => hpoint i)
    _ = 8 * ε * 2 ^ (2 * m) := by
        rw [Finset.sum_const, Finset.card_range, nsmul_eq_mul, mul_comm, Nat.cast_pow, Nat.cast_ofNat]

end

end Sys2Proof.Machine

namespace Sys2Proof

/-! ### The transmit scale is finite and positive (46_modulator.md R197) -/

theorem isqrtFrom_sq_le (i : Nat) {r n : Nat} (h : r * r ≤ n) : isqrtFrom i r n * isqrtFrom i r n ≤ n := by
  induction i generalizing r with
  | zero => exact h
  | succ i ih =>
    rw [isqrtFrom]
    split
    next hle => exact ih hle
    next => exact ih h

section
open Machine

theorem F64.ofRatio_roundsTo {num den : Nat} (hnum : 0 < num) (hden : 0 < den) :
    RoundsTo ((num : ℝ) / den) (F64.ofRatio false num den) := by
  have hpos : (0 : ℝ) < num / den := div_pos (Nat.cast_pos.2 hnum) (Nat.cast_pos.2 hden)
  have hbits := F64.roundsBits_roundBits (num := num * 2 ^ 1074) hden
  rw [Nat.cast_mul, Nat.cast_pow, Nat.cast_ofNat, mul_div_right_comm, ← abs_of_pos hpos] at hbits
  exact F64.roundsTo_pack hbits fun _ => (decide_eq_false hpos.not_gt).symm

/-- A ratio of one unit at least is not rounded to zero. -/
theorem F64.realOf_ofRatio_pos {num den : Nat} (hnum : 0 < num) (hden : 0 < den) (hsmall : den ≤ 2 ^ 1074) :
    0 < realOf (F64.ofRatio false num den) := by
  have hlt := (F64.roundsBits_roundBits (num := num * 2 ^ 1074) hden).lt
  have hone : 1 ≤ F64.roundBits (num * 2 ^ 1074) den := by
    refine F64.le_roundBits hden (by decide) ?_
    rw [show F64.bitsMagnitude 1 = 1 by decide, one_mul]
    exact hsmall.trans (Nat.le_mul_of_pos_left _ hnum)
  rw [F64.ofRatio, Bool.false_and]
  refine (F64.realOf_nonneg (F64.sign_pack hlt)).lt_of_ne' ?_
  rw [Ne, F64.realOf_eq_zero_iff, F64.low_pack hlt]
  omega

/-- The root of a count of `n` subcarriers is a fraction of 2^65 that is positive and below 2^7. -/
theorem F64.sqrtNat_eq_ofRatio {n : Nat} (hn : 0 < n) (hmax : n ≤ 4096) :
    ∃ num, 0 < num ∧ num ≤ 2 ^ 72 ∧ F64.sqrtNat n = F64.ofRatio false num (2 ^ 65) := by
  have hsq : isqrt (n * 4 ^ 64) * isqrt (n * 4 ^ 64) ≤ n * 4 ^ 64 := isqrtFrom_sq_le _ (Nat.zero_le _)
  rw [F64.sqrtNat]
  generalize isqrt (n * 4 ^ 64) = s at *
  have hs : s ≤ 2 ^ 70 := by
    by_contra! hlt
    have := Nat.mul_self_lt_mul_self hlt
    omega
  refine ⟨_, ?_, ?_, rfl⟩
  · split
    next heq =>
      have hs0 : 0 < s * s := heq ▸ Nat.mul_pos hn (by decide)
      exact Nat.mul_pos two_pos (Nat.pos_of_mul_pos_left hs0)
    next => exact Nat.succ_pos _
  · split <;> omega

theorem F64.isFinite_sqrtNat {n : Nat} (hn : 0 < n) (hmax : n ≤ 4096) : F64.isFinite (F64.sqrtNat n) = true := by
  obtain ⟨num, hnum, hle, heq⟩ := F64.sqrtNat_eq_ofRatio hn hmax
  obtain ⟨hnear, -⟩ := F64.ofRatio_roundsTo hnum (by positivity : 0 < 2 ^ 65)
  have hroot : (num : ℝ) / (2 ^ 65 : Nat) ≤ 2 ^ 7 := by
    rw [div_le_iff₀ (by positivity)]
    exact_mod_cast hle
  have hbound : (2 : ℝ) ^ 7 < 2 ^ 1024 - 2 ^ 970 := by
    rw [lt_sub_iff_add_lt, pow_succ (2 : ℝ) 1023, mul_two]
    exact add_lt_add (pow_lt_pow_right₀ one_lt_two (by decide)) (pow_lt_pow_right₀ one_lt_two (by decide))
  rw [heq]
  exact (hnear ((abs_of_nonneg (by positivity)).trans_lt (hroot.trans_lt hbound))).1

theorem F64.realOf_sqrtNat_pos {n : Nat} (hn : 0 < n) (hmax : n ≤ 4096) : 0 < realOf (F64.sqrtNat n) := by
  obtain ⟨num, hnum, -, heq⟩ := F64.sqrtNat_eq_ofRatio hn hmax
  rw [heq]
  exact F64.realOf_ofRatio_pos hnum (by positivity) (pow_le_pow_right₀ one_le_two (by decide))

end

end Sys2Proof

namespace Sys2Proof.Machine

/-! ### The parameters are in their ranges (00_scope.md R8) -/

theorem two_pow_mem_orders_iff {bps : Nat} : 2 ^ bps ∈ [4, 16, 64, 256] ↔ bps ∈ [2, 4, 6, 8] :=
  List.mem_map_of_injective (l := [2, 4, 6, 8]) (Nat.pow_right_injective le_rfl)

theorem DemapPremises.distinct {T : Type} {P : Params T} {bps i j : Nat} (h : DemapPremises P bps) (hi : i < 2 ^ bps)
    (hj : j < 2 ^ bps) (hne : i ≠ j) : P.point bps i ≠ P.point bps j ∧
      P.num.lt P.num.zero (dist2 P.num (P.point bps i) (P.point bps j)) = true := by
  have hapart := h.apart i hi j hj hne
  refine ⟨fun heq => ?_, hapart⟩
  rw [← heq, h.same i hi] at hapart
  exact Bool.false_ne_true ((h.asymmetric _ _ hapart).symm.trans hapart)

theorem nearTable_f64 {m : Nat} (hlo : 1 ≤ m) (hhi : m ≤ 4) :
    NearTable m (1 / 2 ^ 53) fun i => f64Reading.point (defaultPoint (2 * m) i) := fun i =>
  (pointLevels_mem_romKeys hlo hhi i).imp abs_realOf_levelScalar_sub_le abs_realOf_levelScalar_sub_le

theorem nearTable_exact (m : Nat) : NearTable m 0 fun i => exactReading.point (exactPoint (2 * m) i) := fun i => by
  simp [Reading.point, exactReading]

theorem legal_engineParams : Params.Legal engineParams f64Reading where
  nctx := rfl
  fieldW := rfl
  orders := rfl
  nscMax := by simp
  distinct bps h i hi j hj hne := by
    obtain ⟨m, -, hhi, rfl⟩ := exists_half_of_mem (two_pow_mem_orders_iff.1 h)
    exact (demapPremises_engine hhi).distinct hi hj hne
  unitPower bps h := by
    obtain ⟨m, hlo, hhi, rfl⟩ := exists_half_of_mem (two_pow_mem_orders_iff.1 h)
    exact ((nearTable_f64 hlo hhi).unitPower hlo hhi le_rfl).trans_eq (by norm_num [f64Reading])
  gray bps h i hi j hj hne hmin := by
    obtain ⟨m, hlo, hhi, rfl⟩ := exists_half_of_mem (two_pow_mem_orders_iff.1 h)
    exact (nearTable_f64 hlo hhi).gray hlo hhi le_rfl hi hj hne hmin
  finite bps _ i _ := isFinite_defaultPoint bps i
  pilotRef := by
    have hone : F64.isZero (F64.ofInt 1) = false := by decide +kernel
    exact ⟨show F64.isFinite _ = true ∧ F64.isFinite _ = true by decide +kernel,
      fun h => F64.realOf_ne_zero hone (congrArg Cx.re h)⟩
  txScale N hN hmax := ⟨F64.isFinite_sqrtNat (by omega) hmax, F64.realOf_sqrtNat_pos (by omega) hmax⟩

theorem legal_exactParams {nscMax : Nat} {pilotRef : Cx ℝ} {txScale : Nat → ℝ} (xp : Provider ℝ) (hmin : 4 ≤ nscMax)
    (hmax : nscMax ≤ 2 ^ 28) (hpilot : pilotRef ≠ ⟨0, 0⟩) (hscale : ∀ N, 4 ≤ N → N ≤ nscMax → 0 < txScale N) :
    Params.Legal (exactParams nscMax pilotRef txScale xp) exactReading where
  nctx := rfl
  fieldW := rfl
  orders := rfl
  nscMax := ⟨hmin, hmax⟩
  distinct bps h i hi j hj hne := by
    obtain ⟨m, hlo, -, rfl⟩ := exists_half_of_mem (two_pow_mem_orders_iff.1 h)
    exact (demapPremises_exact _ _ _ _ hlo).distinct hi hj hne
  unitPower bps h := by
    obtain ⟨m, hlo, hhi, rfl⟩ := exists_half_of_mem (two_pow_mem_orders_iff.1 h)
    exact ((nearTable_exact m).unitPower hlo hhi (by positivity)).trans_eq (mul_zero 8)
  gray bps h i hi j hj hne hmin := by
    obtain ⟨m, hlo, hhi, rfl⟩ := exists_half_of_mem (two_pow_mem_orders_iff.1 h)
    exact (nearTable_exact m).gray hlo hhi (by positivity) hi hj hne hmin
  finite _ _ _ _ := ⟨trivial, trivial⟩
  pilotRef := ⟨⟨trivial, trivial⟩, hpilot⟩
  txScale N hN hN' := ⟨trivial, hscale N hN hN'⟩

/-- Settles O28: both tables are near the lattice, whose nearest points are neighbours and whose energies add up. -/
theorem defaultTableContract : Obligations.DefaultTableContract := by
  refine ⟨legal_engineParams, fun _ _ _ xp => legal_exactParams xp, fun order ho => ?_⟩
  obtain ⟨m, hlo, hhi, hm⟩ := exists_half_of_legalOrder ho
  rw [hm]
  refine ⟨fun i j hi hj hne => ⟨((demapPremises_engine hhi).distinct hi hj hne).1,
    two_div_sqrt_energyOf_le_distance hi hj hne, fun h => ?_⟩, sum_exactPoint_sq hlo hhi,
    fun i _ => isFinite_defaultPoint _ i⟩
  refine bitsApart_eq_one_of_distance_lt hlo hhi hi hj hne ?_
  rw [h]
  exact div_lt_div_of_pos_right (by norm_num) (sqrt_energyOf_pos hlo)

end Sys2Proof.Machine

namespace Sys2Proof.Machine

/-! ### The role table -/

theorem getElem?_computeRoles {N P d : Nat} (hd : d < N) : (computeRoles N P)[d]? = some (computeRole N P d) := by
  rw [List.getElem?_eq_getElem (by simpa using hd), getElem_computeRoles]

/-- Settles O16: each entry of the table is `computeRole` of its index. -/
theorem roleTableByIndex : Obligations.RoleTableByIndex :=
  fun N P _ => ⟨length_computeRoles N P, fun _ => getElem?_computeRoles⟩

theorem computeRole_eq_pilot_iff {N P d : Nat} :
    computeRole N P d = .pilot ↔ d ≠ 0 ∧ d ≠ N - 1 ∧ 0 < P ∧ d % P = 0 := by
  unfold computeRole
  split_ifs <;> simp <;> omega

theorem computeRole_eq_guard_iff {N P d : Nat} : computeRole N P d = .guard ↔ d = 0 ∨ d = N - 1 := by
  unfold computeRole
  split_ifs <;> simp_all

/-- The Pilot indices are the positive multiples of P up to N − 2 (43_frame_layout.md R140). -/
theorem mem_pilotIndices_computeRoles {N P d : Nat} :
    d ∈ pilotIndices (computeRoles N P) ↔ 0 < P ∧ P ∣ d ∧ 0 < d ∧ d ≤ N - 2 := by
  rw [pilotIndices, mem_roleIndices, Nat.sub_zero]
  obtain hd | hd := lt_or_ge d N
  · rw [getElem?_computeRoles hd, Option.some.injEq, computeRole_eq_pilot_iff, Nat.dvd_iff_mod_eq_zero]
    omega
  · rw [List.getElem?_eq_none (by simpa using hd)]
    simp only [reduceCtorEq, and_false, false_iff]
    omega

/-- The Pilot indices in order; without pilots, where `(N - 2) / 0 = 0`, there are none. -/
theorem pilotIndices_computeRoles (N P : Nat) :
    pilotIndices (computeRoles N P) = (List.range ((N - 2) / P)).map fun i => (i + 1) * P := by
  obtain rfl | hP := P.eq_zero_or_pos
  · simp [List.eq_nil_iff_forall_not_mem, mem_pilotIndices_computeRoles]
  refine (roleIndices_sorted .pilot 0 _).eq_of_mem_iff ?_ fun d => ?_
  · exact List.pairwise_map.2 (List.pairwise_lt_range.imp fun h => Nat.mul_lt_mul_of_pos_right (Nat.succ_lt_succ h) hP)
  · rw [← pilotIndices, mem_pilotIndices_computeRoles]
    simp only [List.mem_map, List.mem_range]
    constructor
    · rintro ⟨-, ⟨q, rfl⟩, hpos, hle⟩
      have hq : 0 < q := Nat.pos_of_mul_pos_left hpos
      refine ⟨q - 1, ?_, by rw [Nat.sub_add_cancel hq, mul_comm]⟩
      have := (Nat.le_div_iff_mul_le hP).2 ((mul_comm q P).trans_le hle)
      omega
    · rintro ⟨i, hi, rfl⟩
      exact ⟨hP, Nat.dvd_mul_left _ _, by positivity, (Nat.le_div_iff_mul_le hP).1 hi⟩

theorem count_pilot_computeRoles (N P : Nat) : (computeRoles N P).count .pilot = (N - 2) / P := by
  rw [← length_roleIndices .pilot 0, ← pilotIndices, pilotIndices_computeRoles, List.length_map, List.length_range]

theorem count_guard_computeRoles {N : Nat} (P : Nat) (hN : 2 ≤ N) : (computeRoles N P).count .guard = 2 := by
  obtain ⟨d, rfl⟩ := Nat.exists_eq_add_of_le' hN
  have hmiddle : ((List.range d).map fun k => computeRole (d + 2) P (k + 1)).count .guard = 0 := by
    rw [List.count_eq_zero, List.mem_map]
    rintro ⟨k, hk, hguard⟩
    have := computeRole_eq_guard_iff.1 hguard
    have := List.mem_range.1 hk
    omega
  simp [computeRoles_eq_guard_append_guard, hmiddle]

theorem count_guard_add_pilot_add_data (roles : List Role) :
    roles.count .guard + roles.count .pilot + roles.count .data = roles.length := by
  induction roles with
  | nil => rfl
  | cons r rs ih => cases r <;> simp <;> omega

theorem count_data_computeRoles {N : Nat} (P : Nat) (hN : 2 ≤ N) :
    (computeRoles N P).count .data = N - 2 - (N - 2) / P := by
  have htotal := count_guard_add_pilot_add_data (computeRoles N P)
  rw [count_guard_computeRoles P hN, count_pilot_computeRoles, length_computeRoles] at htotal
  omega

/-- Settles O17: the Pilot indices are listed by their multiples, the Guards are the two ends, and the Data indices
are the rest. -/
theorem roleCounts : Obligations.RoleCounts := by
  intro N P hN
  have hquot : (if P = 0 then 0 else (N - 2) / P) = (N - 2) / P := by
    split
    next h => rw [h, Nat.div_zero]
    next => rfl
  rw [hquot]
  exact ⟨count_pilot_computeRoles N P, count_data_computeRoles P (by omega), count_guard_computeRoles P (by omega),
    fun _ => pilotIndices_computeRoles N P⟩

/-! ### A table without Data, and CONSTRUCT -/

theorem count_data_computeRoles_eq_zero_iff {N P : Nat} (hN : 4 ≤ N) :
    (computeRoles N P).count .data = 0 ↔ P = 1 := by
  rw [count_data_computeRoles P (by omega), Nat.sub_eq_zero_iff_le, (Nat.div_le_self _ _).ge_iff_eq,
    Nat.div_eq_self, or_iff_right (by omega)]

section
variable {T : Type} {P : Params T} {xsel : BitVec 1} {order : BitVec 8} {nsc cplen pevery : Word}

theorem buildCtx_eq_error (h : ∀ k, buildCtx P xsel order nsc cplen pevery ≠ .ok k) :
    buildCtx P xsel order nsc cplen pevery = .error .configurationError := by
  cases hk : buildCtx P xsel order nsc cplen pevery with
  | error e => rw [buildCtx_error _ _ _ _ _ _ e hk]
  | ok k => exact absurd hk (h k)

theorem constructCmd_of_ok {k : Ctx} (c : BitVec 1) (ho : legalOrder order = true)
    (hk : buildCtx P xsel order nsc cplen pevery = .ok k) :
    constructCmd P c xsel order nsc cplen pevery = .context c k := by
  simp [constructCmd, ho, hk]

theorem constructCmd_of_error {e : EngineError} (c : BitVec 1) (ho : legalOrder order = true)
    (hk : buildCtx P xsel order nsc cplen pevery = .error e) :
    constructCmd P c xsel order nsc cplen pevery = .fail e := by
  simp [constructCmd, ho, hk]

end

theorem exec_construct (c xsel : BitVec 1) (order : BitVec 8) (nsc cplen pevery : Word) (s : State) :
    exec (.construct c xsel order nsc cplen pevery) s =
      .next (deliver (constructCmd engineParams c xsel order nsc cplen pevery) s) := rfl

/-- Settles O18: at P = 1 every index between the Guards is a Pilot, and of the checks of CONSTRUCT it is the one of
the Data count that fails. -/
theorem zeroDataOnlyAtPeriodOne : Obligations.ZeroDataOnlyAtPeriodOne := by
  refine ⟨fun N P => count_data_computeRoles_eq_zero_iff, fun c x order nsc cplen pevery s ho hN hmax hcp => ?_⟩
  have hdata : (computeRoles nsc.toNat pevery.toNat).count .data = 0 ↔ pevery = 1 := by
    rw [count_data_computeRoles_eq_zero_iff hN, ← BitVec.toNat_inj]
    rfl
  refine ⟨fun hP => ?_, fun hP => ?_⟩
  · have herror : buildCtx engineParams x order nsc cplen pevery = .error .configurationError :=
      buildCtx_eq_error fun k hk => by
        obtain ⟨-, -, -, hne, -⟩ := (buildCtx_ok _ _ _ _ _ _ k).1 hk
        exact hne (hdata.2 hP)
    rw [exec_construct, constructCmd_of_error c ho herror]
    rfl
  · have hok := (buildCtx_ok engineParams x order nsc cplen pevery _).2 ⟨hN, hmax, hcp, mt hdata.1 hP, rfl⟩
    refine ⟨_, by rw [exec_construct, constructCmd_of_ok c ho hok], rfl, ?_⟩
    rw [deliver_context, respond_engine, setCtx_engine, ctx_setCtx_same]

/-! ### Building and parsing a frequency vector -/

section
variable {T : Type} {P : Params T} {k : Ctx}

theorem bitsToFreq_eq_ok_iff {b : List Bool} {V : List (Cx T)} : bitsToFreq P k b = .ok V ↔
    b.length = k.capbits.toNat ∧ fillRoles P k.bits k.roles b = .ok V := by
  unfold bitsToFreq
  split
  next h => simp [h]
  next h => simp [not_not.1 h]

/-- The group of the Data index `d` ends within the bits of all Data indices. -/
theorem rankOf_mul_add_le {roles : List Role} {d : Nat} (hd : roles[d]? = some .data) (bps : Nat) :
    rankOf .data roles d * bps + bps ≤ roles.count .data * bps := by
  rw [← Nat.succ_mul]
  exact Nat.mul_le_mul_right bps (rankOf_lt_count .data roles d hd)

theorem dataIndices_rankOf {roles : List Role} {d : Nat} (hd : roles[d]? = some .data) :
    (dataIndices roles)[rankOf .data roles d]? = some d := by
  rw [dataIndices, roleIndices_rankOf .data roles d 0 hd, Nat.zero_add]

/-- Group `j` of the parsed bits is the group of the sample at the Data index `d_j` (43_frame_layout.md R147). -/
theorem getElem?_freqToBits (V : List (Cx T)) {d b : Nat} (hd : k.roles[d]? = some .data) (hb : b < k.bits) :
    (freqToBits P k V)[rankOf .data k.roles d * k.bits + b]? = (demapBits P k.bits (entryAt P V d))[b]? := by
  refine getElem?_flatMap_group _ k.bits (length_demapBits P k.bits) _ _ b hb _ ?_
  rw [List.getElem?_map, dataIndices_rankOf hd, Option.map_some]

theorem entryAt_samples (inp : Inputs T) {n d : Nat} (hd : d < n) : entryAt P (inp.samples n) d = inp.sample d := by
  simp [entryAt, Inputs.samples, hd]

end

/-! ### The commands B2F and F2B -/

/-- What a command on a context that checks one length answers when a check fails (60_exceptions.md R244). -/
theorem checks_fail_answers (c : BitVec 1) (s : State) (lenIn : Word) (required : Ctx → Word)
    (body : Ctx → Effect F64) :
    let out : Host.Outcome State Fault Refusal :=
      .next (deliver (withContext c s.engine fun k => withLength (lenIn == required k) (body k)) s)
    (Ready s c → lenIn ≠ required (s.engine.ctx c) → out = .next { s with resp := some ⟨0x02, 0⟩ }) ∧
      (¬ Ready s c → out = .next { s with resp := some ⟨0x04, 0⟩ }) := by
  refine ⟨fun hv hlen => ?_, fun hv => ?_⟩
  · rw [checks_length c s.engine (fun k => lenIn == required k) body (beq_eq_false_iff_ne.2 hlen) hv,
      deliver_bufferSizeMismatch]
  · rw [withContext_invalid c s.engine _ (Bool.eq_false_iff.2 hv), deliver_notConstructed]

theorem exec_b2f (c : BitVec 1) (lenIn : Word) (s : State) :
    exec (.b2f c lenIn) s = .next (deliver (b2fCmd engineParams c lenIn s.engine s.inputs) s) := rfl

theorem exec_f2b (c : BitVec 1) (lenIn : Word) (s : State) :
    exec (.f2b c lenIn) s = .next (deliver (f2bCmd engineParams c lenIn s.engine s.inputs) s) := rfl

section
variable {T : Type} {P : Params T} {c : BitVec 1} {e : EngineState} {inp : Inputs T} {lenIn : Word}

theorem b2fCmd_of_ok {V : List (Cx T)} (hv : (e.ctx c).valid = true) (hlen : lenIn = (e.ctx c).capbits)
    (hV : bitsToFreq P (e.ctx c) (inp.bits (e.ctx c).capbits.toNat) = .ok V) :
    b2fCmd P c lenIn e inp = .samples (e.ctx c).nsc V := by
  rw [b2fCmd, checks_pass c e (fun k => lenIn == k.capbits) _ (beq_iff_eq.2 hlen) hv, hV]

theorem f2bCmd_of_length (hv : (e.ctx c).valid = true) (hlen : lenIn = (e.ctx c).nsc) :
    f2bCmd P c lenIn e inp = .bits (e.ctx c).capbits (freqToBits P (e.ctx c) (inp.samples (e.ctx c).n)) := by
  rw [f2bCmd, checks_pass c e (fun k => lenIn == k.nsc) _ (beq_iff_eq.2 hlen) hv]

end

theorem czero_engineParams : czero engineParams.num = ⟨0, 0⟩ := by
  rw [engineParams_num, czero, Num.zero, numF64_ofInt, F64.ofInt_zero]
  rfl

/-- Settles O30: the checks pass or answer, and then the entries are those of `fillRoles_entry`, the group of a Data
index being cut out of `BI`. -/
theorem b2fBuildsFrequencyVector : Obligations.B2fBuildsFrequencyVector := by
  intro c lenIn s k
  refine ⟨fun hk hv hlen => ?_, checks_fail_answers c s lenIn Ctx.capbits _⟩
  obtain ⟨hroles, -, -, hcap⟩ := ctx_numbers engineParams k hk hv
  obtain ⟨V, hV⟩ := bitsToFreq_ok engineParams k _ (length_inputs_bits s.inputs _) hcap
  refine ⟨V, ?_, (length_bitsToFreq engineParams k _ V hV).trans hroles, fun d hd => ?_⟩
  · rw [exec_b2f, b2fCmd_of_ok hv hlen hV, deliver_samples]
  · obtain ⟨-, hfill⟩ := bitsToFreq_eq_ok_iff.1 hV
    obtain ⟨hguard, hpilot, hdata⟩ := fillRoles_entry engineParams k.bits k.roles _ V hfill d (hroles.symm ▸ hd)
    rw [czero_engineParams] at hguard
    refine ⟨hguard, hpilot, fun hrole => ?_⟩
    rw [hdata hrole, engineParams_point,
      inputGroup_sub s _ _ _ ((rankOf_mul_add_le hrole k.bits).trans_eq hcap.symm)]

/-- Settles O31: the checks pass or answer, and then the bits are those of `getElem?_freqToBits`, the entry of a Data
index being the sample of `SI`. -/
theorem f2bReadsDataEntries : Obligations.F2bReadsDataEntries := by
  intro c lenIn s k
  refine ⟨fun hk hv hlen => ?_, checks_fail_answers c s lenIn Ctx.nsc _⟩
  obtain ⟨hroles, -, -, hcap⟩ := ctx_numbers engineParams k hk hv
  refine ⟨freqToBits engineParams k (s.inputs.samples k.n), ?_, ?_, fun d hd b hb => ?_⟩
  · rw [exec_f2b, f2bCmd_of_length hv hlen, deliver_bits]
  · rw [length_freqToBits, hcap]
  · have hlt : d < k.n := hroles ▸ (List.getElem?_eq_some_iff.1 hd).1
    rw [getElem?_freqToBits _ hd hb, entryAt_samples s.inputs hlt, inputs_sample]

/-! ### Parsing a vector that was built -/

section
variable {T : Type} {P : Params T} {bps : Nat}

/-- What the loop of `bitsToFreq` does at one role: at Data it takes a group, elsewhere no bit. -/
theorem fillRoles_cons_cases {r : Role} {rs : List Role} {b : List Bool} {V : List (Cx T)}
    (h : fillRoles P bps (r :: rs) b = .ok V) :
    (r = .data ∧ (b.take bps).length = bps ∧ ∃ W, fillRoles P bps rs (b.drop bps) = .ok W ∧
      V = P.point bps (valOf (b.take bps)) :: W) ∨
    (r ≠ .data ∧ ∃ z W, fillRoles P bps rs b = .ok W ∧ V = z :: W) := by
  have uncons {x : Except EngineError (List (Cx T))} {z : Cx T} (hx : x.map (z :: ·) = .ok V) :
      ∃ W, x = .ok W ∧ V = z :: W := by
    cases x with
    | error e => cases hx
    | ok W => exact ⟨W, rfl, (Except.ok.inj hx).symm⟩
  cases r with
  | guard => exact .inr ⟨nofun, _, uncons h⟩
  | pilot => exact .inr ⟨nofun, _, uncons h⟩
  | data =>
    rw [fillRoles] at h
    obtain ⟨hlen, hm⟩ | ⟨-, hm⟩ := mapGroup_cases P bps (b.take bps) <;> rw [hm] at h
    · exact .inl ⟨rfl, hlen, uncons h⟩
    · cases h

theorem roleIndices_succ (r : Role) (i : Nat) (roles : List Role) :
    roleIndices r (i + 1) roles = (roleIndices r i roles).map (· + 1) := by
  induction roles generalizing i with
  | nil => rfl
  | cons x xs ih =>
    unfold roleIndices
    split <;> simp [ih]

/-- The Data entries of a vector, from its first entry on. -/
theorem map_entryAt_dataIndices_cons (r : Role) (rs : List Role) (z : Cx T) (W : List (Cx T)) :
    (dataIndices (r :: rs)).map (entryAt P (z :: W)) =
      if r = .data then z :: (dataIndices rs).map (entryAt P W) else (dataIndices rs).map (entryAt P W) := by
  have htail : (roleIndices .data (0 + 1) rs).map (entryAt P (z :: W)) = (dataIndices rs).map (entryAt P W) := by
    rw [roleIndices_succ, List.map_map]
    rfl
  rw [dataIndices, roleIndices]
  split
  · rw [List.map_cons, htail]
    rfl
  · exact htail

theorem demapBits_point_valOf (h : DemapPremises P bps) {g : List Bool} (hg : g.length = bps) :
    demapBits P bps (P.point bps (valOf g)) = g := by
  rw [demapBits, demapIdx_point h (hg ▸ valOf_lt g), ← hg, bitsOf_valOf]

/-- Group by group: each Data entry of a built vector gives back the bits that it took. -/
theorem demapAll_dataEntries_of_fillRoles (h : DemapPremises P bps) {roles : List Role} {b : List Bool}
    {V : List (Cx T)} (hb : b.length = roles.count .data * bps) (hV : fillRoles P bps roles b = .ok V) :
    demapAll P bps ((dataIndices roles).map (entryAt P V)) = b := by
  induction roles generalizing b V with
  | nil => exact (List.eq_nil_of_length_eq_zero (hb.trans (Nat.zero_mul bps))).symm
  | cons r rs ih =>
    obtain ⟨rfl, hgroup, W, hW, rfl⟩ | ⟨hr, z, W, hW, rfl⟩ := fillRoles_cons_cases hV
    · have hrest : (b.drop bps).length = rs.count .data * bps := by
        rw [List.length_drop, hb, List.count_cons_self, Nat.succ_mul, Nat.add_sub_cancel]
      rw [map_entryAt_dataIndices_cons, if_pos rfl, demapAll, List.flatMap_cons, demapBits_point_valOf h hgroup,
        ← demapAll, ih hrest hW, List.take_append_drop]
    · rw [List.count_cons_of_ne hr] at hb
      rw [map_entryAt_dataIndices_cons, if_neg hr, ih hb hW]

end

/-- Settles O32: `bitsToFreq` succeeds on `CAPBITS` bits, and parsing undoes its loop. -/
theorem layoutRoundTrip : Obligations.LayoutRoundTrip := by
  intro T P k b hk hv hpremises hb
  obtain ⟨-, -, -, hcap⟩ := ctx_numbers P k hk hv
  obtain ⟨V, hV⟩ := bitsToFreq_ok P k b hb hcap
  obtain ⟨-, hfill⟩ := bitsToFreq_eq_ok_iff.1 hV
  exact ⟨V, hV, demapAll_dataEntries_of_fillRoles hpremises (hb.trans hcap) hfill⟩

end Sys2Proof.Machine

namespace Sys2Proof.Machine

/-! ### The wrapper commands XFWD and XINV -/

theorem exec_xfwd (c : BitVec 1) (lenIn : Word) (s : State) :
    exec (.xfwd c lenIn) s = .next (deliver (wrapperCmd engineParams .forward c lenIn s.engine s.inputs) s) := rfl

theorem exec_xinv (c : BitVec 1) (lenIn : Word) (s : State) :
    exec (.xinv c lenIn) s = .next (deliver (wrapperCmd engineParams .inverse c lenIn s.engine s.inputs) s) := rfl

theorem providerOf_engineParams (k : Ctx) :
    providerOf engineParams k = if k.xsel = 0 then directProvider numF64 twiddle else Config.xp := rfl

theorem wrapperCmd_of_length {T : Type} {P : Params T} (dir : Dir) {c : BitVec 1} {lenIn : Word} {e : EngineState}
    (inp : Inputs T) (hv : (e.ctx c).valid = true) (hlen : lenIn = (e.ctx c).nsc) :
    wrapperCmd P dir c lenIn e inp =
      .samples (e.ctx c).nsc (askProvider (providerOf P (e.ctx c)) dir (inp.samples (e.ctx c).n)) := by
  rw [wrapperCmd, checks_pass c e (fun k => lenIn == k.nsc) _ (beq_iff_eq.2 hlen) hv]

/-- The wrapper of either direction delivers the entries of the selected provider (44_transform_provider.md R167). -/
theorem wrapper_delivers_answer (dir : Dir) {c : BitVec 1} {lenIn : Word} {s : State} (hv : Ready s c)
    (hlen : lenIn = (s.engine.ctx c).nsc) :
    let k := s.engine.ctx c
    ∃ X : List Sample,
      deliver (wrapperCmd engineParams dir c lenIn s.engine s.inputs) s = respond k.nsc (writeSO X s) ∧
        X.length = k.nsc.toNat ∧
        ∀ j, j < k.nsc.toNat →
          X[j]? = some (providerOf engineParams k dir k.nsc.toNat (s.inputs.samples k.nsc.toNat) j) := by
  intro k
  refine ⟨askProvider (providerOf engineParams k) dir (s.inputs.samples k.n), ?_, ?_, fun j hj => ?_⟩
  · rw [wrapperCmd_of_length dir s.inputs hv hlen, deliver_samples]
  · rw [length_askProvider, length_inputs_samples, Ctx.n]
  · exact getElem?_askProvider _ dir _ k.n (length_inputs_samples s.inputs k.n) j hj

/-- Settles O33: in either direction the checks pass or answer, and then the samples are the selected provider's. -/
theorem wrapperAnswersProvider : Obligations.WrapperAnswersProvider := by
  intro c lenIn s k prov x
  have hfails (dir : Dir) := checks_fail_answers c s lenIn Ctx.nsc fun k =>
    .samples k.nsc (askProvider (providerOf engineParams k) dir (s.inputs.samples k.n))
  refine ⟨fun hv hlen => ?_, fun hv hlen => ⟨(hfails .forward).1 hv hlen, (hfails .inverse).1 hv hlen⟩,
    fun hv => ⟨(hfails .forward).2 hv, (hfails .inverse).2 hv⟩⟩
  obtain ⟨X, hX, hforward⟩ := wrapper_delivers_answer .forward hv hlen
  obtain ⟨Y, hY, hinverse⟩ := wrapper_delivers_answer .inverse hv hlen
  exact ⟨⟨X, by rw [exec_xfwd, hX], hforward⟩, ⟨Y, by rw [exec_xinv, hY], hinverse⟩⟩

/-! ### Samples of `NUM_EXACT` as complex numbers -/

theorem complexOf_injective : Function.Injective complexOf := by
  rintro ⟨a, b⟩ ⟨c, d⟩ h
  obtain ⟨hre, him⟩ := Complex.ext_iff.1 h
  exact congrArg₂ Cx.mk hre him

@[simp] theorem complexOf_zero : complexOf ⟨0, 0⟩ = 0 := rfl

@[simp] theorem complexOf_czero : complexOf (czero numExact) = 0 := by simp [czero]

@[simp] theorem complexOf_cadd (z w : Cx ℝ) : complexOf (cadd numExact z w) = complexOf z + complexOf w := rfl

@[simp] theorem complexOf_cmul (z w : Cx ℝ) : complexOf (cmul numExact z w) = complexOf z * complexOf w := rfl

@[simp] theorem complexOf_cscale (a : ℝ) (z : Cx ℝ) : complexOf (cscale numExact a z) = a * complexOf z := by
  apply Complex.ext <;> simp [complexOf, cscale]

@[simp] theorem complexOf_conjugate (z : Cx ℝ) :
    complexOf (conjugate numExact z) = starRingEnd ℂ (complexOf z) := by
  apply Complex.ext <;> simp [complexOf, conjugate]

/-! ### The default provider sums the discrete Fourier transform (44_transform_provider.md R165) -/

/-- The sum over the reals, whatever function `w` of the residues the twiddle table is. -/
theorem complexOf_directSum {N : Nat} {tw : Nat → Cx ℝ} {w : ZMod N → ℂ} (htw : ∀ m : Nat, complexOf (tw m) = w m)
    (k n : Nat) (acc : Cx ℝ) (x : List (Cx ℝ)) :
    complexOf (directSum numExact tw N k n acc x) = complexOf acc +
      ∑ i ∈ Finset.range x.length, complexOf (x.getD i ⟨0, 0⟩) * w (k * (i + n)) := by
  induction x generalizing n acc with
  | nil => simp [directSum]
  | cons z zs ih =>
    rw [directSum, ih, List.length_cons, Finset.sum_range_succ', complexOf_cadd, complexOf_cmul, htw]
    simp [add_assoc, add_comm, add_left_comm]

section
variable {N : Nat} [NeZero N]

/-- The factor e^(−2πjm/N) of the forward transform, and its conjugate of the inverse, by the residue `m`. -/
noncomputable def fourierFactor : Dir → ZMod N → ℂ
  | .forward, m => ZMod.stdAddChar (-m)
  | .inverse, m => ZMod.stdAddChar m

theorem exp_eq_stdAddChar (σ : ℤ) (m : Nat) :
    Complex.exp ((σ * (2 * Real.pi * m / N) : ℝ) * Complex.I) = ZMod.stdAddChar ((σ * m : ℤ) : ZMod N) := by
  rw [ZMod.stdAddChar_coe]
  push_cast
  congr 1
  ring

theorem fourierSum_eq_sum_fourierFactor (dir : Dir) (x : List (Cx ℝ)) (k : Nat) :
    fourierSum dir N x k =
      ∑ n ∈ Finset.range N, complexOf (x.getD n ⟨0, 0⟩) * fourierFactor dir (k * n : ZMod N) := by
  refine Finset.sum_congr rfl fun n _ => congrArg _ ?_
  cases dir with
  | forward => simpa [fourierFactor, mul_assoc] using exp_eq_stdAddChar (N := N) (-1) (k * n)
  | inverse => simpa [fourierFactor, mul_assoc] using exp_eq_stdAddChar (N := N) 1 (k * n)

theorem complexOf_exactTwiddle (m : Nat) : complexOf (exactTwiddle N m) = fourierFactor .forward (m : ZMod N) := by
  have h := exp_eq_stdAddChar (N := N) (-1) m
  rw [Int.cast_neg, Int.cast_one, neg_one_mul, neg_one_mul, Int.cast_neg, Int.cast_natCast] at h
  rw [fourierFactor, ← h]
  apply Complex.ext
  · rw [Complex.exp_ofReal_mul_I_re, Real.cos_neg]
    rfl
  · rw [Complex.exp_ofReal_mul_I_im, Real.sin_neg]
    rfl

theorem complexOf_conjugate_exactTwiddle (m : Nat) :
    complexOf (conjugate numExact (exactTwiddle N m)) = fourierFactor .inverse (m : ZMod N) := by
  rw [complexOf_conjugate, complexOf_exactTwiddle, fourierFactor, fourierFactor, ← AddChar.map_neg_eq_conj, neg_neg]

theorem complexOf_directSum_eq_fourierSum {dir : Dir} {tw : Nat → Cx ℝ}
    (htw : ∀ m : Nat, complexOf (tw m) = fourierFactor dir (m : ZMod N)) (k : Nat) {x : List (Cx ℝ)}
    (hx : x.length = N) :
    complexOf (directSum numExact tw N k 0 (czero numExact) x) = fourierSum dir N x k := by
  rw [complexOf_directSum htw, fourierSum_eq_sum_fourierFactor, hx]
  simp

/-- The default provider's convention: unscaled forward, 1/N inverse. -/
theorem exactProvider_convention : ProviderConvention exactProvider N 1 (1 / N) := by
  have hN : (0 : ℝ) < N := Nat.cast_pos.2 (NeZero.pos N)
  refine ⟨one_pos, one_div_pos.2 hN, one_mul _, fun x hx k _ => ⟨?_, ?_⟩⟩
  · rw [exactProvider, directProvider, complexOf_directSum_eq_fourierSum complexOf_exactTwiddle k hx]
    simp
  · rw [exactProvider, directProvider, complexOf_cscale,
      complexOf_directSum_eq_fourierSum complexOf_conjugate_exactTwiddle k hx]
    simp [hN.ne']

end

theorem neZero_of_one_le {N : Nat} (hN : 1 ≤ N) : NeZero N := ⟨Nat.one_le_iff_ne_zero.1 hN⟩

/-- Settles O34: both clauses are the default provider's convention. -/
theorem exactDefaultProviderIsDft : Obligations.ExactDefaultProviderIsDft := by
  intro N x k hN hx hk
  have := neZero_of_one_le hN
  obtain ⟨-, -, -, hentry⟩ := exactProvider_convention (N := N)
  obtain ⟨hforward, hinverse⟩ := hentry x hx k hk
  exact ⟨by simpa [fourierSum] using hforward, by simpa [fourierSum] using hinverse⟩

/-! ### A convention on signals, the functions on the residues modulo N -/

/-- The signal of a request of length `N`. -/
noncomputable def signal (N : Nat) (x : List (Cx ℝ)) (j : ZMod N) : ℂ := complexOf (x.getD j.val ⟨0, 0⟩)

section
variable {N : Nat} [NeZero N]

theorem sum_range_eq_sum_zmod (f : Nat → ℂ) : ∑ n ∈ Finset.range N, f n = ∑ j : ZMod N, f j.val :=
  Finset.sum_nbij' (fun n => (n : ZMod N)) ZMod.val (fun _ _ => Finset.mem_univ _)
    (fun j _ => Finset.mem_range.2 j.val_lt) (fun n hn => ZMod.val_cast_of_lt (Finset.mem_range.1 hn))
    (fun j _ => ZMod.natCast_zmod_val j) fun n hn => by rw [ZMod.val_cast_of_lt (Finset.mem_range.1 hn)]

theorem signal_eq_getElem {x : List (Cx ℝ)} (hx : x.length = N) (j : ZMod N) :
    signal N x j = complexOf (x[j.val]'(hx ▸ j.val_lt)) := by
  rw [signal, List.getD_eq_getElem]

theorem signal_injective {x y : List (Cx ℝ)} (hx : x.length = N) (hy : y.length = N) (h : signal N x = signal N y) :
    x = y := by
  refine List.ext_getElem (hx.trans hy.symm) fun i hi _ => complexOf_injective ?_
  have hval : ((i : ZMod N)).val = i := ZMod.val_cast_of_lt (hx ▸ hi)
  simpa only [signal_eq_getElem hx, signal_eq_getElem hy, hval] using congrFun h i

theorem signal_map_cmul (h : Cx ℝ) {x : List (Cx ℝ)} (hx : x.length = N) :
    signal N (x.map (cmul numExact h)) = complexOf h • signal N x := by
  funext j
  simp [signal_eq_getElem, hx]

theorem signal_zipWith_cadd {x y : List (Cx ℝ)} (hx : x.length = N) (hy : y.length = N) :
    signal N (List.zipWith (cadd numExact) x y) = signal N x + signal N y := by
  funext j
  simp [signal_eq_getElem, hx, hy]

theorem fourierSum_forward_eq_dft (x : List (Cx ℝ)) (k : ZMod N) :
    fourierSum .forward N x k.val = ZMod.dft (signal N x) k := by
  rw [fourierSum_eq_sum_fourierFactor, sum_range_eq_sum_zmod, ZMod.dft_apply]
  simp [fourierFactor, signal, mul_comm]

theorem fourierSum_inverse_eq_invDFT (x : List (Cx ℝ)) (k : ZMod N) :
    fourierSum .inverse N x k.val = N * ZMod.dft.symm (signal N x) k := by
  rw [fourierSum_eq_sum_fourierFactor, sum_range_eq_sum_zmod, ZMod.invDFT_apply, smul_eq_mul,
    mul_inv_cancel_left₀ (NeZero.ne _)]
  simp [fourierFactor, signal, mul_comm]

/-- What a provider of the convention `aF`, `aI` does to a signal, as a linear map. -/
noncomputable def conventionMap (N : Nat) [NeZero N] (aF aI : ℝ) : Dir → (ZMod N → ℂ) →ₗ[ℂ] (ZMod N → ℂ)
  | .forward => (aF : ℂ) • (ZMod.dft : (ZMod N → ℂ) ≃ₗ[ℂ] (ZMod N → ℂ)).toLinearMap
  | .inverse => (aI * N : ℂ) • (ZMod.dft : (ZMod N → ℂ) ≃ₗ[ℂ] (ZMod N → ℂ)).symm.toLinearMap

section
variable {p q : Provider ℝ} {aF aI : ℝ}

theorem conventionMap_forward (Φ : ZMod N → ℂ) : conventionMap N aF aI .forward Φ = (aF : ℂ) • ZMod.dft Φ := rfl

theorem conventionMap_inverse (Φ : ZMod N → ℂ) :
    conventionMap N aF aI .inverse Φ = (aI * N : ℂ) • ZMod.dft.symm Φ := rfl

theorem signal_askProvider (h : ProviderConvention p N aF aI) (dir : Dir) {x : List (Cx ℝ)} (hx : x.length = N) :
    signal N (askProvider p dir x) = conventionMap N aF aI dir (signal N x) := by
  obtain ⟨-, -, -, hentry⟩ := h
  funext k
  obtain ⟨hforward, hinverse⟩ := hentry x hx k.val k.val_lt
  have hk : signal N (askProvider p dir x) k = complexOf (p dir N x k.val) := by
    rw [signal_eq_getElem (by simpa using hx)]
    simp [askProvider, hx]
  cases dir with
  | forward => rw [hk, hforward, fourierSum_forward_eq_dft, conventionMap_forward, Pi.smul_apply, smul_eq_mul]
  | inverse =>
    rw [hk, hinverse, fourierSum_inverse_eq_invDFT, conventionMap_inverse, Pi.smul_apply, smul_eq_mul, mul_assoc]

/-- Fourier inversion, the factors of a convention and the sum's `N` making up 1. -/
theorem conventionMap_conventionMap (h : ProviderConvention p N aF aI) (Φ : ZMod N → ℂ) :
    conventionMap N aF aI .forward (conventionMap N aF aI .inverse Φ) = Φ ∧
      conventionMap N aF aI .inverse (conventionMap N aF aI .forward Φ) = Φ := by
  obtain ⟨-, -, hprod, -⟩ := h
  have hone : (aF : ℂ) * (aI * N) = 1 := by
    rw [← mul_assoc, ← Complex.ofReal_mul, hprod]
    simp
  rw [conventionMap_forward, conventionMap_inverse, conventionMap_inverse, conventionMap_forward, map_smul, map_smul,
    smul_smul, smul_smul, mul_comm (aI * N : ℂ), hone, one_smul, one_smul]
  exact ⟨ZMod.dft.apply_symm_apply Φ, ZMod.dft.symm_apply_apply Φ⟩

theorem askProvider_askProvider (hp : ProviderConvention p N aF aI) (hq : ProviderConvention q N aF aI)
    {x : List (Cx ℝ)} (hx : x.length = N) :
    askProvider q .forward (askProvider p .inverse x) = x ∧ askProvider q .inverse (askProvider p .forward x) = x := by
  have hlen (dir : Dir) : (askProvider p dir x).length = N := (length_askProvider p dir x).trans hx
  obtain ⟨hforward, hinverse⟩ := conventionMap_conventionMap hp (signal N x)
  refine ⟨signal_injective (by simp [hx]) hx ?_, signal_injective (by simp [hx]) hx ?_⟩
  · rw [signal_askProvider hq .forward (hlen .inverse), signal_askProvider hp .inverse hx, hforward]
  · rw [signal_askProvider hq .inverse (hlen .forward), signal_askProvider hp .forward hx, hinverse]

theorem providerPair_of_convention (h : ProviderConvention p N aF aI) : ProviderPair p N :=
  fun _ hx => (askProvider_askProvider h h hx).symm

theorem providerScales_of_convention (h : ProviderConvention p N aF aI) : ProviderScales p N := by
  intro dir z x hx
  refine signal_injective (by simpa using hx) (by simpa using hx) ?_
  rw [signal_askProvider h dir (by simpa using hx), signal_map_cmul z hx, map_smul,
    signal_map_cmul z (by simpa using hx), signal_askProvider h dir hx]

theorem askProvider_zipWith_cadd (h : ProviderConvention p N aF aI) (dir : Dir) {x y : List (Cx ℝ)}
    (hx : x.length = N) (hy : y.length = N) :
    askProvider p dir (List.zipWith (cadd numExact) x y) =
      List.zipWith (cadd numExact) (askProvider p dir x) (askProvider p dir y) := by
  refine signal_injective (N := N) (by simp [hx, hy]) (by simp [hx, hy]) ?_
  rw [signal_askProvider h dir (by simp [hx, hy]), signal_zipWith_cadd hx hy, map_add,
    signal_zipWith_cadd (by simp [hx]) (by simp [hy]), signal_askProvider h dir hx, signal_askProvider h dir hy]

end

end

theorem exactProvider_laws (N : Nat) (hN : 1 ≤ N) :
    ProviderPair exactProvider N ∧ ProviderDft exactProvider N ∧ ProviderScales exactProvider N :=
  have := neZero_of_one_le hN
  have h : ProviderConvention exactProvider N 1 (1 / N) := exactProvider_convention
  ⟨providerPair_of_convention h, ⟨_, _, h⟩, providerScales_of_convention h⟩

theorem exactProvider_contract (nscMax : Nat) : ProviderContract exactProvider nscMax where
  pair N hN _ := let ⟨hpair, _, _⟩ := exactProvider_laws N (by omega); hpair
  dft N hN _ := let ⟨_, hdft, _⟩ := exactProvider_laws N (by omega); hdft
  linear N hN _ := let ⟨_, _, hscales⟩ := exactProvider_laws N (by omega); hscales

/-- Settles O35: on signals a convention is a multiple of the discrete Fourier transform, a linear map, whose factors
cancel in the product with the inverse. -/
theorem dftProvidersMeetContract : Obligations.DftProvidersMeetContract := by
  refine ⟨exactProvider_laws, exactProvider_contract, fun p N hN ⟨aF, aI, h⟩ => ?_,
    fun p q N aF aI hN hp hq X hX => ?_⟩
  · have := neZero_of_one_le hN
    exact ⟨providerPair_of_convention h, providerScales_of_convention h,
      fun dir _ _ hx hy => askProvider_zipWith_cadd h dir hx hy⟩
  · have := neZero_of_one_le hN
    exact askProvider_askProvider hp hq hX

end Sys2Proof.Machine

namespace Sys2Proof.Machine

/-! ### The laws of `prepend` and `strip` -/

section
variable {α : Type} {x : List α} {L i : Nat}

theorem getElem?_prepend_prefix (hL : L ≤ x.length) (hi : i < L) :
    (prepend x L)[i]? = x[x.length - L + i]? := by
  rw [getElem?_prepend x L i hL, if_pos hi]

theorem getElem?_prepend_rest (hL : L ≤ x.length) (hi : L ≤ i) : (prepend x L)[i]? = x[i - L]? := by
  rw [getElem?_prepend x L i hL, if_neg hi.not_gt]

theorem getElem?_strip (x : List α) (L i : Nat) : (strip x L)[i]? = x[L + i]? := List.getElem?_drop

theorem strip_prepend (hL : L ≤ x.length) : strip (prepend x L) L = x :=
  List.drop_left' (by rw [List.length_drop, Nat.sub_sub_self hL])

@[simp] theorem prepend_zero (x : List α) : prepend x 0 = x := by
  rw [prepend, Nat.sub_zero, List.drop_length, List.nil_append]

@[simp] theorem strip_zero (x : List α) : strip x 0 = x := List.drop_zero

theorem prepend_repeats_tail (hL : L ≤ x.length) (hi : i < L) :
    (prepend x L)[i]? = (prepend x L)[i + x.length]? := by
  rw [getElem?_prepend_prefix hL hi, getElem?_prepend_rest hL (by omega), Nat.add_comm i, Nat.sub_add_comm hL]

/-- Prepending restores what was stripped when the prefix is what it copies: the last `L` samples of the rest. -/
theorem prepend_strip_eq_iff_drop_eq_take :
    prepend (strip x L) L = x ↔ x.drop (L + (x.length - L - L)) = x.take L := by
  conv_lhs => rhs; rw [← List.take_append_drop L x]
  rw [prepend, length_strip, strip, List.drop_drop, List.append_left_inj]

theorem prepend_strip_eq_iff (hL : L ≤ x.length) :
    prepend (strip x L) L = x ↔ 2 * L ≤ x.length ∧ x.take L = x.drop (x.length - L) := by
  rw [prepend_strip_eq_iff_drop_eq_take]
  by_cases h : 2 * L ≤ x.length
  · have hstart : L + (x.length - L - L) = x.length - L := by omega
    rw [hstart, and_iff_right h, eq_comm]
  · refine iff_of_false (fun heq => ?_) fun hand => h hand.1
    have hlen := congrArg List.length heq
    rw [List.length_drop, List.length_take] at hlen
    omega

end

/-- Settles O38: the law on `prepend` after `strip` compares the copied samples with the stripped ones. -/
theorem prefixLaws : Obligations.PrefixLaws := fun _ x L hL =>
  ⟨length_prepend x L hL, length_strip x L, strip_prepend hL, prepend_zero x, strip_zero x,
    fun _ hi => prepend_repeats_tail hL hi, prepend_strip_eq_iff hL⟩

/-! ### The commands CPADD and CPSTRIP -/

theorem exec_cpadd (c : BitVec 1) (lenIn : Word) (s : State) :
    exec (.cpadd c lenIn) s = .next (deliver (cpaddCmd c lenIn s.engine s.inputs) s) := rfl

theorem exec_cpstrip (c : BitVec 1) (lenIn : Word) (s : State) :
    exec (.cpstrip c lenIn) s = .next (deliver (cpstripCmd c lenIn s.engine s.inputs) s) := rfl

section
variable {T : Type} {c : BitVec 1} {e : EngineState} {lenIn : Word} (inp : Inputs T)

theorem getElem?_inputs_samples {n i : Nat} (hi : i < n) : (inp.samples n)[i]? = some (inp.sample i) := by
  rw [Inputs.samples, List.getElem?_map, List.getElem?_range hi, Option.map_some]

theorem cpaddCmd_of_length (hv : (e.ctx c).valid = true) (hlen : lenIn = (e.ctx c).nsc) :
    cpaddCmd c lenIn e inp =
      .samples ((e.ctx c).nsc + (e.ctx c).cplen) (prepend (inp.samples (e.ctx c).n) (e.ctx c).cp) := by
  rw [cpaddCmd, checks_pass c e (fun k => lenIn == k.nsc) _ (beq_iff_eq.2 hlen) hv]

theorem cpstripCmd_of_length (hv : (e.ctx c).valid = true) (hlen : lenIn = (e.ctx c).symlen) :
    cpstripCmd c lenIn e inp =
      .samples (e.ctx c).nsc (strip (inp.samples ((e.ctx c).n + (e.ctx c).cp)) (e.ctx c).cp) := by
  rw [cpstripCmd, checks_pass c e (fun k => lenIn == k.symlen) _ (beq_iff_eq.2 hlen) hv]

end

/-- Settles O36: the checks pass or answer, and then the samples are those of `prepend` on `SI[0..N)`, the prefix
being shorter than the symbol. -/
theorem cpaddCopies : Obligations.CpaddCopies := by
  intro c lenIn s k
  refine ⟨fun hk hv hlen => ?_, checks_fail_answers c s lenIn Ctx.nsc _⟩
  obtain ⟨-, hcp, -, -⟩ := ctx_numbers engineParams k hk hv
  have hN : (s.inputs.samples k.n).length = k.n := length_inputs_samples s.inputs k.n
  have hL : k.cp ≤ (s.inputs.samples k.n).length := hcp.le.trans_eq hN.symm
  refine ⟨prepend (s.inputs.samples k.n) k.cp, ?_, ?_, fun i hi => ?_, fun i hlo hhi => ?_⟩
  · rw [exec_cpadd, cpaddCmd_of_length s.inputs hv hlen, deliver_samples, nsc_add_cplen engineParams k hk hv]
  · rw [length_prepend _ _ hL, hN, Ctx.n, Ctx.cp]
  · have hlt : k.n - k.cp + i < k.n := by unfold Ctx.cp at *; omega
    rw [getElem?_prepend_prefix hL hi, hN, getElem?_inputs_samples s.inputs hlt, inputs_sample, Ctx.n, Ctx.cp]
  · have hlt : i - k.cp < k.n := by unfold Ctx.n Ctx.cp at *; omega
    rw [getElem?_prepend_rest hL hlo, getElem?_inputs_samples s.inputs hlt, inputs_sample, Ctx.cp]

/-- Settles O37: the checks pass or answer, and then the samples are those of `strip` on `SI[0..N + CP)`. -/
theorem cpstripCopies : Obligations.CpstripCopies := by
  intro c lenIn s k
  refine ⟨fun _ hv hlen => ?_, checks_fail_answers c s lenIn Ctx.symlen _⟩
  refine ⟨strip (s.inputs.samples (k.n + k.cp)) k.cp, ?_, ?_, fun i hi => ?_⟩
  · rw [exec_cpstrip, cpstripCmd_of_length s.inputs hv hlen, deliver_samples]
  · rw [length_strip, length_inputs_samples, Nat.add_sub_cancel, Ctx.n]
  · have hlt : k.cp + i < k.n + k.cp := by unfold Ctx.n; omega
    rw [getElem?_strip, getElem?_inputs_samples s.inputs hlt, inputs_sample, Ctx.cp]

end Sys2Proof.Machine

namespace Sys2Proof.Machine

/-! ### CONSTRUCT and the accessors -/

/-- Settles O15: the checks are those of `buildCtx_ok`, and the context that they let pass meets its invariant, so that
no derived count overflows. -/
theorem constructWritesContext : Obligations.ConstructWritesContext := by
  intro c x order nsc cplen pevery s ho
  refine ⟨fun hN hmax hcp hdata => ?_, fun hbad => ?_⟩
  · have hok := (buildCtx_ok engineParams x order nsc cplen pevery _).2 ⟨hN, hmax, hcp, hdata, rfl⟩
    have hinv := buildCtx_invFor engineParams (by decide) ho hok
    obtain ⟨-, -, -, -, -, hsym, hroles, hpilot, hndata, -, -⟩ := hinv rfl
    obtain ⟨-, -, -, hcap⟩ := ctx_numbers engineParams _ hinv rfl
    refine ⟨_, ?_, rfl, rfl, rfl, rfl, rfl, rfl, rfl, hsym, hroles, hpilot, hndata, hcap⟩
    rw [exec_construct, constructCmd_of_ok c ho hok]
    rfl
  · have herror := buildCtx_eq_error (P := engineParams) (xsel := x) (order := order) (nsc := nsc) (cplen := cplen)
      (pevery := pevery) fun k hk => by
        obtain ⟨hN, hmax, hcp, hdata, -⟩ := (buildCtx_ok _ _ _ _ _ _ k).1 hk
        omega
    rw [exec_construct, constructCmd_of_error c ho herror]
    rfl

theorem exec_getsymlen (c : BitVec 1) (s : State) :
    exec (.getsymlen c) s = .next (deliver (withContext c s.engine fun k => .answer k.symlen) s) := rfl

theorem exec_getcap (c : BitVec 1) (s : State) :
    exec (.getcap c) s = .next (deliver (withContext c s.engine fun k => .answer k.capbits) s) := rfl

/-- An accessor answers the field of a constructed context, and its one error on any other. -/
theorem accessor_answers (c : BitVec 1) (s : State) (field : Ctx → Word) :
    let t := deliver (withContext c s.engine fun k => .answer (field k)) s
    (Ready s c → t = { s with resp := some ⟨0, field (s.engine.ctx c)⟩ }) ∧
      (¬ Ready s c → t = { s with resp := some ⟨0x04, 0⟩ }) := by
  refine ⟨fun hv => ?_, fun hv => ?_⟩
  · rw [withContext_valid c s.engine _ hv]
    rfl
  · rw [withContext_invalid c s.engine _ (Bool.eq_false_iff.2 hv), deliver_notConstructed]

/-- Settles O19: both accessors are `accessor_answers`, and the laws are those of a constructed context. -/
theorem accessorsAnswer : Obligations.AccessorsAnswer := by
  intro c s
  obtain ⟨hsym, hsym'⟩ := accessor_answers c s Ctx.symlen
  obtain ⟨hcap, hcap'⟩ := accessor_answers c s Ctx.capbits
  rw [exec_getsymlen, exec_getcap]
  refine ⟨fun hv => ⟨congrArg _ (hsym hv), congrArg _ (hcap hv)⟩,
    fun hv => ⟨congrArg _ (hsym' hv), congrArg _ (hcap' hv)⟩, fun hs hv => ?_⟩
  obtain ⟨hctx, -⟩ := (State.invFor_iff engineParams s).1 hs
  obtain ⟨-, -, hsymlen, hcapbits⟩ := ctx_numbers engineParams _ (hctx c) hv
  exact ⟨hsymlen, hcapbits⟩

/-- Settles O56: CONSTRUCT fails or writes the context it names (`constructCmd_cases`), and an accessor answers a
response alone. -/
theorem constructAndQueriesFrame : Obligations.ConstructAndQueriesFrame := by
  refine ⟨fun c x order n l p s t h => ?_, fun c s t i hi h => ?_⟩
  · obtain rfl := Host.Outcome.next.inj h
    obtain ⟨err, hf⟩ | ⟨k, hk⟩ := constructCmd_cases engineParams c x order n l p
    · rw [hf]
      exact ⟨rfl, fun _ _ => rfl⟩
    · rw [hk]
      exact ⟨rfl, fun c' hc' => ctx_setCtx_other s.engine c c' k hc'⟩
  · have hanswer (field : Ctx → Word) :
        let t := deliver (withContext c s.engine fun k => .answer (field k)) s
        t = { s with resp := t.resp } := by
      obtain ⟨hready, hnot⟩ := accessor_answers c s field
      by_cases hv : Ready s c
      · rw [hready hv]
      · rw [hnot hv]
    obtain rfl | rfl := List.mem_pair.1 hi <;> obtain rfl := Host.Outcome.next.inj h
    · exact hanswer Ctx.symlen
    · exact hanswer Ctx.capbits

/-! ### MODULATE -/

theorem exec_modulate (c : BitVec 1) (lenIn lenOut : Word) (s : State) :
    exec (.modulate c lenIn lenOut) s =
      .next (deliver (modulateCmd engineParams c lenIn lenOut s.engine s.inputs) s) := rfl

section
variable {T : Type} {P : Params T} {c : BitVec 1} {e : EngineState} {lenIn lenOut : Word}

/-- Steps 2 and 3 of MODULATE on the frequency vector `V`: inverse transform and scale (46_modulator.md R196). -/
def coreSamples (P : Params T) (k : Ctx) (V : List (Cx T)) : List (Cx T) :=
  (askProvider (providerOf P k) .inverse V).map (cscale P.num (P.txScale k.n))

/-- Steps 2 to 4: the core samples behind a copy of the last ones. -/
def symbolOf (P : Params T) (k : Ctx) (V : List (Cx T)) : List (Cx T) := prepend (coreSamples P k V) k.cp

@[simp] theorem length_coreSamples (P : Params T) (k : Ctx) (V : List (Cx T)) :
    (coreSamples P k V).length = V.length := by
  rw [coreSamples, List.length_map, length_askProvider]

theorem modulateSymbol_of_ok {k : Ctx} {b : List Bool} {V : List (Cx T)} (hV : bitsToFreq P k b = .ok V) :
    modulateSymbol P k b = .ok (symbolOf P k V) := by
  rw [modulateSymbol, hV]
  rfl

theorem modulateCmd_of_ok {inp : Inputs T} {V : List (Cx T)} (hv : (e.ctx c).valid = true)
    (hin : lenIn = (e.ctx c).capbits) (hout : lenOut = (e.ctx c).symlen)
    (hV : bitsToFreq P (e.ctx c) (inp.bits (e.ctx c).capbits.toNat) = .ok V) :
    modulateCmd P c lenIn lenOut e inp = .samples 0 (symbolOf P (e.ctx c) V) := by
  have hok : (lenIn == (e.ctx c).capbits && lenOut == (e.ctx c).symlen) = true := by simp [hin, hout]
  rw [modulateCmd, checks_pass c e (fun k => lenIn == k.capbits && lenOut == k.symlen) _ hok hv,
    modulateSymbol_of_ok hV]

theorem modulateCmd_of_length_ne (inp : Inputs T) (hv : (e.ctx c).valid = true)
    (hlen : lenIn ≠ (e.ctx c).capbits ∨ lenOut ≠ (e.ctx c).symlen) :
    modulateCmd P c lenIn lenOut e inp = .fail .bufferSizeMismatch := by
  have hok : (lenIn == (e.ctx c).capbits && lenOut == (e.ctx c).symlen) = false := by
    simpa [← not_and_or] using hlen
  rw [modulateCmd, checks_length c e (fun k => lenIn == k.capbits && lenOut == k.symlen) _ hok hv]

theorem modulateCmd_of_invalid (inp : Inputs T) (hv : (e.ctx c).valid = false) :
    modulateCmd P c lenIn lenOut e inp = .fail .notConstructed := by
  rw [modulateCmd, withContext_invalid c e _ hv]

/-- MODULATE sees of the engine state its context alone, and of `BI` the declared bits alone. -/
theorem modulateCmd_congr {c' : BitVec 1} {e' : EngineState} {inp inp' : Inputs T} (hctx : e.ctx c = e'.ctx c')
    (hbits : ∀ j, j < lenIn.toNat → inp.bit j = inp'.bit j) :
    modulateCmd P c lenIn lenOut e inp = modulateCmd P c' lenIn lenOut e' inp' := by
  rw [modulateCmd, modulateCmd, withContext, withContext, ← hctx]
  by_cases hin : lenIn = (e.ctx c).capbits
  · rw [← hin, inputs_bits_congr hbits]
  · simp [withLength, hin]

/-- On a constructed context MODULATE fails or writes `SYMLEN` samples and answers 0. -/
theorem modulateCmd_cases (hk : Ctx.InvFor P (e.ctx c)) (inp : Inputs T) :
    (∃ err, modulateCmd P c lenIn lenOut e inp = .fail err) ∨
      (modulateCmd P c lenIn lenOut e inp).written = some (0, (e.ctx c).symlen.toNat) := by
  cases hv : (e.ctx c).valid with
  | false => exact .inl ⟨_, modulateCmd_of_invalid inp hv⟩
  | true =>
    by_cases hlen : lenIn = (e.ctx c).capbits ∧ lenOut = (e.ctx c).symlen
    · obtain ⟨-, -, -, hcap⟩ := ctx_numbers P _ hk hv
      obtain ⟨V, hV⟩ := bitsToFreq_ok P _ _ (length_inputs_bits inp _) hcap
      rw [modulateCmd_of_ok hv hlen.1 hlen.2 hV, Effect.written,
        length_modulateSymbol_inv P _ hk hv _ _ (modulateSymbol_of_ok hV)]
      exact .inr rfl
    · exact .inl ⟨_, modulateCmd_of_length_ne inp hv (not_and_or.1 hlen)⟩

section
variable {k : Ctx} {V : List (Cx T)} (hV : V.length = k.n)
include hV

theorem getElem?_coreSamples {j : Nat} (hj : j < k.n) : (coreSamples P k V)[j]? =
    some (cscale P.num (P.txScale k.n) (providerOf P k .inverse k.n V j)) := by
  rw [coreSamples, List.getElem?_map, getElem?_askProvider _ _ V k.n hV j hj, Option.map_some]

/-- Sample by sample, the copied ones first (46_modulator.md R196). -/
theorem getElem?_symbolOf (hcp : k.cp < k.n) :
    (∀ i, i < k.cp → (symbolOf P k V)[i]? =
      some (cscale P.num (P.txScale k.n) (providerOf P k .inverse k.n V (k.n - k.cp + i)))) ∧
    ∀ i, k.cp ≤ i → i < k.n + k.cp → (symbolOf P k V)[i]? =
      some (cscale P.num (P.txScale k.n) (providerOf P k .inverse k.n V (i - k.cp))) := by
  have hlen : (coreSamples P k V).length = k.n := (length_coreSamples P k V).trans hV
  have hL : k.cp ≤ (coreSamples P k V).length := hcp.le.trans_eq hlen.symm
  refine ⟨fun i hi => ?_, fun i hlo hhi => ?_⟩
  · rw [symbolOf, getElem?_prepend_prefix hL hi, hlen, getElem?_coreSamples hV (by omega)]
  · rw [symbolOf, getElem?_prepend_rest hL hlo, getElem?_coreSamples hV (by omega)]

end

end

/-- Settles O39: the checks pass or answer, and then the samples are those of `getElem?_symbolOf`. -/
theorem modulateComposes : Obligations.ModulateComposes := by
  intro c lenIn lenOut s k N CP prov
  refine ⟨fun hk hv hin hout => ?_, fun hv hlen => ?_, fun hv => ?_⟩
  · obtain ⟨hroles, hcp, -, hcap⟩ := ctx_numbers engineParams k hk hv
    obtain ⟨V, hV⟩ := bitsToFreq_ok engineParams k _ (length_inputs_bits s.inputs _) hcap
    obtain ⟨hcopied, hrest⟩ := getElem?_symbolOf (P := engineParams)
      ((length_bitsToFreq engineParams k _ V hV).trans hroles) hcp
    refine ⟨V, symbolOf engineParams k V, ?_, ?_, ?_, hcopied, hrest⟩
    · rw [inputGroup_eq, hV]
    · rw [exec_modulate, modulateCmd_of_ok hv hin hout hV, deliver_samples]
    · exact length_modulateSymbol_inv engineParams k hk hv _ _ (modulateSymbol_of_ok hV)
  · rw [exec_modulate, modulateCmd_of_length_ne s.inputs hv hlen, deliver_bufferSizeMismatch]
  · rw [exec_modulate, modulateCmd_of_invalid s.inputs (Bool.eq_false_iff.2 hv), deliver_notConstructed]

/-- Settles O41: the two effects are one (`modulateCmd_congr`), and it writes the same samples on every machine. -/
theorem modulateIsDeterministic : Obligations.ModulateIsDeterministic := by
  intro c c' lenIn lenOut s s' t t' hk hctx hbits ht ht'
  obtain rfl := Host.Outcome.next.inj ht
  obtain rfl := Host.Outcome.next.inj ht'
  rw [← modulateCmd_congr (inp := s.inputs) hctx hbits]
  refine ⟨deliver_resp_eq _ s s', fun hresp j hj => ?_⟩
  obtain ⟨err, hfail⟩ | hwritten := modulateCmd_cases (lenIn := lenIn) (lenOut := lenOut) hk s.inputs
  · rw [hfail] at hresp
    exact absurd (congrArg Response.status (Option.some.inj hresp)) (errorCode_ne_zero err)
  · exact deliver_sample_so_eq s s' hwritten hj

/-! ### MODULATE as a sequence of level-two commands (46_modulator.md R200) -/

/-- The host reads back the samples that a command has written. -/
theorem map_sample_respond_writeSO (v : Word) (vs : List Sample) (s : State) {n : Nat} (hn : vs.length = n) :
    (List.range n).map ((respond v (writeSO vs s)).mem.sample .so) = vs := by
  subst hn
  refine List.ext_getElem (by simp) fun j h₁ h₂ => ?_
  rw [List.getElem_map, List.getElem_range, sample_respond_writeSO v vs s h₂]

/-- The engine is given the samples that the host has written. -/
theorem samples_inputs_writeSamples (s : State) (vs : List Sample) {n : Nat} (hn : vs.length = n) :
    (State.inputs { s with mem := s.mem.writeSamples .si 0 vs }).samples n = vs := by
  subst hn
  refine List.ext_getElem (length_inputs_samples _ _) fun j h₁ h₂ => ?_
  have h := sample_writeSamples_written s.mem .si 0 vs j
  rw [Nat.zero_add, if_pos h₂, List.getD_eq_getElem _ _ h₂] at h
  simpa [Inputs.samples] using h

section
variable (c : BitVec 1) (s : State) (vs : List Sample) (hvs : vs.length = (s.engine.ctx c).n) (hv : Ready s c)
include hvs hv

/-- XINV on a vector that the host has written to `SI`. -/
theorem exec_xinv_writeSamples :
    exec (.xinv c (s.engine.ctx c).nsc) { s with mem := s.mem.writeSamples .si 0 vs } =
      .next (respond (s.engine.ctx c).nsc (writeSO (askProvider (providerOf engineParams (s.engine.ctx c)) .inverse vs)
        { s with mem := s.mem.writeSamples .si 0 vs })) := by
  rw [exec_xinv, wrapperCmd_of_length .inverse _ hv rfl, deliver_samples, samples_inputs_writeSamples s vs hvs]

/-- CPADD on a symbol that the host has written to `SI`. -/
theorem exec_cpadd_writeSamples (hk : Ctx.Inv (s.engine.ctx c)) :
    exec (.cpadd c (s.engine.ctx c).nsc) { s with mem := s.mem.writeSamples .si 0 vs } =
      .next (respond (s.engine.ctx c).symlen (writeSO (prepend vs (s.engine.ctx c).cp)
        { s with mem := s.mem.writeSamples .si 0 vs })) := by
  rw [exec_cpadd, cpaddCmd_of_length _ hv rfl, deliver_samples, samples_inputs_writeSamples s vs hvs,
    nsc_add_cplen engineParams _ hk hv]

end

/-- Settles O42: each command of the sequence hands on the sequence that the steps of MODULATE hand on. -/
theorem modulateIsLevelTwoSequence : Obligations.ModulateIsLevelTwoSequence := by
  intro c s k hk hv
  obtain ⟨hroles, -, -, hcap⟩ := ctx_numbers engineParams k hk hv
  obtain ⟨V, hV⟩ := bitsToFreq_ok engineParams k _ (length_inputs_bits s.inputs _) hcap
  have hlenV : V.length = k.n := (length_bitsToFreq engineParams k _ V hV).trans hroles
  have hlenX := (length_askProvider (providerOf engineParams k) .inverse V).trans hlenV
  have hb2f : exec (.b2f c k.capbits) s = .next (respond k.nsc (writeSO V s)) := by
    rw [exec_b2f, b2fCmd_of_ok hv rfl hV, deliver_samples]
  have hmodulate : exec (.modulate c k.capbits k.symlen) s =
      .next (respond 0 (writeSO (symbolOf engineParams k V) s)) := by
    rw [exec_modulate, modulateCmd_of_ok hv rfl rfl hV, deliver_samples]
  refine ⟨_, _, _, _, V, coreSamples engineParams k V, hb2f, (map_sample_respond_writeSO _ V s hlenV).symm,
    exec_xinv_writeSamples c (respond k.nsc (writeSO V s)) V hlenV hv, ?_, exec_cpadd_writeSamples c _ _ ?_ ?_ ?_,
    hmodulate, rfl, rfl, rfl, rfl, fun i hi => ?_⟩
  · exact (congrArg (List.map _) (map_sample_respond_writeSO _ _ _ hlenX).symm).trans List.map_map
  · exact (length_coreSamples _ k V).trans hlenV
  · exact hv
  · exact hk
  · have hlen := length_modulateSymbol_inv engineParams k hk hv _ _ (modulateSymbol_of_ok hV)
    rw [← hlen] at hi
    exact (sample_respond_writeSO 0 _ s hi).trans (sample_respond_writeSO _ _ _ hi).symm

end Sys2Proof.Machine

namespace Sys2Proof

/-! ### The default scale is the rounded square root (46_modulator.md R197) -/

/-- The scan keeps `r` above the root less the bits that are still to come. -/
theorem lt_succ_isqrtFrom_sq (i : Nat) {r n : Nat} (h : n < (r + 2 ^ i) * (r + 2 ^ i)) :
    n < (isqrtFrom i r n + 1) * (isqrtFrom i r n + 1) := by
  induction i generalizing r with
  | zero => exact h
  | succ i ih =>
    rw [isqrtFrom]
    split
    next => exact ih (by rwa [add_assoc, ← two_mul, ← pow_succ'])
    next hgt => exact ih (not_le.1 hgt)

theorem isqrt_eq_sqrt (n : Nat) : isqrt n = n.sqrt := by
  refine Nat.eq_sqrt.2 ⟨isqrtFrom_sq_le _ (Nat.zero_le _), lt_succ_isqrtFrom_sq _ (Nat.lt_log2_self.trans_le ?_)⟩
  rw [Nat.zero_add, ← pow_add]
  exact Nat.pow_le_pow_right two_pos (by omega)

/-- The pattern of the value 1. -/
def F64.oneBits : Nat := 1023 * 2 ^ 52

theorem F64.bitsMagnitude_oneBits : F64.bitsMagnitude F64.oneBits = 2 ^ 1074 := by
  rw [show F64.oneBits = 1022 * 2 ^ 52 + 2 ^ 52 by decide, F64.bitsMagnitude_significand (.inr le_rfl) (by decide),
    ← pow_add]

theorem F64.twiceMidpoint_lt_of_lt_oneBits {n : Nat} (h : n < F64.oneBits) : F64.twiceMidpoint n < 2 * 2 ^ 1074 := by
  rw [← F64.bitsMagnitude_oneBits]
  exact F64.twiceMidpoint_lt_two_mul_bitsMagnitude h

/-- From the value 1 on the midpoints are whole multiples of 2^−53. -/
theorem F64.dvd_twiceMidpoint {n : Nat} (h : F64.oneBits ≤ n) : 2 ^ 1022 ∣ F64.twiceMidpoint n := by
  obtain ⟨k, q, rfl, hk, hq⟩ := F64.exists_significand n
  rw [F64.twiceMidpoint_significand hk hq]
  unfold F64.oneBits at h
  exact dvd_mul_of_dvd_right (pow_dvd_pow 2 (by omega)) _

/-- No midpoint lies strictly between two neighbouring multiples of 2^−64 that are 1 or greater. -/
theorem F64.twiceMidpoint_le_or_ge {s : Nat} (hs : 2 ^ 64 ≤ s) (n : Nat) :
    F64.twiceMidpoint n ≤ 2 * (s * 2 ^ 1010) ∨ 2 * ((s + 1) * 2 ^ 1010) ≤ F64.twiceMidpoint n := by
  have hunit : 2 * 2 ^ 1074 = 2 ^ 64 * 2 ^ 1011 := by rw [← pow_succ', ← pow_add]
  have htwice (a : Nat) : 2 * (a * 2 ^ 1010) = a * 2 ^ 1011 := by rw [mul_left_comm, ← pow_succ']
  rw [htwice, htwice]
  obtain hn | hn := lt_or_ge n F64.oneBits
  · exact .inl (((F64.twiceMidpoint_lt_of_lt_oneBits hn).trans_eq hunit).le.trans (Nat.mul_le_mul_right _ hs))
  · obtain ⟨m, hm⟩ := (pow_dvd_pow 2 (by decide : 1011 ≤ 1022)).trans (F64.dvd_twiceMidpoint hn)
    rw [hm, mul_comm _ m]
    exact (le_or_gt m s).imp (Nat.mul_le_mul_right _) (Nat.mul_le_mul_right _)

/-- Numbers strictly between the same two neighbouring multiples of 2^−64 round alike. -/
theorem F64.IsRounding.of_same_step {v w : ℝ} {s r : Nat} (h : F64.IsRounding v r) (hs : 2 ^ 64 ≤ s)
    (hv : (s : ℝ) * 2 ^ 1010 < v ∧ v < (s + 1) * 2 ^ 1010) (hw : (s : ℝ) * 2 ^ 1010 < w ∧ w < (s + 1) * 2 ^ 1010) :
    F64.IsRounding w r := by
  obtain ⟨hv, hv'⟩ := hv
  obtain ⟨hw, hw'⟩ := hw
  have hmid (n : Nat) : (F64.twiceMidpoint n : ℝ) ≤ 2 * (s * 2 ^ 1010) ∨
      2 * ((s + 1) * 2 ^ 1010) ≤ (F64.twiceMidpoint n : ℝ) := by
    exact_mod_cast F64.twiceMidpoint_le_or_ge hs n
  generalize (2 : ℝ) ^ 1010 = u at *
  refine ⟨fun n hn => ?_, fun n hn => ?_, fun n hn => ?_⟩
  · have := h.below n hn
    obtain hlo | hhi := hmid n <;> linarith
  · have := h.above n hn
    obtain hlo | hhi := hmid n <;> linarith
  · obtain hlo | hhi := hmid n <;> linarith

/-- A number of half steps of 2^−64 as `F64.ofRatio` rounds it, in units. -/
theorem F64.roundsBits_halfSteps (m : Nat) :
    F64.RoundsBits (m / 2 * 2 ^ 1010) (F64.roundBits (m * 2 ^ 1074) (2 ^ 65)) := by
  have hunits : ((m * 2 ^ 1074 : Nat) : ℝ) / (2 ^ 65 : Nat) = m / 2 * 2 ^ 1010 := by
    have hpow : (2 : ℝ) ^ 1074 = 2 ^ 1010 * 2 ^ 64 := by rw [← pow_add]
    rw [Nat.cast_mul, Nat.cast_pow, Nat.cast_pow, Nat.cast_ofNat, hpow, div_eq_iff (by positivity)]
    generalize (2 : ℝ) ^ 1010 = u
    ring
  rw [← hunits]
  exact F64.roundsBits_roundBits (by positivity)

/-- The whole part of a root, with half a step more where the root is not whole, rounds as the root does. -/
theorem F64.roundsBits_sqrt {n : Nat} (hmin : 2 ^ 64 ≤ n.sqrt) : F64.RoundsBits (√n * 2 ^ 1010)
    (F64.roundBits ((if n.sqrt * n.sqrt = n then 2 * n.sqrt else 2 * n.sqrt + 1) * 2 ^ 1074) (2 ^ 65)) := by
  have hle : (n.sqrt : ℝ) ≤ √n := Real.nat_sqrt_le_real_sqrt
  have hlt : √n < n.sqrt + 1 := Real.real_sqrt_lt_nat_sqrt_succ
  have hwhole : n.sqrt * n.sqrt = n ↔ √n = n.sqrt := by
    rw [Real.sqrt_eq_iff_mul_self_eq n.cast_nonneg n.sqrt.cast_nonneg, eq_comm]
    exact_mod_cast Iff.rfl
  split
  next heq =>
    have hroot : √n = ((2 * n.sqrt : Nat) : ℝ) / 2 := by
      rw [Nat.cast_mul, Nat.cast_ofNat, mul_div_cancel_left₀ _ two_ne_zero, hwhole.1 heq]
    rw [hroot]
    exact F64.roundsBits_halfSteps _
  next hne =>
    obtain ⟨r, hr, hbits⟩ := F64.roundsBits_halfSteps (2 * n.sqrt + 1)
    refine ⟨r, hr.of_same_step hmin ?_ ⟨?_, ?_⟩, hbits⟩
    · push_cast
      constructor <;> gcongr <;> linarith
    · gcongr
      exact hle.lt_of_ne' (mt hwhole.2 hne)
    · gcongr

theorem F64.sqrtNat_eq_ofReal {N : Nat} (hN : 1 ≤ N) : F64.sqrtNat N = F64.ofReal √N := by
  have hmin : 2 ^ 64 ≤ (N * 4 ^ 64).sqrt := Nat.le_sqrt.2 (by omega)
  have hscaled : √((N * 4 ^ 64 : Nat) : ℝ) = √N * 2 ^ 64 := by
    rw [Nat.cast_mul, Real.sqrt_mul N.cast_nonneg, show ((4 ^ 64 : Nat) : ℝ) = (2 ^ 64) ^ 2 by norm_num,
      Real.sqrt_sq (by positivity)]
  have hroot := F64.roundsBits_sqrt hmin
  rw [hscaled, mul_assoc, ← pow_add, ← abs_of_nonneg (Real.sqrt_nonneg N)] at hroot
  rw [F64.ofReal_of_roundsBits hroot, decide_eq_false (Real.sqrt_nonneg _).not_gt, F64.sqrtNat, isqrt_eq_sqrt,
    F64.ofRatio, Bool.false_and]

open Machine in
/-- A value rounded to a finite one is rounded to the nearest. -/
theorem Machine.RoundsTo.nearestTo {x : ℝ} {c : F64} (h : RoundsTo x c) (hc : F64.isFinite c = true) :
    NearestTo x c := by
  refine h.1 (not_le.1 fun hx => ?_)
  rw [h.2 hx, F64.isFinite_iff, F64.low_inf] at hc
  exact lt_irrefl _ hc

/-! ### The series of cosine and sine (44_transform_provider.md R166) -/

/-- z^j/j! − z^(j+2)/(j+2)! + z^(j+4)/(j+4)! − …, `n` terms: the real number that `alternating` computes. -/
noncomputable def alternatingSum (z : ℝ) : Nat → Nat → ℝ
  | 0, _ => 0
  | n + 1, j => z ^ j / j.factorial - alternatingSum z n (j + 2)

/-- Two of these sums are the two parts of a stretch of the exponential series. -/
theorem sum_exp_terms_eq (z : ℝ) (n j : Nat) :
    ∑ m ∈ Finset.range (2 * n), (z * Complex.I) ^ (j + m) / (j + m).factorial =
      Complex.I ^ j * (alternatingSum z n j + alternatingSum z n (j + 1) * Complex.I) := by
  induction n generalizing j with
  | zero => simp [alternatingSum]
  | succ n ih =>
    have hterm (m : Nat) : (z * Complex.I) ^ (j + (m + 1 + 1)) / (j + (m + 1 + 1)).factorial =
        (z * Complex.I) ^ (j + 2 + m) / (j + 2 + m).factorial := by rw [show j + (m + 1 + 1) = j + 2 + m by omega]
    rw [Nat.mul_succ, Finset.sum_range_succ', Finset.sum_range_succ', Finset.sum_congr rfl fun m _ => hterm m, ih]
    simp only [alternatingSum, mul_pow, pow_add, Complex.I_sq]
    push_cast
    ring_nf

/-- Twenty-four terms are enough: what is left out is the rest of the exponential series. -/
theorem abs_alternatingSum_sub_le {z : ℝ} (hz : |z| ≤ 1) :
    |alternatingSum z 24 0 - Real.cos z| ≤ 1 / 2 ^ 70 ∧ |alternatingSum z 24 1 - Real.sin z| ≤ 1 / 2 ^ 70 := by
  have hnorm : ‖(z : ℂ) * Complex.I‖ ≤ 1 := by simpa using hz
  have hbound := Complex.exp_bound hnorm (n := 2 * 24) (by decide)
  have hsum := sum_exp_terms_eq z 24 0
  simp only [Nat.zero_add, pow_zero, one_mul] at hsum
  rw [hsum, Complex.exp_mul_I] at hbound
  have htail : ‖(z : ℂ) * Complex.I‖ ^ (2 * 24) *
      ((2 * 24 : Nat).succ * ((2 * 24 : Nat).factorial * (2 * 24 : Nat) : ℝ)⁻¹) ≤ 1 / 2 ^ 70 := by
    refine (mul_le_of_le_one_left (by positivity) (pow_le_one₀ (norm_nonneg _) hnorm)).trans ?_
    norm_num [Nat.factorial]
  have hre := (Complex.abs_re_le_norm _).trans (hbound.trans htail)
  have him := (Complex.abs_im_le_norm _).trans (hbound.trans htail)
  rw [abs_sub_comm, abs_sub_comm (alternatingSum z 24 1)]
  constructor
  · simpa [← Complex.ofReal_cos, ← Complex.ofReal_sin] using hre
  · simpa [← Complex.ofReal_cos, ← Complex.ofReal_sin] using him

/-! ### Fixed point: each operation rounds down by less than one unit of 2^−192 -/

theorem natCast_fixOne : (fixOne : ℝ) = 2 ^ 192 := by rw [fixOne, Nat.cast_pow, Nat.cast_ofNat]

theorem natCast_fixOne_pos : (0 : ℝ) < fixOne := by
  rw [natCast_fixOne]
  positivity

theorem fixOne_pos : 0 < fixOne := Nat.cast_pos.1 natCast_fixOne_pos

theorem natCast_div_fixOne_le_one {x : Nat} (hx : x ≤ fixOne) : (x : ℝ) / fixOne ≤ 1 :=
  div_le_one_of_le₀ (Nat.cast_le.2 hx) natCast_fixOne_pos.le

theorem alternating_le (n k t x2 : Nat) : alternating n k t x2 ≤ t := by
  cases n with
  | zero => exact Nat.zero_le t
  | succ n => exact Nat.sub_le _ _

theorem abs_natDiv_sub_le (a : Nat) {b : Nat} (hb : 0 < b) : |((a / b : Nat) : ℝ) - a / b| ≤ 1 := by
  have hb' : (0 : ℝ) < b := Nat.cast_pos.2 hb
  have hle : ((a / b : Nat) : ℝ) ≤ a / b := Nat.cast_div_le
  have hlt : (a : ℝ) / b < (a / b : Nat) + 1 := by
    rw [div_lt_iff₀ hb']
    exact_mod_cast Nat.lt_mul_of_div_lt (Nat.lt_succ_self (a / b)) hb
  exact abs_le.2 ⟨by linarith, by linarith⟩

/-- How the errors of two factors in units of 1/F, the second at most 1, show in their product over K. -/
theorem abs_product_sub_le {F K t x c y : ℝ} (hF : 0 < F) (hK : 2 ≤ K) (hc0 : 0 ≤ c) (hc1 : c ≤ 1) (hx0 : 0 ≤ x)
    (hxF : x ≤ F) (ht : |t - F * c| ≤ 3) (hx : |x - F * y| ≤ 1) : |t * x / (F * K) - F * (c * y / K)| ≤ 2 := by
  have hK0 : 0 < K := two_pos.trans_le hK
  have hsplit : t * x / (F * K) - F * (c * y / K) = ((t - F * c) * (x / F) + c * (x - F * y)) / K := by
    field_simp
    ring
  have hfst : |(t - F * c) * (x / F)| ≤ 3 := by
    rw [abs_mul, abs_of_nonneg (div_nonneg hx0 hF.le)]
    exact (mul_le_of_le_one_right (abs_nonneg _) (div_le_one_of_le₀ hxF hF.le)).trans ht
  have hsnd : |c * (x - F * y)| ≤ 1 := by
    rw [abs_mul, abs_of_nonneg hc0]
    exact (mul_le_of_le_one_left (abs_nonneg _) hc1).trans hx
  rw [hsplit, abs_div, abs_of_pos hK0, div_le_iff₀ hK0]
  linarith [abs_add_le ((t - F * c) * (x / F)) (c * (x - F * y))]

section
variable {x2 : Nat} {z : ℝ} (hz0 : 0 ≤ z) (hz1 : z ≤ 1) (hx2 : |(x2 : ℝ) - fixOne * z ^ 2| ≤ 1) (hle : x2 ≤ fixOne)
include hz0 hz1 hx2 hle

/-- A term of the series computed from one within three units is itself within three units. -/
theorem abs_next_term_sub_le {t j : Nat} (ht : |(t : ℝ) - fixOne * (z ^ j / j.factorial)| ≤ 3) :
    |((t * x2 / (fixOne * ((j + 1) * (j + 1 + 1))) : Nat) : ℝ) - fixOne * (z ^ (j + 2) / (j + 2).factorial)| ≤ 3 := by
  have hF := natCast_fixOne_pos
  have hterm : z ^ (j + 2) / (j + 2).factorial = z ^ j / j.factorial * z ^ 2 / ((j + 1) * (j + 1 + 1) : ℝ) := by
    rw [Nat.factorial_succ, Nat.factorial_succ, pow_add]
    push_cast
    field_simp
  have hK : (2 : ℝ) ≤ (j + 1) * (j + 1 + 1) := by nlinarith [j.cast_nonneg (α := ℝ)]
  have hterm1 : z ^ j / j.factorial ≤ 1 :=
    div_le_one_of_le₀ ((pow_le_one₀ hz0 hz1).trans (Nat.one_le_cast.2 j.factorial_pos)) (by positivity)
  have hproduct := abs_product_sub_le hF hK (by positivity) hterm1 x2.cast_nonneg (Nat.cast_le.2 hle) ht hx2
  have hdiv := abs_natDiv_sub_le (t * x2) (b := fixOne * ((j + 1) * (j + 1 + 1)))
    (Nat.mul_pos fixOne_pos (by positivity))
  push_cast at hdiv
  rw [← hterm] at hproduct
  linarith [abs_sub_le _ _ _ |>.trans (add_le_add hdiv hproduct)]

/-- The series in fixed point is off by three units for each term at most. -/
theorem abs_alternating_sub_le (n : Nat) {j t : Nat} (ht : |(t : ℝ) - fixOne * (z ^ j / j.factorial)| ≤ 3) :
    |(alternating n (j + 1) t x2 : ℝ) - fixOne * alternatingSum z n j| ≤ 3 * n := by
  induction n generalizing j t with
  | zero => simp [alternating, alternatingSum]
  | succ n ih =>
    have htail := ih (abs_next_term_sub_le hz0 hz1 hx2 hle ht)
    have hsub : alternating n (j + 2 + 1) (t * x2 / (fixOne * ((j + 1) * (j + 1 + 1)))) x2 ≤ t := by
      refine (alternating_le _ _ _ _).trans (Nat.div_le_of_le_mul ?_)
      rw [mul_comm]
      exact Nat.mul_le_mul_right _ (hle.trans (Nat.le_mul_of_pos_right _ (by positivity)))
    rw [alternating, alternatingSum, Nat.cast_sub hsub]
    rw [abs_le] at *
    push_cast
    constructor <;> linarith

end

/-- A number of units of 2^−192 that is at most one and within 2^−60 of the real number `y`. -/
structure FixNear (x : Nat) (y : ℝ) : Prop where
  le_one : x ≤ fixOne
  near : |(x : ℝ) / fixOne - y| ≤ 1 / 2 ^ 60

/-- The errors of a series in fixed point: of the terms, of the tail and of the angle. -/
theorem FixNear.of_series {x : Nat} {sum value y : ℝ} (hx : x ≤ fixOne)
    (hsum : |(x : ℝ) - fixOne * sum| ≤ 3 * (24 : Nat)) (hvalue : |sum - value| ≤ 1 / 2 ^ 70)
    (hy : |value - y| ≤ 1 / 2 ^ 61) : FixNear x y := by
  refine ⟨hx, ?_⟩
  rw [natCast_fixOne] at *
  have hscaled : |(x : ℝ) / 2 ^ 192 - sum| ≤ 72 / 2 ^ 192 := by
    rw [div_sub' (by positivity), abs_div, abs_of_pos (by positivity : (0 : ℝ) < 2 ^ 192)]
    gcongr
    exact hsum.trans_eq (by norm_num)
  calc |(x : ℝ) / 2 ^ 192 - y| ≤ 72 / 2 ^ 192 + (1 / 2 ^ 70 + 1 / 2 ^ 61) :=
        (abs_sub_le _ sum _).trans (add_le_add hscaled ((abs_sub_le _ value _).trans (add_le_add hvalue hy)))
    _ ≤ 1 / 2 ^ 60 := by norm_num

/-- `fixCos` and `fixSin` on an angle of at most one. -/
theorem fixCos_fixSin_near {x : Nat} {φ : ℝ} (hx : x ≤ fixOne) (hφ : |(x : ℝ) / fixOne - φ| ≤ 1 / 2 ^ 61) :
    FixNear (fixCos x) (Real.cos φ) ∧ FixNear (fixSin x) (Real.sin φ) := by
  have hF := natCast_fixOne_pos
  have hz0 : 0 ≤ (x : ℝ) / fixOne := by positivity
  have hz1 : (x : ℝ) / fixOne ≤ 1 := natCast_div_fixOne_le_one hx
  have hsq : |((x * x / fixOne : Nat) : ℝ) - fixOne * ((x : ℝ) / fixOne) ^ 2| ≤ 1 := by
    have heq : fixOne * ((x : ℝ) / fixOne) ^ 2 = ((x * x : Nat) : ℝ) / fixOne := by
      push_cast
      field_simp
    rw [heq]
    exact abs_natDiv_sub_le _ fixOne_pos
  have hsqle : x * x / fixOne ≤ fixOne := Nat.div_le_of_le_mul (Nat.mul_le_mul hx hx)
  obtain ⟨hcos, hsin⟩ := abs_alternatingSum_sub_le ((abs_of_nonneg hz0).trans_le hz1)
  constructor
  · refine .of_series (alternating_le _ _ _ _) (abs_alternating_sub_le hz0 hz1 hsq hsqle 24 (j := 0) ?_) hcos
      ((Real.abs_cos_sub_cos_le _ _).trans hφ)
    simp
  · refine .of_series ((alternating_le _ _ _ _).trans hx) (abs_alternating_sub_le hz0 hz1 hsq hsqle 24 (j := 1) ?_) hsin
      ((Real.abs_sin_sub_sin_le _ _).trans hφ)
    rw [pow_one, Nat.factorial_one, Nat.cast_one, div_one, mul_div_cancel₀ _ hF.ne', sub_self, abs_zero]
    norm_num

theorem abs_fixPi_sub_le : |(fixPi : ℝ) / fixOne - Real.pi| ≤ 1 / 10 ^ 20 := by
  have hlo := Real.pi_gt_d20
  have hhi := Real.pi_lt_d20
  have hfix : (3.14159265358979323846 : ℝ) ≤ fixPi / fixOne ∧
      (fixPi : ℝ) / fixOne ≤ 3.14159265358979323847 := by
    rw [natCast_fixOne, fixPi]
    norm_num
  rw [abs_le]
  constructor <;> linarith

section
variable {N r : Nat} (hN : 0 < N)
include hN

/-- The angle of an eighth turn at most, in fixed point. -/
theorem fixAngle_near (hr : 2 * r ≤ N) : fixPi * r / (2 * N) ≤ fixOne ∧
    |((fixPi * r / (2 * N) : Nat) : ℝ) / fixOne - Real.pi * r / (2 * N)| ≤ 1 / 2 ^ 61 := by
  have hN' : (0 : ℝ) < N := Nat.cast_pos.2 hN
  have hF := natCast_fixOne_pos
  have hle : (r : ℝ) / (2 * N) ≤ 1 := by
    rw [div_le_one (by positivity)]
    exact_mod_cast (by omega : r ≤ 2 * N)
  constructor
  · refine Nat.div_le_of_le_mul ?_
    have hpi : fixPi ≤ 4 * fixOne := by decide +kernel
    calc fixPi * r ≤ 4 * fixOne * r := Nat.mul_le_mul_right r hpi
      _ = 2 * (2 * r) * fixOne := by ring
      _ ≤ 2 * N * fixOne := by gcongr
  · have hdiv := abs_natDiv_sub_le (fixPi * r) (b := 2 * N) (by positivity)
    have hscaled : |((fixPi * r / (2 * N) : Nat) : ℝ) / fixOne - fixPi / fixOne * (r / (2 * N))| ≤ 1 / 2 ^ 192 := by
      have heq : ((fixPi * r / (2 * N) : Nat) : ℝ) / fixOne - fixPi / fixOne * (r / (2 * N)) =
          (((fixPi * r / (2 * N) : Nat) : ℝ) - ((fixPi * r : Nat) : ℝ) / ((2 * N : Nat) : ℝ)) / fixOne := by
        push_cast
        ring
      rw [heq, abs_div, abs_of_pos hF, ← natCast_fixOne]
      gcongr
    have hpi : |(fixPi : ℝ) / fixOne * (r / (2 * N)) - Real.pi * r / (2 * N)| ≤ 1 / 10 ^ 20 := by
      rw [mul_div_assoc, ← sub_mul, abs_mul, abs_of_nonneg (by positivity : (0 : ℝ) ≤ r / (2 * N))]
      exact (mul_le_of_le_one_right (abs_nonneg _) hle).trans abs_fixPi_sub_le
    calc _ ≤ 1 / 2 ^ 192 + 1 / 10 ^ 20 := (abs_sub_le _ _ _).trans (add_le_add hscaled hpi)
      _ ≤ 1 / 2 ^ 61 := by norm_num

/-- Cosine and sine of a part of a quarter turn, from the angle or its complement (44_transform_provider.md R166). -/
theorem quarterCosSin_near (hr : r ≤ N) :
    FixNear (quarterCosSin N r).1 (Real.cos (Real.pi * r / (2 * N))) ∧
      FixNear (quarterCosSin N r).2 (Real.sin (Real.pi * r / (2 * N))) := by
  rw [quarterCosSin]
  split
  next hhalf =>
    obtain ⟨hle, hnear⟩ := fixAngle_near hN hhalf
    exact fixCos_fixSin_near hle hnear
  next hhalf =>
    obtain ⟨hle, hnear⟩ := fixAngle_near hN (r := N - r) (by omega)
    obtain ⟨hcos, hsin⟩ := fixCos_fixSin_near hle hnear
    have hcompl : Real.pi * (N - r : Nat) / (2 * N) = Real.pi / 2 - Real.pi * r / (2 * N) := by
      have hN' : (0 : ℝ) < N := Nat.cast_pos.2 hN
      rw [Nat.cast_sub hr]
      field_simp
    rw [hcompl, Real.cos_pi_div_two_sub] at hcos
    rw [hcompl, Real.sin_pi_div_two_sub] at hsin
    exact ⟨hsin, hcos⟩

end

/-! ### Rounding a number of magnitude at most 1 -/

theorem F64.bitsMagnitude_succ_le {n : Nat} (h : n < F64.oneBits) :
    F64.bitsMagnitude (n + 1) ≤ F64.bitsMagnitude n + 2 * 2 ^ 1020 := by
  obtain ⟨k, q, rfl, hk, hq⟩ := F64.exists_significand n
  rw [F64.bitsMagnitude_significand hk hq.le, F64.bitsMagnitude_succ_significand hk hq, Nat.succ_mul, ← pow_succ']
  unfold F64.oneBits at h
  exact add_le_add_right (pow_le_pow_right₀ one_le_two (by omega)) _

section
variable {v : ℝ} {r : Nat} (h : F64.IsRounding v r) (hv : v ≤ F64.bitsMagnitude F64.oneBits)
include h hv

theorem F64.IsRounding.le_oneBits : r ≤ F64.oneBits := by
  by_contra! hlt
  have hmid : (2 * F64.bitsMagnitude F64.oneBits : ℝ) < F64.twiceMidpoint F64.oneBits := by
    exact_mod_cast F64.two_mul_bitsMagnitude_lt_twiceMidpoint le_rfl
  linarith [h.below _ hlt]

/-- The error is half the distance of two neighbours below 1 at most. -/
theorem F64.IsRounding.abs_sub_le_of_le_one (hv0 : 0 ≤ v) : |(F64.bitsMagnitude r : ℝ) - v| ≤ 2 ^ 1020 := by
  have hr := h.le_oneBits hv
  have hgap {n : Nat} (hn : n < F64.oneBits) :
      (F64.bitsMagnitude (n + 1) : ℝ) ≤ F64.bitsMagnitude n + 2 * 2 ^ 1020 := by
    exact_mod_cast F64.bitsMagnitude_succ_le hn
  have hpos : (0 : ℝ) < 2 ^ 1020 := by positivity
  generalize (2 : ℝ) ^ 1020 = u at *
  have hbelow : (F64.bitsMagnitude r : ℝ) - v ≤ u := by
    obtain rfl | hr0 := r.eq_zero_or_pos
    · have hzero : F64.bitsMagnitude 0 = 0 := F64.bitsMagnitude_eq_zero_iff.2 rfl
      rw [hzero, Nat.cast_zero]
      linarith
    · have hmid := h.below (r - 1) (by omega)
      have hstep := hgap (n := r - 1) (by omega)
      rw [F64.twiceMidpoint, Nat.cast_add] at hmid
      rw [Nat.sub_add_cancel hr0] at hmid hstep
      linarith
  have habove : v - F64.bitsMagnitude r ≤ u := by
    obtain rfl | hlt := hr.eq_or_lt
    · linarith
    · have hmid := h.above r le_rfl
      have hstep := hgap hlt
      rw [F64.twiceMidpoint, Nat.cast_add] at hmid
      linarith
  exact abs_sub_le_iff.2 ⟨hbelow, habove⟩

end

section
open Machine

/-- The scalar is finite and within 2^−53 of the real number `y`. -/
def F64.Near (c : F64) (y : ℝ) : Prop := F64.isFinite c = true ∧ |realOf c - y| ≤ 1 / 2 ^ 53

/-- A fixed-point number of at most 1 is rounded to a pattern of at most 1. -/
theorem exists_isRounding_fixRound (neg : Bool) {x : Nat} (hx : x ≤ fixOne) : ∃ r, r ≤ F64.oneBits ∧
    fixRound neg x = F64.pack (neg && x != 0) r ∧
      |(F64.bitsMagnitude r : ℝ) - x / fixOne * 2 ^ 1074| ≤ 2 ^ 1020 := by
  obtain ⟨r, hr, hbits⟩ := F64.roundsBits_roundBits (num := x * 2 ^ 1074) (den := fixOne) fixOne_pos
  rw [Nat.cast_mul, Nat.cast_pow, Nat.cast_ofNat, mul_div_right_comm] at hr
  have hle : (x : ℝ) / fixOne * 2 ^ 1074 ≤ F64.bitsMagnitude F64.oneBits := by
    rw [F64.bitsMagnitude_oneBits, Nat.cast_pow, Nat.cast_ofNat]
    exact mul_le_of_le_one_left (by positivity) (natCast_div_fixOne_le_one hx)
  have hnonneg : (0 : ℝ) ≤ x / fixOne * 2 ^ 1074 :=
    mul_nonneg (div_nonneg x.cast_nonneg fixOne.cast_nonneg) (pow_nonneg zero_le_two _)
  have hone := hr.le_oneBits hle
  rw [min_eq_left (hone.trans (by decide))] at hbits
  exact ⟨r, hone, by rw [fixRound, F64.ofRatio, hbits], hr.abs_sub_le_of_le_one hle hnonneg⟩

/-- A signed fixed-point number of magnitude at most 1 is rounded by 2^−54 at most. -/
theorem F64.fixRound_of_le_one (neg : Bool) {x : Nat} (hx : x ≤ fixOne) :
    F64.isFinite (fixRound neg x) = true ∧
      |realOf (fixRound neg x) - (if neg then -(x / fixOne : ℝ) else x / fixOne)| ≤ 1 / 2 ^ 54 := by
  obtain ⟨r, hone, heq, herror⟩ := exists_isRounding_fixRound neg hx
  have h63 : r < 2 ^ 63 := hone.trans_lt (by decide)
  rw [heq, F64.isFinite_iff, F64.low_pack h63]
  refine ⟨hone.trans_lt (by decide), ?_⟩
  have hx0 : (0 : ℝ) ≤ x / fixOne := by positivity
  have habs : |if neg then -(x / fixOne : ℝ) else x / fixOne| = x / fixOne := by
    rw [apply_ite abs, abs_neg, ite_self, abs_of_nonneg hx0]
  rw [F64.abs_realOf_sub_of_sign, F64.abs_abs_realOf_sub, F64.low_pack h63, habs, div_le_iff₀ (by positivity)]
  · refine herror.trans_eq ?_
    rw [eq_comm, one_div_mul_eq_div, div_eq_iff (by positivity), ← pow_add]
  · intro hne
    have hpos : 0 < (x : ℝ) / fixOne := hx0.lt_of_ne' fun h => hne (by rw [← abs_eq_zero, habs, h])
    have hx : x ≠ 0 := by
      rintro rfl
      simp at hpos
    rw [F64.sign_pack h63]
    cases neg
    · simp [hpos.le]
    · simp [hpos, hx]

theorem FixNear.fixRound {x : Nat} {y : ℝ} (h : FixNear x y) :
    F64.Near (fixRound false x) y ∧ F64.Near (fixRound true x) (-y) := by
  obtain ⟨hfin, hround⟩ := F64.fixRound_of_le_one false h.le_one
  obtain ⟨hfin', hround'⟩ := F64.fixRound_of_le_one true h.le_one
  have hsum : (1 : ℝ) / 2 ^ 54 + 1 / 2 ^ 60 ≤ 1 / 2 ^ 53 := by norm_num
  refine ⟨⟨hfin, ?_⟩, ⟨hfin', ?_⟩⟩
  · exact (abs_sub_le _ _ _).trans ((add_le_add hround h.near).trans hsum)
  · refine (abs_sub_le _ _ _).trans ((add_le_add hround' ?_).trans hsum)
    rw [if_pos rfl, neg_sub_neg, abs_sub_comm]
    exact h.near

/-! ### The twiddle factors (44_transform_provider.md R166) -/

/-- The angle of the factor `m` is some quarter turns and a part of one. -/
theorem two_pi_mul_div_eq {N m : Nat} (hN : 0 < N) : 2 * Real.pi * m / N =
    Real.pi * (4 * m % N : Nat) / (2 * N) + (4 * m / N : Nat) * (Real.pi / 2) := by
  have hN' : (0 : ℝ) < N := Nat.cast_pos.2 hN
  have hm : (4 * m : ℝ) = N * (4 * m / N : Nat) + (4 * m % N : Nat) := by
    exact_mod_cast (Nat.div_add_mod (4 * m) N).symm
  field_simp
  linear_combination hm

theorem twiddle_near {N m : Nat} (hm : m < N) : F64.Near (twiddle N m).re (Real.cos (2 * Real.pi * m / N)) ∧
    F64.Near (twiddle N m).im (-Real.sin (2 * Real.pi * m / N)) := by
  have hN : 0 < N := by omega
  obtain ⟨hcos, hsin⟩ := quarterCosSin_near hN (Nat.mod_lt (4 * m) hN).le
  rw [two_pi_mul_div_eq hN]
  have hq : 4 * m / N < 4 := Nat.div_lt_of_lt_mul (by omega)
  generalize Real.pi * (4 * m % N : Nat) / (2 * N) = φ at *
  generalize hquarter : 4 * m / N = q at *
  obtain ⟨hc, hnc⟩ := hcos.fixRound
  obtain ⟨hs, hns⟩ := hsin.fixRound
  interval_cases q
  · simp only [twiddle, hquarter]
    rw [Nat.cast_zero, zero_mul, add_zero]
    exact ⟨hc, hns⟩
  · simp only [twiddle, hquarter]
    rw [Nat.cast_one, one_mul, Real.cos_add_pi_div_two, Real.sin_add_pi_div_two]
    exact ⟨hns, hnc⟩
  · simp only [twiddle, hquarter]
    rw [Nat.cast_ofNat, mul_div_cancel₀ _ two_ne_zero, Real.cos_add_pi, Real.sin_add_pi, neg_neg]
    exact ⟨hnc, hs⟩
  · simp only [twiddle, hquarter]
    have hangle : φ + (3 : Nat) * (Real.pi / 2) = φ + Real.pi / 2 + Real.pi := by push_cast; ring
    rw [hangle, Real.cos_add_pi, Real.sin_add_pi, Real.cos_add_pi_div_two, Real.sin_add_pi_div_two, neg_neg, neg_neg]
    exact ⟨hs, hc⟩

/-- The factors on the axes, after a whole number of quarter turns. -/
def axisFactor : Nat → Sample
  | 0 => ⟨fixRound false fixOne, fixRound true 0⟩
  | 1 => ⟨fixRound true 0, fixRound true fixOne⟩
  | 2 => ⟨fixRound true fixOne, fixRound false 0⟩
  | _ => ⟨fixRound false 0, fixRound false fixOne⟩

/-- On an axis no part of a quarter turn is left, and its cosine and sine are 1 and 0. -/
theorem twiddle_of_quarter {N m q : Nat} (hN : 0 < N) (h : 4 * m = q * N) : twiddle N m = axisFactor q := by
  have hnone : quarterCosSin N 0 = (fixOne, 0) := by
    rw [quarterCosSin, if_pos (Nat.zero_le _), Nat.mul_zero, Nat.zero_div]
    decide +kernel
  rw [twiddle, h, Nat.mul_mod_left, Nat.mul_div_cancel q hN, hnone]
  rfl

theorem realOf_fixRound_zero (neg : Bool) : realOf (fixRound neg 0) = 0 := by
  have hunits : ∀ neg, F64.units (fixRound neg 0) = 0 := by decide +kernel
  rw [realOf, hunits, Int.cast_zero, zero_div]

theorem realOf_fixRound_one (neg : Bool) : realOf (fixRound neg fixOne) = if neg then -1 else 1 := by
  have hunits : ∀ neg, F64.units (fixRound neg fixOne) = (if neg then -1 else 1) * 2 ^ 1074 := by decide +kernel
  rw [realOf, hunits, Int.cast_mul, Int.cast_pow, Int.cast_ofNat, mul_div_cancel_right₀ _ (by positivity)]
  cases neg <;> simp

/-- Settles O40: the root rounds as `F64.sqrtNat_eq_ofReal` says; a factor is a quarter turn's cosine and sine in fixed
point, rounded once, and exact where the turn is none. -/
theorem scaleAndTwiddlesAreRounded : Obligations.ScaleAndTwiddlesAreRounded := by
  refine ⟨fun N hN hmax => ?_, fun N m hN hmax hm => ?_⟩
  · have heq := F64.sqrtNat_eq_ofReal hN
    refine ⟨by rw [heq, numF64_ofReal], Machine.RoundsTo.nearestTo ?_ (F64.isFinite_sqrtNat hN hmax)⟩
    rw [heq]
    exact (F64.ofReal_roundsTo _).1
  · obtain ⟨⟨hre, hcos⟩, ⟨him, hsin⟩⟩ := twiddle_near hm
    have haxis (q : Nat) (hq : 4 * m = q * N) := twiddle_of_quarter hN hq
    refine ⟨hre, him, hcos, hsin, fun h => ?_, fun h => ?_, fun h => ?_, fun h => ?_⟩
    · rw [haxis 0 (by omega)]
      exact ⟨realOf_fixRound_one false, realOf_fixRound_zero true⟩
    · rw [haxis 1 (by omega)]
      exact ⟨realOf_fixRound_zero true, realOf_fixRound_one true⟩
    · rw [haxis 2 (by omega)]
      exact ⟨realOf_fixRound_one true, realOf_fixRound_zero false⟩
    · rw [haxis 3 (by omega)]
      exact ⟨realOf_fixRound_zero false, realOf_fixRound_one false⟩

end

end Sys2Proof

namespace Sys2Proof.Machine

/-! ### The nearest pilot (47_demodulator.md R214, R215) -/

theorem mem_pilotIndices {roles : List Role} {p : Nat} : p ∈ pilotIndices roles ↔ roles[p]? = some .pilot := by
  simp [pilotIndices, mem_roleIndices]

/-- The scan of a list that is not empty, from its first position on: the least distance, at the lowest position. -/
theorem nearestPilot_spec {pilots : List Nat} (hne : pilots ≠ []) (d : Nat) :
    ∃ p, pilots[nearestPilot pilots d]? = some p ∧
      (∀ j q : Nat, pilots[j]? = some q → absDiff d p ≤ absDiff d q) ∧
      ∀ j q : Nat, j < nearestPilot pilots d → pilots[j]? = some q → absDiff d p < absDiff d q := by
  cases pilots with
  | nil => exact absurd rfl hne
  | cons p ps =>
    refine nearestFrom_spec d (p :: ps) 1 0 p ps rfl one_pos rfl (fun j q hj hq => ?_)
      fun j q hj => absurd hj j.not_lt_zero
    obtain rfl := Nat.lt_one_iff.1 hj
    rw [Option.some.inj hq]

/-- Settles O44: the Pilot indices ascend, so that the lowest position is that of the lowest index. -/
theorem nearestPilotIsNearest : Obligations.NearestPilotIsNearest := by
  rintro roles d ⟨q, hq⟩
  obtain ⟨p, hp, hle, hlower⟩ := nearestPilot_spec (List.ne_nil_of_mem (mem_pilotIndices.2 hq)) d
  refine ⟨p, hp, mem_pilotIndices.1 (List.mem_of_getElem? hp), fun q hq => ?_⟩
  obtain ⟨j, hj⟩ := List.mem_iff_getElem?.1 (mem_pilotIndices.2 hq)
  refine (hle j q hj).lt_or_eq.imp_right fun heq => ⟨heq, ?_⟩
  have hpos : nearestPilot (pilotIndices roles) d ≤ j := not_lt.1 fun hlt => (hlower j q hlt hj).ne heq
  obtain ⟨hi, rfl⟩ := List.getElem?_eq_some_iff.1 hp
  obtain ⟨hj', rfl⟩ := List.getElem?_eq_some_iff.1 hj
  exact (roleIndices_sorted .pilot 0 roles).sortedLT.strictMono_get.monotone (a := ⟨_, hi⟩) (b := ⟨_, hj'⟩) hpos

/-- Under the placement rule the nearest pilot is a nearest one of the multiples of P from P up to N − 2. -/
theorem isNearestPilot_computeRoles {N P d i : Nat} (hP : 0 < P) (hi : 0 < i) (hle : i * P ≤ N - 2)
    (h : ∀ j, 0 < j → j * P ≤ N - 2 →
      absDiff d (i * P) < absDiff d (j * P) ∨ absDiff d (i * P) = absDiff d (j * P) ∧ i * P ≤ j * P) :
    IsNearestPilot (computeRoles N P) d (i * P) := by
  refine ⟨mem_pilotIndices.1 (mem_pilotIndices_computeRoles.2
    ⟨hP, Nat.dvd_mul_left P i, Nat.mul_pos hi hP, hle⟩), fun q hq => ?_⟩
  obtain ⟨-, ⟨j, rfl⟩, hpos, hqle⟩ := mem_pilotIndices_computeRoles.1 (mem_pilotIndices.2 hq)
  rw [Nat.mul_comm P j] at hqle ⊢
  exact h j (Nat.pos_of_mul_pos_left hpos) hqle

/-- No multiple of P lies strictly between the `q`-th and the next. -/
theorem mul_le_or_add_le_mul (q j P : Nat) : j * P ≤ q * P ∨ q * P + P ≤ j * P := by
  rw [← Nat.succ_mul]
  exact (Nat.lt_or_ge q j).symm.imp (Nat.mul_le_mul_right P) (Nat.mul_le_mul_right P)

/-- Settles O45: the pilots are multiples of P and `d` lies between the `q`-th and the next, of which the rule's first
two cases leave one. -/
theorem nearestPilotClosedForm : Obligations.NearestPilotClosedForm := by
  intro N P d hN hP hPN hd
  have hdN : d ≤ N - 2 := by
    have hlt : d < N := by simpa using (List.getElem?_eq_some_iff.1 hd).1
    rw [getElem?_computeRoles hlt] at hd
    have hguard : ¬ (d = 0 ∨ d = N - 1) := fun h => by simp [computeRole_eq_guard_iff.2 h] at hd
    omega
  have hdiv : d / P * P + d % P = d := Nat.div_add_mod' d P
  have hmod : d % P < P := Nat.mod_lt d hP
  have hsucc : (d / P + 1) * P = d / P * P + P := Nat.succ_mul _ _
  split_ifs with hzero hlast hhalf
  · have hfirst : IsNearestPilot (computeRoles N P) d (1 * P) := by
      refine isNearestPilot_computeRoles hP one_pos (by omega) fun j hj _ => ?_
      have := Nat.le_mul_of_pos_left P hj
      rw [hzero] at hdiv
      unfold absDiff
      omega
    rwa [Nat.one_mul] at hfirst
  · have hq : (N - 2) / P = d / P := le_antisymm hlast (Nat.div_le_div_right hdN)
    rw [hq]
    refine isNearestPilot_computeRoles hP (Nat.pos_of_ne_zero hzero) (by omega) fun j _ hjN => ?_
    have := Nat.mul_le_mul_right P (((Nat.le_div_iff_mul_le hP).2 hjN).trans_eq hq)
    unfold absDiff
    omega
  · refine isNearestPilot_computeRoles hP (Nat.pos_of_ne_zero hzero) (by omega) fun j _ _ => ?_
    have := mul_le_or_add_le_mul (d / P) j P
    unfold absDiff
    omega
  · have hle : (d / P + 1) * P ≤ N - 2 := (Nat.le_div_iff_mul_le hP).1 (not_le.1 hlast)
    refine isNearestPilot_computeRoles hP (d / P).succ_pos hle fun j _ _ => ?_
    have := mul_le_or_add_le_mul (d / P) j P
    unfold absDiff
    omega

/-! ### Equalization by the nearest pilot (47_demodulator.md R212 to R216) -/

section
variable {T : Type} {P : Params T} {k : Ctx} {F2 : List (Cx T)}

theorem exists_pilot (hk : Ctx.InvFor P k) (hv : k.valid = true) (hpilots : k.npilot ≠ 0) :
    ∃ q : Nat, k.roles[q]? = some .pilot := by
  obtain ⟨-, -, -, -, -, -, -, hcount, -⟩ := hk hv
  have hmem : Role.pilot ∈ k.roles := List.count_pos_iff.1 (by
    rw [← hcount]
    exact Nat.pos_of_ne_zero fun h => hpilots (BitVec.eq_of_toNat_eq h))
  exact List.mem_iff_getElem?.1 hmem

/-- The gain that the Data index `d` adopts, that of its nearest pilot (47_demodulator.md R214). -/
def adoptedGain (P : Params T) (roles : List Role) (F2 : List (Cx T)) (d : Nat) : Cx T :=
  entryAt P (pilotGains P (pilotIndices roles) F2) (nearestPilot (pilotIndices roles) d)

theorem equalized_of_no_pilots (h : k.npilot = 0) : equalized P k F2 = (dataIndices k.roles).map (entryAt P F2) :=
  if_pos h

theorem equalized_of_pilots (h : k.npilot ≠ 0) : equalized P k F2 =
    (dataIndices k.roles).map fun d => equalizeEntry P (entryAt P F2 d) (adoptedGain P k.roles F2 d) :=
  if_neg h

theorem exists_nearest_adoptedGain {roles : List Role} (h : ∃ q : Nat, roles[q]? = some .pilot) (d : Nat) :
    ∃ p, IsNearestPilot roles d p ∧ adoptedGain P roles F2 d = cdiv P.num (entryAt P F2 p) P.pilotRef := by
  obtain ⟨p, hp, hnear⟩ := nearestPilotIsNearest roles d h
  refine ⟨p, hnear, ?_⟩
  rw [adoptedGain, entryAt, pilotGains, List.getD_eq_getElem?_getD, List.getElem?_map, hp]
  rfl

theorem equalizeEntry_of_iszero {gain : Cx T} (received : Cx T) (h : iszero P.num gain = true) :
    equalizeEntry P received gain = received := if_pos h

/-- Group `j` of the demodulated bits is that of the equalized entry at `d_j` (47_demodulator.md R217). -/
theorem getElem?_demapAll_map {f : Nat → Cx T} {d b : Nat} (hd : k.roles[d]? = some .data) (hb : b < k.bits) :
    (demapAll P k.bits ((dataIndices k.roles).map f))[rankOf .data k.roles d * k.bits + b]? =
      (demapBits P k.bits (f d))[b]? := by
  refine getElem?_flatMap_group _ k.bits (length_demapBits P k.bits) _ _ b hb _ ?_
  rw [List.getElem?_map, dataIndices_rankOf hd, Option.map_some]

theorem entryAt_receivedVector {y : List (Cx T)} (hy : (strip y k.cp).length = k.n) {j : Nat} (hj : j < k.n) :
    entryAt P (receivedVector P k y) j =
      cscale P.num (P.rxScale k.n) (providerOf P k .forward k.n (strip y k.cp) j) := by
  rw [entryAt, receivedVector, List.getD_eq_getElem?_getD, List.getElem?_map, getElem?_askProvider _ _ _ _ hy j hj]
  rfl

theorem strip_inputs_samples (inp : Inputs T) (n L : Nat) :
    strip (inp.samples (n + L)) L = (List.range n).map fun i => inp.sample (L + i) := by
  refine List.ext_getElem (by simp) fun i _ _ => ?_
  simp [strip, Inputs.samples]

end

/-! ### DEMODULATE -/

theorem exec_demodulate (c : BitVec 1) (lenIn : Word) (s : State) :
    exec (.demodulate c lenIn) s = .next (deliver (demodulateCmd engineParams c lenIn s.engine s.inputs) s) := rfl

theorem demodulateCmd_of_length {T : Type} {P : Params T} {c : BitVec 1} {lenIn : Word} {e : EngineState}
    (inp : Inputs T) (hv : (e.ctx c).valid = true) (hlen : lenIn = (e.ctx c).symlen) :
    demodulateCmd P c lenIn e inp = .bits (e.ctx c).capbits
      (demodulateSymbol P (e.ctx c) (inp.samples (e.ctx c).symlen.toNat)) := by
  rw [demodulateCmd, checks_pass c e (fun k => lenIn == k.symlen) _ (beq_iff_eq.2 hlen) hv]

/-- Settles O43: the checks pass or answer; then the entries are the provider's, scaled, and the gain of a Data index
is that of its nearest pilot. -/
theorem demodulateAnswers : Obligations.DemodulateAnswers := by
  intro c lenIn s k N prov core F2
  refine ⟨fun hk hv hlen => ?_, checks_fail_answers c s lenIn Ctx.symlen _⟩
  obtain ⟨hroles, -, hsym, hcap⟩ := ctx_numbers engineParams k hk hv
  have hcore : strip (s.inputs.samples k.symlen.toNat) k.cp = core := by
    rw [hsym, strip_inputs_samples]
    rfl
  have hentry {j : Nat} {r : Role} (hj : k.roles[j]? = some r) :
      entryAt engineParams (receivedVector engineParams k (s.inputs.samples k.symlen.toNat)) j = F2 j := by
    have hlt : j < k.n := hroles ▸ (List.getElem?_eq_some_iff.1 hj).1
    rw [entryAt_receivedVector (by rw [length_strip, length_inputs_samples, hsym, Nat.add_sub_cancel]) hlt, hcore,
      providerOf_engineParams, Params.rxScale, engineParams_num, engineParams_txScale, numF64_div, numF64_ofInt]
    rfl
  refine ⟨demodulateSymbol engineParams k (s.inputs.samples k.symlen.toNat), ?_, ?_,
    fun d hd b hb => ⟨fun hnone => ?_, fun hpilots => ?_⟩⟩
  · rw [exec_demodulate, demodulateCmd_of_length s.inputs hv hlen, deliver_bits]
  · rw [length_demodulateSymbol, hcap]
  · rw [demodulateSymbol, equalized_of_no_pilots hnone, getElem?_demapAll_map hd hb, hentry hd]
  · obtain ⟨p, hnear, hgain⟩ := exists_nearest_adoptedGain (P := engineParams)
      (F2 := receivedVector engineParams k (s.inputs.samples k.symlen.toNat)) (exists_pilot hk hv hpilots) d
    refine ⟨p, hnear, ?_⟩
    rw [demodulateSymbol, equalized_of_pilots hpilots, getElem?_demapAll_map hd hb, hgain, hentry hd, hentry hnear.1]
    rfl

end Sys2Proof.Machine

namespace Sys2Proof.Machine

/-! ### Division and scaling over the reals -/

theorem complexOf_eq_zero_iff {z : Cx ℝ} : complexOf z = 0 ↔ z = ⟨0, 0⟩ := complexOf_injective.eq_iff' complexOf_zero

theorem complexOf_cdiv {z w : Cx ℝ} (hw : w ≠ ⟨0, 0⟩) :
    complexOf (cdiv numExact z w) = complexOf z / complexOf w := by
  have hnorm : w.re * w.re + w.im * w.im ≠ 0 := Complex.normSq_eq_zero.not.2 (mt complexOf_eq_zero_iff.1 hw)
  apply Complex.ext
  · rw [Complex.div_re, Complex.normSq_apply, ← add_div]
    exact numExact_div_of_ne _ _ hnorm
  · rw [Complex.div_im, Complex.normSq_apply, ← sub_div]
    exact numExact_div_of_ne _ _ hnorm

theorem cdiv_cmul_cancel (h : Cx ℝ) {z : Cx ℝ} (hz : z ≠ ⟨0, 0⟩) : cdiv numExact (cmul numExact h z) z = h := by
  apply complexOf_injective
  rw [complexOf_cdiv hz, complexOf_cmul, mul_div_cancel_right₀ _ (mt complexOf_eq_zero_iff.1 hz)]

theorem cmul_comm (z w : Cx ℝ) : cmul numExact z w = cmul numExact w z := by
  apply complexOf_injective
  rw [complexOf_cmul, complexOf_cmul, mul_comm]

theorem map_one_cmul (V : List (Cx ℝ)) : V.map (cmul numExact ⟨1, 0⟩) = V := by
  have hid : cmul numExact ⟨1, 0⟩ = id := funext fun z => by simp [cmul]
  rw [hid, List.map_id]

theorem zero_cmul (z : Cx ℝ) : cmul numExact ⟨0, 0⟩ z = ⟨0, 0⟩ := by simp [cmul]

theorem zero_cdiv {z : Cx ℝ} (hz : z ≠ ⟨0, 0⟩) : cdiv numExact ⟨0, 0⟩ z = ⟨0, 0⟩ := by
  rw [← zero_cmul z, cdiv_cmul_cancel _ hz, zero_cmul]

theorem czero_numExact : czero numExact = ⟨0, 0⟩ := by simp [czero]

theorem iszero_numExact_iff {z : Cx ℝ} : iszero numExact z = true ↔ z = ⟨0, 0⟩ := by
  cases z
  simp [iszero]

/-- A real scale is a complex factor. -/
theorem cscale_eq_cmul (r : ℝ) : cscale numExact r = cmul numExact ⟨r, 0⟩ := by
  funext z
  simp [cscale, cmul]

/-- Scale and inverse scale cancel around a channel gain. -/
theorem cscale_cmul_cscale (h : Cx ℝ) {r : ℝ} (hr : r ≠ 0) (z : Cx ℝ) :
    cscale numExact (numExact.div (numExact.ofInt 1) r) (cmul numExact h (cscale numExact r z)) = cmul numExact h z := by
  have hr' : (r : ℂ) ≠ 0 := Complex.ofReal_ne_zero.2 hr
  apply complexOf_injective
  rw [numExact_div_of_ne _ _ hr, complexOf_cscale, complexOf_cmul, complexOf_cscale, complexOf_cmul, numExact_ofInt]
  push_cast
  field_simp

/-! ### A flat channel between two contexts (47_demodulator.md R219, R220) -/

/-- An engine over `NUM_EXACT`, and two constructed contexts of one configuration: `k` receives what `sender` sends.
The receiver's provider undoes the sender's and is homogeneous (47_demodulator.md R219). -/
structure ExactLink (P : Params ℝ) (sender k : Ctx) : Prop where
  num : P.num = numExact
  inv : Ctx.InvFor P k
  valid : k.valid = true
  sameConfiguration : sender = { k with xsel := sender.xsel }
  premises : DemapPremises P k.bits
  pilotRef : P.pilotRef ≠ ⟨0, 0⟩
  txScale : P.txScale k.n ≠ 0
  pair : ∀ X : List (Cx ℝ), X.length = k.n →
    askProvider (providerOf P k) .forward (askProvider (providerOf P sender) .inverse X) = X
  scales : ProviderScales (providerOf P k) k.n

theorem entryAt_map_cmul {P : Params ℝ} (hnum : P.num = numExact) (h : Cx ℝ) (V : List (Cx ℝ)) (d : Nat) :
    entryAt P (V.map (cmul numExact h)) d = cmul numExact h (entryAt P V d) := by
  have hzero : cmul numExact h (czero numExact) = czero numExact := by simp [czero, cmul]
  have hmap := List.getD_map (l := V) (n := d) (d := czero numExact) (f := cmul numExact h)
  rw [hzero] at hmap
  rwa [entryAt, entryAt, hnum]

/-- The Pilot entries of a built vector. -/
theorem entryAt_pilot_of_bitsToFreq {T : Type} {P : Params T} {k : Ctx} {b : List Bool} {V : List (Cx T)}
    (hV : bitsToFreq P k b = .ok V) {p : Nat} (hp : k.roles[p]? = some .pilot) : entryAt P V p = P.pilotRef := by
  obtain ⟨-, hfill⟩ := bitsToFreq_eq_ok_iff.1 hV
  obtain ⟨-, hpilot, -⟩ := fillRoles_entry P k.bits k.roles b V hfill p (List.getElem?_eq_some_iff.1 hp).1
  rw [entryAt, List.getD_eq_getElem?_getD, hpilot hp, Option.getD_some]

section
variable {P : Params ℝ} {sender k : Ctx} (link : ExactLink P sender k) {V : List (Cx ℝ)} {bits : List Bool} {h : Cx ℝ}
include link

theorem ExactLink.bitsToFreq_sender : bitsToFreq P sender bits = bitsToFreq P k bits := by
  rw [link.sameConfiguration]
  rfl

/-- The scaled frequency vector is the sent one under the channel's gain, the two scales cancelling. -/
theorem ExactLink.receivedVector_map_cmul_symbolOf (h : Cx ℝ) (hV : V.length = k.n) :
    receivedVector P k ((symbolOf P sender V).map (cmul numExact h)) = V.map (cmul numExact h) := by
  obtain ⟨-, hcp, -, -⟩ := ctx_numbers P k link.inv link.valid
  have hn : sender.n = k.n := by rw [link.sameConfiguration]; rfl
  have hc : sender.cp = k.cp := by rw [link.sameConfiguration]; rfl
  have hlen : (coreSamples P sender V).length = k.n := (length_coreSamples P sender V).trans hV
  have hstrip : strip ((symbolOf P sender V).map (cmul numExact h)) k.cp =
      (coreSamples P sender V).map (cmul numExact h) := by
    rw [strip, ← List.map_drop, ← strip, symbolOf, hc, strip_prepend (hcp.le.trans_eq hlen.symm)]
  have hforward : askProvider (providerOf P k) .forward (coreSamples P sender V) =
      V.map (cscale numExact (P.txScale k.n)) := by
    rw [coreSamples, hn, link.num, cscale_eq_cmul, link.scales .forward _ _ (by rw [length_askProvider, hV]),
      link.pair V hV]
  rw [receivedVector, hstrip, link.scales .forward h _ hlen, hforward, List.map_map, List.map_map]
  refine List.map_congr_left fun z _ => ?_
  rw [Function.comp, Function.comp, Params.rxScale, link.num, cscale_cmul_cscale h link.txScale]

/-- Every pilot shows the gain of a flat channel, so that equalization takes it away. -/
theorem ExactLink.equalized_map_cmul (hV : bitsToFreq P k bits = .ok V) (hh : h ≠ ⟨0, 0⟩) (hpilots : k.npilot ≠ 0) :
    equalized P k (V.map (cmul numExact h)) = (dataIndices k.roles).map (entryAt P V) := by
  rw [equalized_of_pilots hpilots]
  refine List.map_congr_left fun d _ => ?_
  obtain ⟨p, ⟨hp, -⟩, hgain⟩ := exists_nearest_adoptedGain (P := P) (F2 := V.map (cmul numExact h))
    (exists_pilot link.inv link.valid hpilots) d
  rw [entryAt_map_cmul link.num, entryAt_pilot_of_bitsToFreq hV hp, link.num, cdiv_cmul_cancel h link.pilotRef] at hgain
  rw [hgain, entryAt_map_cmul link.num, equalizeEntry, link.num, if_neg (mt iszero_numExact_iff.1 hh), cmul_comm,
    cdiv_cmul_cancel _ hh]

/-- What is sent comes back behind a flat channel of non-zero gain; without pilots, behind an ideal one. -/
theorem ExactLink.demodulateSymbol_map_cmul_symbolOf (hbits : bits.length = sender.capbits.toNat) (hh : h ≠ ⟨0, 0⟩)
    (hideal : k.npilot = 0 → h = ⟨1, 0⟩) :
    ∃ V, bitsToFreq P sender bits = .ok V ∧
      demodulateSymbol P k ((symbolOf P sender V).map (cmul numExact h)) = bits := by
  obtain ⟨hroles, -, -, -⟩ := ctx_numbers P k link.inv link.valid
  obtain ⟨V, hV, hparse⟩ := layoutRoundTrip ℝ P k bits link.inv link.valid link.premises
    (by rw [hbits, link.sameConfiguration])
  have hlen : V.length = k.n := (length_bitsToFreq P k bits V hV).trans hroles
  refine ⟨V, link.bitsToFreq_sender.trans hV, ?_⟩
  rw [demodulateSymbol, link.receivedVector_map_cmul_symbolOf h hlen]
  by_cases hnone : k.npilot = 0
  · rw [hideal hnone, map_one_cmul, equalized_of_no_pilots hnone]
    exact hparse
  · rw [link.equalized_map_cmul hV hh hnone]
    exact hparse

end

/-- The contexts of one configuration differ in the provider alone. -/
theorem buildCtx_eq_with_xsel {T : Type} {P : Params T} {x x' : BitVec 1} {order : BitVec 8} {nsc cplen pevery : Word}
    {a b : Ctx} (ha : buildCtx P x order nsc cplen pevery = .ok a)
    (hb : buildCtx P x' order nsc cplen pevery = .ok b) : a = { b with xsel := a.xsel } := by
  obtain ⟨-, -, -, -, rfl⟩ := (buildCtx_ok P x order nsc cplen pevery a).1 ha
  obtain ⟨-, -, -, -, rfl⟩ := (buildCtx_ok P x' order nsc cplen pevery b).1 hb
  rfl

theorem buildCtx_configuration {T : Type} {P : Params T} {x : BitVec 1} {order : BitVec 8} {nsc cplen pevery : Word}
    {k : Ctx} (h : buildCtx P x order nsc cplen pevery = .ok k) : k.valid = true ∧ k.nsc = nsc ∧ k.bps = order := by
  obtain ⟨-, -, -, -, rfl⟩ := (buildCtx_ok P x order nsc cplen pevery k).1 h
  exact ⟨rfl, rfl, rfl⟩

/-- The hypotheses of the round-trip statements make a link. -/
theorem exactLink_of_buildCtx {nscMax : Nat} {pilotRef : Cx ℝ} {txScale : Nat → ℝ} {xp : Provider ℝ}
    {x x' : BitVec 1} {order : BitVec 8} {nsc cplen pevery : Word} {a b : Ctx} (hmax : nscMax ≤ 2 ^ 28)
    (ho : legalOrder order = true) (hpilot : pilotRef ≠ ⟨0, 0⟩) (hscale : 0 < txScale nsc.toNat)
    (ha : buildCtx (exactParams nscMax pilotRef txScale xp) x order nsc cplen pevery = .ok a)
    (hb : buildCtx (exactParams nscMax pilotRef txScale xp) x' order nsc cplen pevery = .ok b)
    (hpair : ∀ X : List (Cx ℝ), X.length = nsc.toNat →
      askProvider (providerOf (exactParams nscMax pilotRef txScale xp) b) .forward
        (askProvider (providerOf (exactParams nscMax pilotRef txScale xp) a) .inverse X) = X)
    (hscales : ProviderScales (providerOf (exactParams nscMax pilotRef txScale xp) b) nsc.toNat) :
    ExactLink (exactParams nscMax pilotRef txScale xp) a b := by
  obtain ⟨m, hm, -, horder⟩ := exists_half_of_legalOrder ho
  obtain ⟨hv, rfl, rfl⟩ := buildCtx_configuration hb
  have hpremises : DemapPremises (exactParams nscMax pilotRef txScale xp) b.bits := by
    rw [Ctx.bits, horder]
    exact demapPremises_exact nscMax pilotRef txScale xp hm
  exact ⟨rfl, buildCtx_invFor _ hmax ho hb, hv, buildCtx_eq_with_xsel ha hb, hpremises, hpilot, hscale.ne', hpair,
    hscales⟩

/-- Settles O47: with a pilot the channel may have any non-zero gain. -/
theorem flatChannelRecovered : Obligations.FlatChannelRecovered := by
  intro nscMax pilotRef txScale xp x x' order nsc cplen pevery a b bits h hmax ho hpilot hscale ha hb hpair hscales
    hbits hh hpilots
  have link := exactLink_of_buildCtx hmax ho hpilot hscale ha hb hpair hscales
  obtain ⟨V, hV, hdemodulate⟩ := link.demodulateSymbol_map_cmul_symbolOf hbits hh fun hnone => absurd hnone hpilots
  exact ⟨_, modulateSymbol_of_ok hV, hdemodulate⟩

/-- Settles O46: the ideal channel is the flat one of gain 1; the commands find in their buffers what the functions are
given. -/
theorem roundTripIdealChannel : Obligations.RoundTripIdealChannel := by
  intro nscMax pilotRef txScale xp x x' order nsc cplen pevery a b bits hmax ho hpilot hscale ha hb hpair hscales hbits
  have link := exactLink_of_buildCtx hmax ho hpilot hscale ha hb hpair hscales
  obtain ⟨V, hV, hdemodulate⟩ := link.demodulateSymbol_map_cmul_symbolOf hbits (h := ⟨1, 0⟩) (by simp) fun _ => rfl
  rw [map_one_cmul] at hdemodulate
  obtain ⟨hva, -, -⟩ := buildCtx_configuration ha
  have hlen : (symbolOf (exactParams nscMax pilotRef txScale xp) a V).length = b.symlen.toNat := by
    rw [buildCtx_eq_with_xsel hb ha]
    exact length_modulateSymbol_inv _ a (buildCtx_invFor _ hmax ho ha) hva bits _ (modulateSymbol_of_ok hV)
  refine ⟨_, modulateSymbol_of_ok hV, hdemodulate, fun samples rest => ⟨?_, ?_⟩⟩
  · refine modulateCmd_of_ok (e := ⟨a, b⟩) (c := 0) hva rfl rfl ?_
    rw [EngineState.ctx_zero, ← hbits, inputs_bits_getD, hV]
  · refine (demodulateCmd_of_length (e := ⟨a, b⟩) (c := 1) _ link.valid rfl).trans ?_
    rw [EngineState.ctx_one, ← hlen, inputs_samples_getD, hdemodulate]

end Sys2Proof.Machine

namespace Sys2Proof.Machine

/-! ### The point that the origin demaps to (47_demodulator.md R220) -/

theorem IsLeastIndex.unique {α : Type} [LinearOrder α] {key : Nat → α} {m i j : Nat} (hi : IsLeastIndex key m i)
    (hj : IsLeastIndex key m j) : i = j := by
  obtain hlt | heq | hgt := lt_trichotomy i j
  · exact absurd (hi.le j hj.lt) (hj.lower i hlt).not_ge
  · exact heq
  · exact absurd (hj.le i hi.lt) (hi.lower j hgt).not_ge

/-- The squared distance of a point's levels from the origin. -/
def levelEnergy (bps i : Nat) : Int :=
  (pointLevels bps i).1 * (pointLevels bps i).1 + (pointLevels bps i).2 * (pointLevels bps i).2

theorem dist2_zero_exactPoint (bps i : Nat) :
    dist2 numExact ⟨0, 0⟩ (exactPoint bps i) = levelEnergy bps i / energyOf bps := by
  have hroot : Real.sqrt (energyOf bps) * Real.sqrt (energyOf bps) = energyOf bps :=
    Real.mul_self_sqrt (Nat.cast_nonneg _)
  simp only [dist2, exactPoint, levelEnergy, numExact_add, numExact_sub, numExact_mul, zero_sub, neg_mul_neg,
    div_mul_div_comm, hroot, ← add_div]
  push_cast
  rfl

/-- The index of the lowest of the points of levels ±1. -/
def originIndex (order : BitVec 8) : Nat :=
  if order = 2 then 0 else if order = 4 then 5 else if order = 6 then 18 else 68

theorem isLeastIndex_levelEnergy {order : BitVec 8} (ho : legalOrder order = true) :
    IsLeastIndex (levelEnergy order.toNat) (2 ^ order.toNat) (originIndex order) := by
  rw [legalOrder_iff] at ho
  simp only [List.mem_cons, List.not_mem_nil, or_false] at ho
  obtain rfl | rfl | rfl | rfl := ho <;> exact ⟨by decide, by decide +kernel, by decide +kernel⟩

section
variable (nscMax : Nat) (pilotRef : Cx ℝ) (txScale : Nat → ℝ) (xp : Provider ℝ)

/-- The origin is as near to a point as the point's levels are small. -/
theorem demapBits_exact_zero {order : BitVec 8} (ho : legalOrder order = true) :
    demapBits (exactParams nscMax pilotRef txScale xp) order.toNat ⟨0, 0⟩ =
      bitsOf order.toNat (originIndex order) := by
  obtain ⟨m, hm, -, horder⟩ := exists_half_of_legalOrder ho
  have henergy : (0 : ℝ) < energyOf order.toNat := Nat.cast_pos.2 (horder ▸ energyOf_two_mul_pos hm)
  have hscan := demapIdx_isLeastIndex (exactParams_openDemap nscMax pilotRef txScale xp order.toNat ⟨0, 0⟩)
    (levelEnergy order.toNat) fun i _ j _ => by
      rw [exactParams_num, exactParams_point, numExact_lt, dist2_zero_exactPoint, dist2_zero_exactPoint,
        div_lt_div_iff_of_pos_right henergy, Int.cast_lt]
  rw [demapBits, hscan.unique (isLeastIndex_levelEnergy ho)]

end

/-! ### A channel of gain zero (47_demodulator.md R216, R220) -/

/-- A homogeneous provider answers zeros with zeros. -/
theorem askProvider_replicate_zero {p : Provider ℝ} {N : Nat} (h : ProviderScales p N) (dir : Dir) :
    askProvider p dir (List.replicate N ⟨0, 0⟩) = List.replicate N ⟨0, 0⟩ := by
  have hmap {x : List (Cx ℝ)} (hx : x.length = N) : x.map (cmul numExact ⟨0, 0⟩) = List.replicate N ⟨0, 0⟩ := by
    rw [List.map_congr_left fun z _ => zero_cmul z, List.map_const', hx]
  have hscaled := h dir ⟨0, 0⟩ (List.replicate N ⟨0, 0⟩) List.length_replicate
  rwa [hmap List.length_replicate, hmap (by rw [length_askProvider, List.length_replicate])] at hscaled

section
variable {P : Params ℝ} {k : Ctx} {F2 : List (Cx ℝ)} (hnum : P.num = numExact)
include hnum

theorem entryAt_replicate_zero (n d : Nat) : entryAt P (List.replicate n ⟨0, 0⟩) d = ⟨0, 0⟩ := by
  rw [entryAt, hnum, czero_numExact, List.getD_eq_getElem?_getD, List.getElem?_getD_replicate_default_eq]

section
variable (hpilot : P.pilotRef ≠ ⟨0, 0⟩) (hzero : ∀ p ∈ pilotIndices k.roles, entryAt P F2 p = ⟨0, 0⟩)
include hpilot hzero

theorem iszero_of_mem_pilotGains {g : Cx ℝ} (hg : g ∈ pilotGains P (pilotIndices k.roles) F2) :
    iszero numExact g = true := by
  obtain ⟨p, hp, rfl⟩ := List.mem_map.1 hg
  rw [hzero p hp, hnum, zero_cdiv hpilot, iszero_numExact_iff]

/-- With every received pilot zero no Data entry is divided. -/
theorem equalized_of_zero_pilots (hexists : ∃ q : Nat, k.roles[q]? = some .pilot) (hpilots : k.npilot ≠ 0) :
    equalized P k F2 = (dataIndices k.roles).map (entryAt P F2) := by
  rw [equalized_of_pilots hpilots]
  refine List.map_congr_left fun d _ => equalizeEntry_of_iszero _ ?_
  obtain ⟨p, ⟨hp, -⟩, hgain⟩ := exists_nearest_adoptedGain (P := P) (F2 := F2) hexists d
  rw [hgain, hzero p (mem_pilotIndices.2 hp), hnum, zero_cdiv hpilot, iszero_numExact_iff]

end

theorem receivedVector_replicate_zero (hscales : ProviderScales (providerOf P k) k.n) :
    receivedVector P k (List.replicate (k.n + k.cp) ⟨0, 0⟩) = List.replicate k.n ⟨0, 0⟩ := by
  rw [receivedVector, strip, List.drop_replicate, Nat.add_sub_cancel, askProvider_replicate_zero hscales,
    List.map_replicate, hnum]
  simp [cscale]

end

/-- Settles O48: a zero pilot has gain zero, a gain of zero divides nothing, and a homogeneous provider turns the
all-zero symbol into zeros, which demap as the origin. -/
theorem zeroChannelFallsBack : Obligations.ZeroChannelFallsBack := by
  intro nscMax pilotRef txScale xp x order nsc cplen pevery k hmax ho hpilot hk hscales hpilots
  have hinv := buildCtx_invFor (exactParams nscMax pilotRef txScale xp) hmax ho hk
  obtain ⟨hv, rfl, rfl⟩ := buildCtx_configuration hk
  obtain ⟨-, -, hsym, -⟩ := ctx_numbers _ k hinv hv
  obtain ⟨-, -, -, -, -, -, -, -, hdata, -, -⟩ := hinv hv
  have hexists := exists_pilot hinv hv hpilots
  rw [hsym, demodulateSymbol, receivedVector_replicate_zero rfl hscales]
  have hzero (d : Nat) : entryAt (exactParams nscMax pilotRef txScale xp) (List.replicate k.n ⟨0, 0⟩) d = ⟨0, 0⟩ :=
    entryAt_replicate_zero rfl k.n d
  refine ⟨fun z _ => equalizeEntry_of_iszero (P := exactParams nscMax pilotRef txScale xp) z, fun F2 hF2 =>
    ⟨fun _ => iszero_of_mem_pilotGains rfl hpilot hF2, equalized_of_zero_pilots rfl hpilot hF2 hexists hpilots⟩,
    fun _ => iszero_of_mem_pilotGains rfl hpilot fun p _ => hzero p, ?_⟩
  rw [equalized_of_zero_pilots rfl hpilot (fun p _ => hzero p) hexists hpilots, demapAll,
    List.map_congr_left fun d _ => hzero d, List.map_const', List.flatMap_replicate, Ctx.bits,
    demapBits_exact_zero _ _ _ _ ho, dataIndices, length_roleIndices, hdata]
  rfl

end Sys2Proof.Machine

namespace Sys2Proof.Machine

/-! ### Why a command fails (60_exceptions.md R243, R244) -/

theorem errorCode_injective : Function.Injective EngineError.code := by
  intro e e'
  cases e <;> cases e' <;> decide

/-- What the error `err` of the command `i` in the engine state `e` comes from: the context it uses, its `ORDER`, or a
check of its own. -/
inductive FailureReason (i : Instr) (e : EngineState) : EngineError → Prop where
  | unconstructed {c : BitVec 1} (hc : usedContext i = some c) (hv : (e.ctx c).valid = false) :
    FailureReason i e .notConstructed
  /-- no packet decodes to such a command (30_encoding.md R88; log entry 21) -/
  | illegalOrder (hi : i.wellFormed = false) : FailureReason i e .illegalCommand
  | own {err : EngineError} (h : ownError i = some err) : FailureReason i e err

section
variable {T : Type} {P : Params T} {i : Instr} {e : EngineState} {inp : Inputs T} {err : EngineError}

/-- The check on the context comes first, whatever the lengths (60_exceptions.md R234, R244). -/
theorem engineStep_of_invalid {c : BitVec 1} (hc : usedContext i = some c) (hv : (e.ctx c).valid = false) :
    engineStep P i e inp = .fail .notConstructed := by
  cases i with
  | construct | map | demap => cases hc
  | getsymlen | getcap | modulate | demodulate | b2f | f2b | xfwd | xinv | cpadd | cpstrip =>
    cases hc
    dsimp only [engineStep, getsymlenCmd, getcapCmd, modulateCmd, demodulateCmd, b2fCmd, f2bCmd, wrapperCmd, cpaddCmd,
      cpstripCmd]
    exact withContext_invalid c e _ hv

theorem failureReason_of_withContext {c : BitVec 1} {body : Ctx → Effect T} (hc : usedContext i = some c)
    (h : withContext c e body = .fail err)
    (hbody : (e.ctx c).valid = true → body (e.ctx c) = .fail err → FailureReason i e err) :
    FailureReason i e err := by
  obtain ⟨hv, hk⟩ | ⟨hv, hk⟩ := withContext_cases c e body <;> rw [hk] at h
  · exact hbody hv h
  · cases h
    exact .unconstructed hc hv

theorem failureReason_of_checks {c : BitVec 1} {ok : Ctx → Bool} {body : Ctx → Effect T}
    (hc : usedContext i = some c) (hi : ownError i = some .bufferSizeMismatch)
    (h : (withContext c e fun k => withLength (ok k) (body k)) = .fail err)
    (hbody : (e.ctx c).valid = true → body (e.ctx c) ≠ .fail err) : FailureReason i e err := by
  refine failureReason_of_withContext hc h fun hv h => ?_
  obtain ⟨-, hl⟩ | ⟨-, hl⟩ := withLength_cases (ok (e.ctx c)) (body (e.ctx c)) <;> rw [hl] at h
  · exact absurd h (hbody hv)
  · cases h
    exact .own hi

theorem failureReason_construct {c x : BitVec 1} {o : BitVec 8} {n l p : Word}
    (h : constructCmd P c x o n l p = .fail err) : FailureReason (.construct c x o n l p) e err := by
  cases ho : legalOrder o with
  | false =>
    simp only [constructCmd, ho, Bool.not_false, if_true] at h
    cases h
    exact .illegalOrder ho
  | true =>
    cases hk : buildCtx P x o n l p with
    | error err' =>
      cases (constructCmd_of_error c ho hk).symm.trans h
      cases buildCtx_error P x o n l p _ hk
      exact .own rfl
    | ok k => cases (constructCmd_of_ok c ho hk).symm.trans h

theorem failureReason_map {o : BitVec 8} {a : Word} (h : mapCmd P o a inp = .fail err) :
    FailureReason (.map o a) e err := by
  cases ho : legalOrder o with
  | false =>
    simp only [mapCmd, ho, Bool.not_false, if_true] at h
    cases h
    exact .illegalOrder ho
  | true =>
    by_cases ha : a.toNat = o.toNat
    · cases (mapCmd_of_length inp ho ha).symm.trans h
    · cases (mapCmd_of_length_ne inp ho ha).symm.trans h
      exact .own rfl

theorem failureReason_demap {o : BitVec 8} (h : demapCmd P o inp = .fail err) : FailureReason (.demap o) e err := by
  cases ho : legalOrder o with
  | false =>
    simp only [demapCmd, ho, Bool.not_false, if_true] at h
    cases h
    exact .illegalOrder ho
  | true => cases (demapCmd_of_legalOrder inp ho).symm.trans h

/-- Past its checks a command on a constructed context does not fail: of `CAPBITS` bits a frequency vector is built. -/
theorem engineStep_fail (he : ∀ c, usedContext i = some c → Ctx.InvFor P (e.ctx c))
    (h : engineStep P i e inp = .fail err) : FailureReason i e err := by
  have hcap (c : BitVec 1) (hc : usedContext i = some c) (hv : (e.ctx c).valid = true) :
      (e.ctx c).capbits.toNat = (e.ctx c).roles.count .data * (e.ctx c).bits := by
    obtain ⟨-, -, -, hcap⟩ := ctx_numbers P _ (he c hc) hv
    exact hcap
  cases i with
  | construct c x o n l p => exact failureReason_construct h
  | map o a => exact failureReason_map h
  | demap o => exact failureReason_demap h
  | getsymlen c | getcap c =>
    dsimp only [engineStep, getsymlenCmd, getcapCmd] at h
    exact failureReason_of_withContext rfl h fun _ => nofun
  | modulate c a b =>
    dsimp only [engineStep, modulateCmd] at h
    refine failureReason_of_checks (ok := fun k => a == k.capbits && b == k.symlen) rfl rfl h fun hv => ?_
    obtain ⟨y, hy⟩ := modulateSymbol_ok P _ _ (length_inputs_bits inp _) (hcap c rfl hv)
    rw [hy]
    nofun
  | b2f c a =>
    dsimp only [engineStep, b2fCmd] at h
    refine failureReason_of_checks (ok := fun k => a == k.capbits) rfl rfl h fun hv => ?_
    obtain ⟨V, hV⟩ := bitsToFreq_ok P _ _ (length_inputs_bits inp _) (hcap c rfl hv)
    rw [hV]
    nofun
  | demodulate c a | cpstrip c a =>
    dsimp only [engineStep, demodulateCmd, cpstripCmd] at h
    exact failureReason_of_checks (ok := fun k => a == k.symlen) rfl rfl h fun _ => nofun
  | f2b c a | xfwd c a | xinv c a | cpadd c a =>
    dsimp only [engineStep, f2bCmd, wrapperCmd, cpaddCmd] at h
    exact failureReason_of_checks (ok := fun k => a == k.nsc) rfl rfl h fun _ => nofun

end

/-! ### What a failure answers -/

/-- An effect that answers a non-zero STATUS is a failure. -/
theorem eq_fail_of_status_ne_zero {f : Effect F64} {s : State} {r : Response} (hr : (deliver f s).resp = some r)
    (hstatus : r.status ≠ 0) : ∃ e, f = .fail e ∧ r = errorResponse e := by
  cases f with
  | fail e => exact ⟨e, rfl, (Option.some.inj hr).symm⟩
  | answer | context | bits | samples =>
    cases hr
    exact absurd rfl hstatus

theorem deliver_host (f : Effect F64) (s : State) : (deliver f s).host = s.host := by
  cases f <;> rfl

theorem exec_of_not_ready {i : Instr} {c : BitVec 1} {s : State} (hc : usedContext i = some c) (hv : ¬ Ready s c) :
    exec i s = .next { s with resp := some ⟨0x04, 0⟩ } := by
  rw [exec_eq_execWith, execWith, engineStep_of_invalid hc (Bool.eq_false_iff.2 hv), deliver_notConstructed]

/-- The state after a failed command is the state before it, but for the response (60_exceptions.md R236). -/
theorem exec_of_status_ne_zero {i : Instr} {s t : State} {r : Response} (h : exec i s = .next t)
    (hr : t.resp = some r) (hstatus : r.status ≠ 0) :
    t = { s with resp := some r } ∧ ∃ e, engineStep engineParams i s.engine s.inputs = .fail e ∧
      r = errorResponse e := by
  obtain rfl := exec_next h
  obtain ⟨e, hf, rfl⟩ := eq_fail_of_status_ne_zero hr hstatus
  exact ⟨by rw [hf]; rfl, e, hf, rfl⟩

theorem ownError_ne_notConstructed (i : Instr) : ownError i ≠ some .notConstructed := by
  cases i <;> nofun

/-- A command that uses no context never answers `NotConstructed`. -/
theorem exec_resp_ne_notConstructed {i : Instr} {s t : State} (hi : usedContext i = none) (h : exec i s = .next t) :
    t.resp ≠ some ⟨0x04, 0⟩ := by
  intro hr
  obtain ⟨-, e, hf, hcode⟩ := exec_of_status_ne_zero h hr (by decide)
  obtain rfl : EngineError.notConstructed = e := errorCode_injective (congrArg Response.status hcode)
  have hunused : ∀ c, usedContext i ≠ some c := by simp [hi]
  cases engineStep_fail (fun c hc => absurd hc (hunused c)) hf with
  | unconstructed hc => exact hunused _ hc
  | own hown => exact ownError_ne_notConstructed i hown

/-- Settles O49: the ten commands use a context, which they check first; the other three use none. -/
theorem notConstructedRefused : Obligations.NotConstructedRefused := by
  refine ⟨fun c a b s hv i hi => exec_of_not_ready (c := c) ?_ hv, fun c x order n l p a s t i hi h =>
    exec_resp_ne_notConstructed ?_ h⟩
  · revert i
    simp [usedContext]
  · revert i
    simp [usedContext]

/-- Settles O50: the check on the lengths answers before anything is read. -/
theorem bufferSizeMismatchRefused : Obligations.BufferSizeMismatchRefused := by
  intro c a b s hv k
  have hmismatch (required : Ctx → Word) (hlen : a ≠ required k) (body : Ctx → Effect F64) :=
    (checks_fail_answers c s a required body).1 hv hlen
  refine ⟨fun hlen => ?_, fun hlen i hi => ?_, fun hlen => hmismatch Ctx.capbits hlen _, fun hlen i hi => ?_⟩
  · rw [exec_modulate, modulateCmd_of_length_ne s.inputs hv hlen, deliver_bufferSizeMismatch]
  · obtain rfl | rfl := List.mem_pair.1 hi <;> exact hmismatch Ctx.symlen hlen _
  · simp only [List.mem_cons, List.not_mem_nil, or_false] at hi
    obtain rfl | rfl | rfl | rfl := hi <;> exact hmismatch Ctx.nsc hlen _

/-- Settles O51: a non-zero STATUS is a failure's, which delivers its response alone. -/
theorem errorsChangeNothing : Obligations.ErrorsChangeNothing := by
  refine ⟨fun i s t r h hr hstatus => ?_, fun s t p r hcmd h hr hstatus => ?_⟩
  · obtain ⟨ht, e, -, rfl⟩ := exec_of_status_ne_zero h hr hstatus
    exact ⟨ht, rfl, e, rfl⟩
  · cases hp : decode p with
    | error e =>
      cases (step_of_decode_error hcmd hp).symm.trans h
      cases hr
      rfl
    | ok i => exact (exec_of_status_ne_zero ((step_of_decode hcmd hp).symm.trans h) hr hstatus).1

/-- At the third level of 60_exceptions.md R244 a legal command succeeds or answers its own error. -/
theorem exec_resp_of_ready {i : Instr} {s t : State} {r : Response} (hctx : ∀ c, Ctx.Inv (s.engine.ctx c))
    (hi : i.wellFormed = true) (hready : ∀ c, usedContext i = some c → Ready s c) (h : exec i s = .next t)
    (hr : t.resp = some r) : r.status = 0 ∨ ∃ e, ownError i = some e ∧ r = ⟨e.code, 0⟩ := by
  refine or_iff_not_imp_left.2 fun hstatus => ?_
  obtain ⟨-, e, hf, rfl⟩ := exec_of_status_ne_zero h hr hstatus
  cases engineStep_fail (fun c _ => hctx c) hf with
  | unconstructed hc hv => exact absurd (hready _ hc) (Bool.eq_false_iff.1 hv)
  | illegalOrder hillegal => exact absurd hi (Bool.eq_false_iff.1 hillegal)
  | own hown => exact ⟨e, hown, rfl⟩

/-- Settles O52: the decoder refuses an illegal packet before any context is looked at; of a legal command the check
on the context comes first, and what then fails is its own check. -/
theorem errorPriority : Obligations.ErrorPriority := by
  intro s p hs hcmd
  obtain ⟨hctx, -⟩ := (State.invFor_iff engineParams s).1 hs
  obtain ⟨t, r, hstep, -, hr⟩ := exists_step_resp hcmd
  refine ⟨t, r, hstep, hr, fun e hp => ?_, fun i hp => ?_⟩
  · cases (step_of_decode_error hcmd hp).symm.trans hstep
    exact (Option.some.inj hr).symm
  · have hexec := (step_of_decode hcmd hp).symm.trans hstep
    refine ⟨fun c hc hv => ?_, fun hready =>
      exec_resp_of_ready (s := takeCommand s) hctx (wellFormed_of_decode hp) hready hexec hr⟩
    cases (exec_of_not_ready (s := takeCommand s) hc hv).symm.trans hexec
    exact (Option.some.inj hr).symm

/-- Settles O8: a step is the host's turn when the port is free, and else a command, which leaves the host's moves as
they are. -/
theorem hostActsBetweenCommands : Obligations.HostActsBetweenCommands := by
  refine ⟨fun s hcmd hhost => ?_, fun s m rest => step_hostMove, fun s p rest => step_hostMove,
    fun s t p hcmd h => ?_⟩
  · rw [step_host s hcmd, hostTurn, hhost]
  · cases hp : decode p with
    | error e =>
      cases (step_of_decode_error hcmd hp).symm.trans h
      rfl
    | ok i =>
      obtain rfl := exec_next ((step_of_decode hcmd hp).symm.trans h)
      exact deliver_host _ _

end Sys2Proof.Machine
